-- ==== Sys2Proof/Word.lean ====
section
/-! DEFINITION. The word types of the block: bytes (Symbols), 32-bit register words and Sequences. -/

namespace Sys2Proof

/-- A Symbol, "one byte, 0–255" (30_encoding.md R94): one element of IN or OUT. -/
abbrev Byte := BitVec 8

/-- One entry of CODE (20_memory.md R62). -/
abbrev CodeEntry := BitVec 16

/-- A register of the host window (10_state.md R21). -/
abbrev Word := BitVec 32

/-- "A Sequence is a finite list of Symbols"; the empty list is admitted (00_scope.md R14). -/
abbrev Sequence := List Byte

end Sys2Proof
end

