-- ==== Sys2Proof/Config.lean ====
section
/-! DEFINITION. What is fixed for the machine: the algorithm's constants (00_scope.md R8, R9), the phase
numbers (10_state.md R33), the register offsets (10_state.md R21), the open parameters (R11, R75) and the
free values, which have no body. -/

namespace Sys2Proof

/-- The field VAR of CFG (00_scope.md R10): 0 is STATIC, 1 is DYNAMIC. -/
inductive Variant where
  | static
  | dynamic
  deriving DecidableEq, Repr

/-- The three buffers (20_memory.md R60–R62). -/
inductive BufferName where
  | IN
  | OUT
  | CODE
  deriving DecidableEq, Repr

/-- What a free value stands for: one name for each place the spec leaves open, so that two places never
share a value. -/
inductive Slot where
  | opc | chain | nextCode | curBits | maxCode | cur | prev | prevValid
  | inPos | outPos | codePos | serB | desN | desH
  | registerRead | outRead | codeRead
  | maxBits | var | err | codeLen | width | outLen
  deriving DecidableEq, Repr

namespace Config

/-- FIRST_FREE, the first code not pre-bound; ALPHABET is the same number (00_scope.md R8). -/
abbrev firstFree : Nat := 256

/-- DYN_START_BITS, the width at which DYNAMIC starts (00_scope.md R8). -/
abbrev dynStartBits : Nat := 9

/-- The least legal MAX_BITS (00_scope.md R9). -/
abbrev leastMaxBits : Nat := 9

/-- The greatest legal MAX_BITS (00_scope.md R9). -/
abbrev greatestMaxBits : Nat := 16

/-- IN_SIZE at `State.reset`. DESIGN CHOICE, log entry 1: the spec leaves the size open (R11). -/
def resetInSize : Word := 65536

/-- CODE_SIZE at `State.reset`. DESIGN CHOICE, log entry 1: with it `CODE_SIZE >= IN_SIZE` (R11). -/
def resetCodeSize : Word := 65536

/-- OUT_SIZE at `State.reset`. DESIGN CHOICE, log entry 1: with it `OUT_SIZE >= 1 + 2*IN_SIZE` (R11). -/
def resetOutSize : Word := 131073

/-- REG_BASE, where the platform places the register window: OPEN (20_memory.md R75), log entry 16. -/
opaque regBase : Nat

/-- IN_BASE: OPEN (20_memory.md R75), log entry 16. -/
opaque inBase : Nat

/-- OUT_BASE: OPEN (20_memory.md R75), log entry 16. -/
opaque outBase : Nat

/-- CODE_BASE: OPEN (20_memory.md R75), log entry 16. -/
opaque codeBase : Nat

/-- The host's physical address of the register at an offset of the window (20_memory.md R75). -/
def registerAddress (off : Nat) : Nat := regBase + off

/-- A free bit vector: "any value, a draw under no law" (93_implementation_defined.md). `n` is the draw
counter of State. -/
opaque freeBits (w : Nat) (slot : Slot) (n : Nat) : BitVec w

/-- A free bit. -/
opaque freeBit (slot : Slot) (n : Nat) : Bool

/-- A free Sequence. -/
opaque freeSequence (slot : Slot) (n : Nat) : Sequence

/-- Free contents of ED. -/
opaque freeEncodeDict (n : Nat) : List (Sequence × Nat)

/-- Free contents of DD. -/
opaque freeDecodeDict (n : Nat) : List (Nat × Sequence)

/-- `s[0]` of the empty Sequence, which 00_scope.md R14 leaves without a value (log entry 12). -/
opaque headOfEmpty : Byte

/-- What element `i` of a buffer reads as while nothing has written it since its contents became
unspecified at draw `epoch` (60_exceptions.md R262, 70_reset_and_hazards.md R290: "each element any
value"), and what the engine reads at an index where the buffer has no element (log entry 12). -/
opaque freeElement (w : Nat) (b : BufferName) (epoch i : Nat) : BitVec w

end Config

/-! The values of PHASE (10_state.md R33). -/

abbrev Phase.idle : BitVec 4 := 0
abbrev Phase.dispatch : BitVec 4 := 1
abbrev Phase.encInit : BitVec 4 := 2
abbrev Phase.encLoop : BitVec 4 := 3
abbrev Phase.serInit : BitVec 4 := 4
abbrev Phase.serLoop : BitVec 4 := 5
abbrev Phase.desInit : BitVec 4 := 6
abbrev Phase.desLoop : BitVec 4 := 7
abbrev Phase.decInit : BitVec 4 := 8
abbrev Phase.decLoop : BitVec 4 := 9

/-! The offsets of the register window (10_state.md R21). -/

abbrev Offset.cmd : Nat := 0x00
abbrev Offset.status : Nat := 0x04
abbrev Offset.cfg : Nat := 0x08
abbrev Offset.inLen : Nat := 0x0C
abbrev Offset.outLen : Nat := 0x10
abbrev Offset.codeLen : Nat := 0x14
abbrev Offset.width : Nat := 0x18

end Sys2Proof
end

