-- ==== Sys2Proof/Syntax.lean ====
section
/-! DEFINITION. The instructions: one constructor per row of spec/opcode_table.json, the eight host
commands (46_host_commands.md) and the fourteen engine micro-operations (30_encoding.md R101). -/

namespace Sys2Proof

inductive Instr where
  /-- NOP, opcode 0x00 (46_host_commands.md R232). -/
  | nop
  /-- CONFIGURE, opcode 0x01, with the operands VARB and MAXB (30_encoding.md R92, 46_host_commands.md
  R233). -/
  | configure (varb : Variant) (maxb : Nat)
  /-- ENCODE, opcode 0x02 (R234). -/
  | encode
  /-- SERIALIZE, opcode 0x03 (R235). -/
  | serialize
  /-- DESERIALIZE, opcode 0x04 (R236). -/
  | deserialize
  /-- DECODE, opcode 0x05 (R237). -/
  | decode
  /-- COMPRESS, opcode 0x06 (R238). -/
  | compress
  /-- DECOMPRESS, opcode 0x07 (R239). -/
  | decompress
  /-- DISPATCH, PHASE 1 (46_host_commands.md R231). -/
  | dispatch
  /-- ENC_INIT, PHASE 2 (42_encoder.md R141). -/
  | encInit
  /-- ENC_SYMBOL, PHASE 3 with IN_POS < IN_LEN (42_encoder.md R142). -/
  | encSymbol
  /-- ENC_END, PHASE 3 with IN_POS = IN_LEN (42_encoder.md R144). -/
  | encEnd
  /-- SER_INIT, PHASE 4 (45_stream_codec.md R201). -/
  | serInit
  /-- SER_CODE, PHASE 5 with CODE_POS < CODE_LEN (45_stream_codec.md R202). -/
  | serCode
  /-- SER_END, PHASE 5 with CODE_POS = CODE_LEN (45_stream_codec.md R203). -/
  | serEnd
  /-- DES_INIT, PHASE 6 (45_stream_codec.md R204). -/
  | desInit
  /-- DES_CODE, PHASE 7 with CODE_POS < DES_N (45_stream_codec.md R205). -/
  | desCode
  /-- DES_END, PHASE 7 with CODE_POS = DES_N (45_stream_codec.md R206). -/
  | desEnd
  /-- DEC_INIT, PHASE 8 (43_decoder.md R161). -/
  | decInit
  /-- DEC_FIRST, PHASE 9 with CODE_POS < CODE_LEN and PREV_VALID = 0 (43_decoder.md R162). -/
  | decFirst
  /-- DEC_NEXT, PHASE 9 with CODE_POS < CODE_LEN and PREV_VALID = 1 (43_decoder.md R163). -/
  | decNext
  /-- DEC_END, PHASE 9 with CODE_POS = CODE_LEN (43_decoder.md R167). -/
  | decEnd
  deriving DecidableEq, Repr

end Sys2Proof
end

