-- ==== Sys2Proof/WellFormed.lean ====
section
/-! DEFINITION. Which terms of `Instr` an encoding stands for. -/

namespace Sys2Proof

/-- MAXB "is read as an unsigned 8-bit number. Every value 0..255 decodes" (30_encoding.md R92); no other
instruction has an operand that could be out of range. -/
def Instr.wellFormed : Instr → Bool
  | .configure _ maxb => decide (maxb < 256)
  | .nop => true
  | .encode => true
  | .serialize => true
  | .deserialize => true
  | .decode => true
  | .compress => true
  | .decompress => true
  | .dispatch => true
  | .encInit => true
  | .encSymbol => true
  | .encEnd => true
  | .serInit => true
  | .serCode => true
  | .serEnd => true
  | .desInit => true
  | .desCode => true
  | .desEnd => true
  | .decInit => true
  | .decFirst => true
  | .decNext => true
  | .decEnd => true

end Sys2Proof
end

