-- ==== Sys2Proof/Decode.lean ====
section
/-! DEFINITION. The decoders and the encoder. A command is one 32-bit word (30_encoding.md R90–R93). A
micro-operation is selected by PHASE and a condition (R101): the model writes the two as one SELECTION
BYTE, PHASE in bits [3:0] as the opcode table has it, and the condition above it: bit 4 says that the
loop's position equals its length, bit 5 is PREV_VALID (log entry 14). -/

namespace Sys2Proof

/-- Why bits stand for no instruction. -/
inductive DecodeError where
  /-- A command word that matches no row of 30_encoding.md R91. -/
  | illegalCommand
  /-- PHASE = IDLE selects no micro-operation (30_encoding.md R101). -/
  | idlePhase
  /-- PHASE values 10–15 (30_encoding.md R101). -/
  | unreachablePhase
  /-- A selection byte whose condition bits no row of R101 has. -/
  | reservedSelection
  deriving DecidableEq, Repr

/-- What the decoder reads: the latched command word, or the engine's selection byte. -/
inductive Encoding where
  | command (w : Word)
  | selection (b : Byte)
  deriving DecidableEq, Repr

/-- The field OPC, bits [7:0] (30_encoding.md R90). -/
def fieldOpc (w : Word) : BitVec 8 := w.extractLsb' 0 8

/-- The field MAXB, bits [15:8] (30_encoding.md R90). -/
def fieldMaxb (w : Word) : BitVec 8 := w.extractLsb' 8 8

/-- The field VARB, bit [16] (30_encoding.md R90). -/
def fieldVarb (w : Word) : BitVec 1 := w.extractLsb' 16 1

/-- The field RSV, bits [31:17] (30_encoding.md R90). -/
def fieldRsv (w : Word) : BitVec 15 := w.extractLsb' 17 15

/-- VAR as one bit: 0 is STATIC, 1 is DYNAMIC (00_scope.md R10). -/
def variantOfBit (b : BitVec 1) : Variant := if b = 1 then .dynamic else .static

/-- The bit of a variant. -/
def bitOfVariant : Variant → BitVec 1
  | .static => 0
  | .dynamic => 1

/-- The command a word stands for: the table of 30_encoding.md R91, and the illegal words of R93. -/
def decodeCommand (w : Word) : Except DecodeError Instr :=
  if fieldRsv w ≠ 0 then .error .illegalCommand
  else if fieldOpc w ≠ 1 ∧ (fieldMaxb w ≠ 0 ∨ fieldVarb w ≠ 0) then .error .illegalCommand
  else match (fieldOpc w).toNat with
    | 0x00 => .ok .nop
    | 0x01 => .ok (.configure (variantOfBit (fieldVarb w)) (fieldMaxb w).toNat)
    | 0x02 => .ok .encode
    | 0x03 => .ok .serialize
    | 0x04 => .ok .deserialize
    | 0x05 => .ok .decode
    | 0x06 => .ok .compress
    | 0x07 => .ok .decompress
    | _ => .error .illegalCommand

/-- The micro-operation a selection byte stands for: the table of 30_encoding.md R101. -/
def decodeSelection (b : Byte) : Except DecodeError Instr :=
  match b.toNat with
  | 0x01 => .ok .dispatch
  | 0x02 => .ok .encInit
  | 0x03 => .ok .encSymbol
  | 0x13 => .ok .encEnd
  | 0x04 => .ok .serInit
  | 0x05 => .ok .serCode
  | 0x15 => .ok .serEnd
  | 0x06 => .ok .desInit
  | 0x07 => .ok .desCode
  | 0x17 => .ok .desEnd
  | 0x08 => .ok .decInit
  | 0x09 => .ok .decFirst
  | 0x29 => .ok .decNext
  | 0x19 => .ok .decEnd
  | n => .error (if n % 16 = 0 then .idlePhase else if 10 ≤ n % 16 then .unreachablePhase else .reservedSelection)

/-- Decoding, total on both kinds of encoding. -/
def decode : Encoding → Except DecodeError Instr
  | .command w => decodeCommand w
  | .selection b => decodeSelection b

/-- CONFIGURE's word, `(VARB<<16) | (MAXB<<8) | 0x01` (46_host_commands.md R233). -/
def configureWord (v : Variant) (maxb : Nat) : Word :=
  (0 : BitVec 15) ++ bitOfVariant v ++ BitVec.ofNat 8 maxb ++ (0x01 : BitVec 8)

/-- The encoding of an instruction: command words by 30_encoding.md R91, selection bytes by R101. -/
def encode : Instr → Encoding
  | .nop => .command 0x00000000
  | .configure v maxb => .command (configureWord v maxb)
  | .encode => .command 0x00000002
  | .serialize => .command 0x00000003
  | .deserialize => .command 0x00000004
  | .decode => .command 0x00000005
  | .compress => .command 0x00000006
  | .decompress => .command 0x00000007
  | .dispatch => .selection 0x01
  | .encInit => .selection 0x02
  | .encSymbol => .selection 0x03
  | .encEnd => .selection 0x13
  | .serInit => .selection 0x04
  | .serCode => .selection 0x05
  | .serEnd => .selection 0x15
  | .desInit => .selection 0x06
  | .desCode => .selection 0x07
  | .desEnd => .selection 0x17
  | .decInit => .selection 0x08
  | .decFirst => .selection 0x09
  | .decNext => .selection 0x29
  | .decEnd => .selection 0x19

/-- The opcode table's numbering: a row of 32 bits is a command word, a row of 4 bits (one whole byte) is a
PHASE, read as a selection byte. -/
def tableEncoding (nbits w : Nat) : Option Encoding :=
  if nbits ≤ 8 then if w < 256 then some (.selection (BitVec.ofNat 8 w)) else none
  else if nbits ≤ 32 then if w < 4294967296 then some (.command (BitVec.ofNat 32 w)) else none
  else none

/-- What the decoder reads from a word of the opcode table. -/
def decodeTableWord (nbits w : Nat) : Option Instr :=
  match tableEncoding nbits w with
  | none => none
  | some e =>
    match decode e with
    | .ok i => some i
    | .error _ => none

end Sys2Proof
end

