-- ==== Sys2Proof/Machine/State.lean ====
section
/-! DEFINITION. The state of one block instance (10_state.md R20): the register file, the three buffers, the
engine's internal state and the model fault mark; and, as the model's own, the host agent that drives it
(70_reset_and_hazards.md R298) and the draw counter. -/

namespace Sys2Proof.Machine

/-- Why a step stops with a fault. -/
inductive Fault where
  /-- PHASE is 10–15: "A model that finds one faults with "unreachable phase"" (30_encoding.md R101,
  60_exceptions.md R274 (d)). Raised by `fetch`, by no instruction. Safe. -/
  | unreachablePhase
  deriving DecidableEq, Repr

/-- Why a step is refused. -/
inductive Refusal where
  /-- An instruction without a meaning yet, by its mnemonic. Raised by `exec`'s refused arms. Safe. -/
  | notModelled (mnemonic : String)
  /-- A register access that is not an aligned 32-bit one in 0x00–0x3C (20_memory.md R64). Raised by a host
  access. Safe. -/
  | registerAccessShape
  /-- A buffer access at or beyond the buffer's size (20_memory.md R67, R68). Raised by a host access. Safe. -/
  | bufferIndexBeyondSize
  deriving DecidableEq, Repr

/-- The contents of one buffer: the elements written since the contents were last unspecified, by rising
index. `epoch` says at which draw they became unspecified; an unlisted element reads as a free value. -/
structure Buffer (w : Nat) where
  epoch : Nat
  cells : List (Nat × BitVec w)
  deriving DecidableEq, Repr

/-- ED, "a finite partial map from non-empty Sequences to Codes" (10_state.md R37), in the order of binding. -/
abbrev EncodeDict := List (Sequence × Nat)

/-- DD, "a finite partial map from Codes to non-empty Sequences" (10_state.md R38), in the order of binding. -/
abbrev DecodeDict := List (Nat × Sequence)

/-- The two agents (20_memory.md R77). -/
inductive Agent where
  | engine
  | host
  deriving DecidableEq, Repr

/-- One host step (70_reset_and_hazards.md R298): a register or buffer access of 20_memory.md R64–R68, written
as 30_encoding.md R102 writes it, a RESET, or the loop POLL of R103. -/
inductive HostOp where
  /-- RD at an offset, with the access's width in bits. -/
  | readReg (bits off : Nat)
  /-- WR at an offset, with the access's width in bits. -/
  | writeReg (bits off : Nat) (v : Word)
  /-- RDB. -/
  | readBuf (b : BufferName) (i : Nat)
  /-- WRB. -/
  | writeBuf (b : BufferName) (i : Nat) (v : Word)
  /-- POLL: `L: RD STATUS -> s; if s[0] = 1 goto L`. -/
  | poll
  /-- The event RESET (70_reset_and_hazards.md R290). -/
  | reset
  deriving DecidableEq, Repr

/-- The state of one block instance and of the host that drives it. -/
structure State where
  /-- IN_SIZE (00_scope.md R11). -/
  inSize : Word
  /-- OUT_SIZE (R11). -/
  outSize : Word
  /-- CODE_SIZE (R11). -/
  codeSize : Word
  /-- STATUS.BUSY (10_state.md R23). -/
  busy : Bool
  /-- STATUS.DROP (R24). -/
  drop : Bool
  /-- STATUS.ERR (R24). -/
  err : BitVec 4
  /-- CFG.MAX_BITS (R25). -/
  maxBits : Byte
  /-- CFG.VAR (R25). -/
  var : Variant
  /-- IN_LEN (R26). -/
  inLen : Word
  /-- OUT_LEN (R27). -/
  outLen : Word
  /-- CODE_LEN (R28). -/
  codeLen : Word
  /-- WIDTH (R29). -/
  width : Byte
  /-- IN (20_memory.md R60). -/
  inBuf : Buffer 8
  /-- OUT (R61). -/
  outBuf : Buffer 8
  /-- CODE (R62). -/
  codeBuf : Buffer 16
  /-- PHASE (10_state.md R33). -/
  phase : BitVec 4
  /-- OPC (R34). -/
  opc : Word
  /-- CHAIN (R34). -/
  chain : Bool
  /-- NEXT_CODE (R35). -/
  nextCode : BitVec 17
  /-- CUR_BITS (R36). -/
  curBits : BitVec 5
  /-- MAX_CODE (R36). -/
  maxCode : BitVec 17
  /-- ED (R37). -/
  ed : EncodeDict
  /-- DD (R38). -/
  dd : DecodeDict
  /-- CUR (R39). -/
  cur : Sequence
  /-- PREV (R40). -/
  prev : Sequence
  /-- PREV_VALID (R40). -/
  prevValid : Bool
  /-- IN_POS (R41). -/
  inPos : Word
  /-- OUT_POS (R41). -/
  outPos : Word
  /-- CODE_POS (R41). -/
  codePos : Word
  /-- SER_B (R41). -/
  serB : BitVec 2
  /-- DES_N (R41). -/
  desN : Word
  /-- DES_H (R41). -/
  desH : Byte
  /-- HAZARD, the model fault mark (R42). -/
  hazard : Bool
  /-- The model's own: a write of 70_reset_and_hazards.md R293 hit the running command, so that "every result
  of the running command is any value" (log entry 10). -/
  spoiled : Bool
  /-- The model's own: a command was accepted and no STATUS read has returned BUSY = 0 since
  (70_reset_and_hazards.md R293, log entry 10). -/
  unpolled : Bool
  /-- The model's own: the number of the next free value (log entry 6). -/
  draws : Nat
  /-- The model's own: what the host's last read returned (log entry 9). -/
  rdata : Word
  /-- The model's own: the host steps still to come, in the host's program order (log entry 7). -/
  program : List HostOp
  /-- The model's own: who takes the next steps; when it is empty, the engine while BUSY = 1, else the host
  (log entry 7). -/
  schedule : List Agent
  deriving DecidableEq, Repr

/-- The state right after reset (70_reset_and_hazards.md R290). The host-visible registers and PHASE have the
values of R290's table. DESIGN CHOICE, log entry 2: every register R290 calls unspecified is 0, empty or
STATIC's 0 bit here. The buffers list nothing: each element is a free value. -/
def State.reset : State where
  inSize := Config.resetInSize
  outSize := Config.resetOutSize
  codeSize := Config.resetCodeSize
  busy := false
  drop := false
  err := 0
  maxBits := 12
  var := .dynamic
  inLen := 0
  outLen := 0
  codeLen := 0
  width := 0
  inBuf := ⟨0, []⟩
  outBuf := ⟨0, []⟩
  codeBuf := ⟨0, []⟩
  phase := Phase.idle
  opc := 0
  chain := false
  nextCode := 0
  curBits := 0
  maxCode := 0
  ed := []
  dd := []
  cur := []
  prev := []
  prevValid := false
  inPos := 0
  outPos := 0
  codePos := 0
  serB := 0
  desN := 0
  desH := 0
  hazard := false
  spoiled := false
  unpolled := false
  draws := 1
  rdata := 0
  program := []
  schedule := []

end Sys2Proof.Machine
end

