-- ==== Sys2Proof/Machine/Flags.lean ====
section
/-! DEFINITION. The flags (10_state.md R44), the error codes (60_exceptions.md R260), and the words in which
the host reads the register file (10_state.md R22–R30). -/

namespace Sys2Proof.Machine

/-- The error kinds (60_exceptions.md R260). -/
inductive ErrorKind where
  | invariantViolation
  | invalidCode
  | configurationError
  | illegalCommand
  | bufferOverflow
  deriving DecidableEq, Repr

/-- `code(E)`, the number STATUS.ERR holds (60_exceptions.md R260). -/
def errorCode : ErrorKind → BitVec 4
  | .invariantViolation => 1
  | .invalidCode => 2
  | .configurationError => 3
  | .illegalCommand => 4
  | .bufferOverflow => 5

/-- A flag as one bit. -/
def bitOfBool (b : Bool) : BitVec 1 := BitVec.ofBool b

/-- STATUS as the host reads it: BUSY in bit 0, DROP in bit 1, ERR in bits [11:8], all other bits 0
(10_state.md R23, R24). -/
def statusWord (s : State) : Word :=
  (0 : BitVec 20) ++ s.err ++ (0 : BitVec 6) ++ bitOfBool s.drop ++ bitOfBool s.busy

/-- CFG as the host reads it: MAX_BITS in bits [15:8], VAR in bit 16, all other bits 0 (10_state.md R25). -/
def cfgWord (s : State) : Word :=
  (0 : BitVec 15) ++ bitOfVariant s.var ++ s.maxBits ++ (0 : BitVec 8)

/-- The value of the register at an offset (10_state.md R21–R30): CMD and the reserved offsets read 0. -/
def registerValue (off : Nat) (s : State) : Word :=
  if off = Offset.status then statusWord s
  else if off = Offset.cfg then cfgWord s
  else if off = Offset.inLen then s.inLen
  else if off = Offset.outLen then s.outLen
  else if off = Offset.codeLen then s.codeLen
  else if off = Offset.width then s.width.setWidth 32
  else 0

/-- DROP after a host write to STATUS: a 1 in bit 1 clears it, a 0 leaves it (10_state.md R24). -/
def dropAfterStatusWrite (v : Word) (drop : Bool) : Bool := drop && !v.getLsbD 1

/-- The commands that list CODE, CODE_LEN and WIDTH among their outputs (46_host_commands.md R234, R236, R238,
R239). -/
def writesCode (w : Word) : Bool := w == 2 || w == 4 || w == 6 || w == 7

/-- The commands that list OUT and OUT_LEN among their outputs (46_host_commands.md R235, R237–R239). -/
def writesOut (w : Word) : Bool := w == 3 || w == 5 || w == 6 || w == 7

/-- CONFIGURE, the command that writes CFG (46_host_commands.md R233): match 0x00000001 under mask
0xFFFE00FF (30_encoding.md R91). -/
def writesCfg (w : Word) : Bool := w &&& 0xFFFE00FF == 1

end Sys2Proof.Machine
end

