-- ==== Sys2Proof/Machine/Operands.lean ====
section
/-! DEFINITION. The operand forms of the micro-operations: elements of the buffers (20_memory.md R60–R62,
R69), frame bytes and code assembly (00_scope.md R15, 30_encoding.md R96–R98). -/

namespace Sys2Proof.Machine

/-- The value listed at an index. -/
def cellGet {w : Nat} : List (Nat × BitVec w) → Nat → Option (BitVec w)
  | [], _ => none
  | (a, v) :: rest, i => if a = i then some v else cellGet rest i

/-- Element `i` of a buffer. What an unlisted element reads as stands here and nowhere else: a free value
(70_reset_and_hazards.md R290, 60_exceptions.md R262; log entry 3). -/
def bufGet {w : Nat} (name : BufferName) (b : Buffer w) (i : Nat) : BitVec w :=
  (cellGet b.cells i).getD (Config.freeElement w name b.epoch i)

/-- Element `i` of IN, `BufRead(IN, i)` (00_scope.md R15). At an index the buffer does not have, it is a free
value, as for the other buffers (20_memory.md R69, log entry 12). -/
def elementIn (s : State) (i : Nat) : Byte := bufGet .IN s.inBuf i

/-- Element `i` of OUT. -/
def elementOut (s : State) (i : Nat) : Byte := bufGet .OUT s.outBuf i

/-- Element `i` of CODE, `BufRead(CODE, i)` (00_scope.md R15). -/
def elementCode (s : State) (i : Nat) : CodeEntry := bufGet .CODE s.codeBuf i

/-- The `n` bytes of IN from index `i` on, as DES_CODE reads them (45_stream_codec.md R205). -/
def elementsIn (s : State) (i n : Nat) : List Byte := (List.range n).map fun j => elementIn s (i + j)

/-- `s[0]` of a Sequence (00_scope.md R14): a free value where there is none (log entry 12). -/
def firstSymbol (q : Sequence) : Byte := q.headD Config.headOfEmpty

/-- `BE_B(v)`: byte j is `(v / 256^(B-1-j)) mod 256`, most significant first (00_scope.md R15). -/
def bigEndian : Nat → Nat → List Byte
  | 0, _ => []
  | n + 1, v => BitVec.ofNat 8 (v / 256 ^ n) :: bigEndian n v

/-- `unBE(b_0..b_{B-1})`, `sum_j b_j * 256^(B-1-j)` (00_scope.md R15). -/
def ofBigEndian : List Byte → Nat
  | [] => 0
  | b :: rest => b.toNat * 256 ^ rest.length + ofBigEndian rest

/-- `ceil(W/8)`, a frame's bytes per code (30_encoding.md R97). -/
def bytesPerCode (width : Nat) : Nat := (width + 7) / 8

end Sys2Proof.Machine
end

