-- ==== Sys2Proof/Machine/Ops.lean ====
section
/-! DEFINITION. The shared operations: writing buffers, the canonical form of the buffers, accepting and
completing a command (46_host_commands.md R230, R240, R241), aborting one (60_exceptions.md R262), the
event RESET (70_reset_and_hazards.md R290), and EMIT and OUTPUT (42_encoder.md R143, 43_decoder.md R166). -/

namespace Sys2Proof.Machine

/-! ### Buffers -/

/-- The list with `v` at index `i`, indices still rising. -/
def cellSet {w : Nat} : List (Nat × BitVec w) → Nat → BitVec w → List (Nat × BitVec w)
  | [], i, v => [(i, v)]
  | (a, x) :: rest, i, v =>
    if i < a then (i, v) :: (a, x) :: rest
    else if a = i then (i, v) :: rest
    else (a, x) :: cellSet rest i v

/-- The list with the values `vs` from index `i` on. -/
def cellSetRun {w : Nat} : List (Nat × BitVec w) → Nat → List (BitVec w) → List (Nat × BitVec w)
  | cells, _, [] => cells
  | cells, i, v :: vs => cellSetRun (cellSet cells i v) (i + 1) vs

/-- `BufWrite(B, i, v)` (00_scope.md R15). -/
def bufSet {w : Nat} (b : Buffer w) (i : Nat) (v : BitVec w) : Buffer w :=
  { b with cells := cellSet b.cells i v }

/-- Consecutive `BufWrite`s from index `i` on. -/
def bufSetRun {w : Nat} (b : Buffer w) (i : Nat) (vs : List (BitVec w)) : Buffer w :=
  { b with cells := cellSetRun b.cells i vs }

/-- The indices strictly rise, from `lo` on, and stay below `size`. -/
def cellsRise {w : Nat} (size : Nat) : Nat → List (Nat × BitVec w) → Bool
  | _, [] => true
  | lo, (a, _) :: rest => decide (lo ≤ a) && decide (a < size) && cellsRise size (a + 1) rest

/-- The canonical form of the three buffers: strictly rising indices inside the buffer's size. An unlisted
element reads as a free value, which no listed value is known to equal (log entry 3). -/
def Memory.wf (s : State) : Bool :=
  cellsRise s.inSize.toNat 0 s.inBuf.cells &&
    (cellsRise s.outSize.toNat 0 s.outBuf.cells && cellsRise s.codeSize.toNat 0 s.codeBuf.cells)

/-! ### Acceptance and completion -/

/-- Command acceptance (46_host_commands.md R230). The marks of the model: a fresh command is not spoiled,
and its end has not been polled. -/
def accept (w : Word) (s : State) : State :=
  { s with opc := w, busy := true, err := 0, chain := false, phase := Phase.dispatch, spoiled := false, unpolled := true }

/-- A CMD write while BUSY = 1 "sets DROP <- 1 and has no other effect" (46_host_commands.md R241). -/
def dropCommand (s : State) : State := { s with drop := true }

/-- MAX_BITS as a free value within the bound 9..16 that "CFG always holds" (10_state.md R25). -/
def freeMaxBits (n : Nat) : Byte :=
  BitVec.ofNat 8 (Config.leastMaxBits + (Config.freeBits 8 .maxBits n).toNat % 8)

/-- ERR as a free value within the codes 0..5 that are ever produced (60_exceptions.md R260). -/
def freeErr (n : Nat) : BitVec 4 := BitVec.ofNat 4 ((Config.freeBits 4 .err n).toNat % 6)

/-- VAR as a free value. -/
def freeVar (n : Nat) : Variant := if Config.freeBit .var n then .dynamic else .static

/-- If a write of 70_reset_and_hazards.md R293 hit the running command, "every result of the running command
is any value": the outputs its rule lists and ERR are drawn (log entry 10). Otherwise nothing changes. -/
def spoilResults (s : State) : State :=
  { s with
    err := if s.spoiled then freeErr s.draws else s.err
    maxBits := if s.spoiled && writesCfg s.opc then freeMaxBits s.draws else s.maxBits
    var := if s.spoiled && writesCfg s.opc then freeVar s.draws else s.var
    codeLen := if s.spoiled && writesCode s.opc then Config.freeBits 32 .codeLen s.draws else s.codeLen
    width := if s.spoiled && writesCode s.opc then Config.freeBits 8 .width s.draws else s.width
    codeBuf := if s.spoiled && writesCode s.opc then ⟨s.draws, []⟩ else s.codeBuf
    outLen := if s.spoiled && writesOut s.opc then Config.freeBits 32 .outLen s.draws else s.outLen
    outBuf := if s.spoiled && writesOut s.opc then ⟨s.draws, []⟩ else s.outBuf
    spoiled := false
    draws := if s.spoiled then s.draws + 1 else s.draws }

/-- COMPLETE(): `PHASE <- IDLE; BUSY <- 0` (46_host_commands.md R240). -/
def complete (s : State) : State :=
  { spoilResults s with phase := Phase.idle, busy := false }

/-! ### Errors -/

/-- Whose destination an abort leaves unspecified (60_exceptions.md R262): DISPATCH's (none), that of ENCODE or
DESERIALIZE (CODE), or that of SERIALIZE or DECODE (OUT). -/
inductive FailingHalf where
  | dispatch
  | toCode
  | toOut
  deriving DecidableEq, Repr

/-- The internal state becomes unspecified (60_exceptions.md R262, 93_implementation_defined.md item 6): each
register a free value. -/
def discardInternal (s : State) : State :=
  { s with
    opc := Config.freeBits 32 .opc s.draws
    nextCode := Config.freeBits 17 .nextCode s.draws
    curBits := Config.freeBits 5 .curBits s.draws
    maxCode := Config.freeBits 17 .maxCode s.draws
    ed := Config.freeEncodeDict s.draws
    dd := Config.freeDecodeDict s.draws
    cur := Config.freeSequence .cur s.draws
    prev := Config.freeSequence .prev s.draws
    prevValid := Config.freeBit .prevValid s.draws
    inPos := Config.freeBits 32 .inPos s.draws
    outPos := Config.freeBits 32 .outPos s.draws
    codePos := Config.freeBits 32 .codePos s.draws
    serB := Config.freeBits 2 .serB s.draws
    desN := Config.freeBits 32 .desN s.draws
    desH := Config.freeBits 8 .desH s.draws
    draws := s.draws + 1 }

/-- The host-visible part of an abort (60_exceptions.md R262): the failing half's length is 0 and its buffer
any value, ERR holds the code, the command is over. -/
def recordError (half : FailingHalf) (e : ErrorKind) (s : State) : State :=
  { s with
    codeLen := if half = .toCode then 0 else s.codeLen
    codeBuf := if half = .toCode then ⟨s.draws, []⟩ else s.codeBuf
    outLen := if half = .toOut then 0 else s.outLen
    outBuf := if half = .toOut then ⟨s.draws, []⟩ else s.outBuf
    chain := false
    err := errorCode e
    busy := false
    phase := Phase.idle
    draws := s.draws + 1 }

/-- Abort, the block's "trap entry" (60_exceptions.md R262), in one step from the state the raising
micro-operation found: "the raising micro-operation makes no write". -/
def abort (half : FailingHalf) (e : ErrorKind) (s : State) : State :=
  discardInternal (spoilResults (recordError half e s))

/-- `raise E` (00_scope.md R15): the step's outcome is the aborted command, an ordinary next state
(60_exceptions.md R274 (a)). -/
def raise (half : FailingHalf) (e : ErrorKind) (s : State) : Host.Outcome State Fault Refusal :=
  .next (abort half e s)

/-! ### RESET -/

/-- The event RESET (70_reset_and_hazards.md R290, R291): the values of R290's table, every unspecified one a
free value, HAZARD unchanged. The sizes and the host agent are not the block's to reset. -/
def resetEvent (s : State) : State :=
  discardInternal
    { s with
      busy := false
      drop := false
      err := 0
      maxBits := 12
      var := .dynamic
      inLen := 0
      outLen := 0
      codeLen := 0
      width := 0
      inBuf := ⟨s.draws, []⟩
      outBuf := ⟨s.draws, []⟩
      codeBuf := ⟨s.draws, []⟩
      phase := Phase.idle
      chain := Config.freeBit .chain s.draws
      spoiled := false
      unpolled := false
      draws := s.draws + 1 }

/-! ### Appending to the destination buffers -/

/-- CODE with one entry appended at CODE_POS, and CODE_POS moved on. -/
def pushCode (k : CodeEntry) (s : State) : State :=
  { s with codeBuf := bufSet s.codeBuf s.codePos.toNat k, codePos := s.codePos + 1 }

/-- OUT with the bytes `bs` appended at OUT_POS, and OUT_POS moved on. -/
def pushOut (bs : List Byte) (s : State) : State :=
  { s with outBuf := bufSetRun s.outBuf s.outPos.toNat bs, outPos := BitVec.ofNat 32 (s.outPos.toNat + bs.length) }

/-- EMIT(k) (42_encoder.md R143): none where it raises BufferOverflow. -/
def emit (k : Nat) (s : State) : Option State :=
  if s.codeSize.toNat ≤ s.codePos.toNat then none else some (pushCode (BitVec.ofNat 16 k) s)

/-- OUTPUT(s) (43_decoder.md R166), checked before any byte is written: none where it raises BufferOverflow. -/
def output (bs : List Byte) (s : State) : Option State :=
  if s.outSize.toNat < s.outPos.toNat + bs.length then none else some (pushOut bs s)

end Sys2Proof.Machine
end

