-- ==== Sys2Proof/Machine/Commands.lean ====
section
/-! DEFINITION. DISPATCH and the eight host commands (46_host_commands.md R231–R239). A command's own step is
its arm of DISPATCH; what it starts there, the engine carries out one micro-operation a step (log entry
13). -/

namespace Sys2Proof.Machine

/-- NOP: "DISPATCH calls COMPLETE() and nothing else changes" (46_host_commands.md R232). -/
def execNop (s : State) : Host.Outcome State Fault Refusal := .next (complete s)

/-- CONFIGURE_EXEC (46_host_commands.md R233). -/
def execConfigure (varb : Variant) (maxb : Nat) (s : State) : Host.Outcome State Fault Refusal :=
  if maxb < Config.leastMaxBits ∨ Config.greatestMaxBits < maxb then raise .dispatch .configurationError s
  else .next (complete { s with maxBits := BitVec.ofNat 8 maxb, var := varb })

/-- ENCODE: `PHASE <- ENC_INIT` (46_host_commands.md R231, R234). -/
def execEncode (s : State) : Host.Outcome State Fault Refusal := .next { s with phase := Phase.encInit }

/-- SERIALIZE: `PHASE <- SER_INIT` (46_host_commands.md R231, R235). -/
def execSerialize (s : State) : Host.Outcome State Fault Refusal := .next { s with phase := Phase.serInit }

/-- DESERIALIZE: `PHASE <- DES_INIT` (46_host_commands.md R231, R236). -/
def execDeserialize (s : State) : Host.Outcome State Fault Refusal := .next { s with phase := Phase.desInit }

/-- DECODE: `PHASE <- DEC_INIT` (46_host_commands.md R231, R237). -/
def execDecode (s : State) : Host.Outcome State Fault Refusal := .next { s with phase := Phase.decInit }

/-- COMPRESS: `CHAIN <- 1; PHASE <- ENC_INIT` (46_host_commands.md R231, R238). -/
def execCompress (s : State) : Host.Outcome State Fault Refusal :=
  .next { s with chain := true, phase := Phase.encInit }

/-- DECOMPRESS: `CHAIN <- 1; PHASE <- DES_INIT` (46_host_commands.md R231, R239). -/
def execDecompress (s : State) : Host.Outcome State Fault Refusal :=
  .next { s with chain := true, phase := Phase.desInit }

/-- DISPATCH decodes the latched word and runs the command's arm (46_host_commands.md R231). `decodeCommand`
answers a command only (the micro-operations' arm is never taken). -/
def execDispatch (s : State) : Host.Outcome State Fault Refusal :=
  match decodeCommand s.opc with
  | .error _ => raise .dispatch .illegalCommand s
  | .ok .nop => execNop s
  | .ok (.configure varb maxb) => execConfigure varb maxb s
  | .ok .encode => execEncode s
  | .ok .serialize => execSerialize s
  | .ok .deserialize => execDeserialize s
  | .ok .decode => execDecode s
  | .ok .compress => execCompress s
  | .ok .decompress => execDecompress s
  | .ok .dispatch | .ok .encInit | .ok .encSymbol | .ok .encEnd | .ok .serInit | .ok .serCode | .ok .serEnd
  | .ok .desInit | .ok .desCode | .ok .desEnd | .ok .decInit | .ok .decFirst | .ok .decNext | .ok .decEnd =>
    raise .dispatch .illegalCommand s

end Sys2Proof.Machine
end

