-- ==== Sys2Proof/Machine/Dictionary.lean ====
section
/-! DEFINITION. The primitives of the two dictionaries (41_dictionary.md R120–R130). -/

namespace Sys2Proof.Machine

/-! ### Encode side -/

/-- ED's contents after ED_INIT: `[c] -> c` for every Symbol c, "and nothing else" (41_dictionary.md R121). -/
def initialEd : EncodeDict := (List.range 256).map fun c => ([BitVec.ofNat 8 c], c)

/-- The Code a map binds a Sequence to. -/
def edGet : EncodeDict → Sequence → Option Nat
  | [], _ => none
  | (q, k) :: rest, s => if q = s then some k else edGet rest s

/-- ED_LOOKUP(s) (41_dictionary.md R122): the empty Sequence is never bound (R120). -/
def edLookup (ed : EncodeDict) (s : Sequence) : Option Nat :=
  if s = [] then none else edGet ed s

/-- ED_INIT (41_dictionary.md R121). -/
def edInit (s : State) : State := { s with ed := initialEd, nextCode := 256 }

/-- ED_INSERT(q) (41_dictionary.md R123): an existing binding is kept, and NEXT_CODE is incremented. -/
def edInsert (q : Sequence) (s : State) : State :=
  { s with
    ed := if (edLookup s.ed q).isSome then s.ed else s.ed ++ [(q, s.nextCode.toNat)]
    nextCode := s.nextCode + 1 }

/-- A node of the trie (41_dictionary.md R124): ROOT, or a node whose arena index is the Code it carries. -/
inductive Node where
  | root
  | code (k : Nat)
  deriving DecidableEq, Repr

/-- `seq(k)`, the Sequence bound to a Code (41_dictionary.md R124). -/
def edSequence : EncodeDict → Nat → Option Sequence
  | [], _ => none
  | (q, k) :: rest, c => if k = c then some q else edSequence rest c

/-- ED_CHILD(node, c) (41_dictionary.md R124, R125). -/
def edChild (ed : EncodeDict) : Node → Byte → Option Nat
  | .root, c => edLookup ed [c]
  | .code k, c =>
    match edSequence ed k with
    | none => none
    | some q => edLookup ed (q ++ [c])

/-- The walk of ED_LOOKUP's pseudocode from a node (41_dictionary.md R122): it ends at the first missing
edge. -/
def edWalk (ed : EncodeDict) : Node → Sequence → Option Node
  | node, [] => some node
  | node, c :: rest =>
    match edChild ed node c with
    | none => none
    | some k => edWalk ed (.code k) rest

/-- ED_LOOKUP's pseudocode over the trie (41_dictionary.md R122): the code of the node the walk from ROOT ends
at, ROOT carrying none. -/
def trieLookup (ed : EncodeDict) (s : Sequence) : Option Nat :=
  match edWalk ed .root s with
  | some (.code k) => some k
  | some .root => none
  | none => none

/-! ### Decode side -/

/-- DD's contents after DD_INIT: `c -> [c]` for every c in 0..255, "and nothing else" (41_dictionary.md R128). -/
def initialDd : DecodeDict := (List.range 256).map fun c => (c, [BitVec.ofNat 8 c])

/-- The Sequence a map binds a Code to, `DD[k]`. -/
def ddFind : DecodeDict → Nat → Option Sequence
  | [], _ => none
  | (c, q) :: rest, k => if c = k then some q else ddFind rest k

/-- DD_INIT (41_dictionary.md R128). -/
def ddInit (s : State) : State := { s with dd := initialDd, nextCode := 256 }

/-- DD_GET(k): `if k < NEXT_CODE then return DD[k] else return absent` (41_dictionary.md R129). -/
def ddGet (s : State) (k : Nat) : Option Sequence :=
  if k < s.nextCode.toNat then ddFind s.dd k else none

/-- `DD[k] <- q`: a binding of `k` is replaced, else the binding is appended. -/
def ddSet : DecodeDict → Nat → Sequence → DecodeDict
  | [], k, q => [(k, q)]
  | (c, p) :: rest, k, q => if c = k then (c, q) :: rest else (c, p) :: ddSet rest k q

/-- DD_BIND(q): `DD[NEXT_CODE] <- q; NEXT_CODE <- NEXT_CODE + 1` (41_dictionary.md R130). -/
def ddBind (q : Sequence) (s : State) : State :=
  { s with dd := ddSet s.dd s.nextCode.toNat q, nextCode := s.nextCode + 1 }

end Sys2Proof.Machine
end

