-- ==== Sys2Proof/Machine/CodeWidth.lean ====
section
/-! DEFINITION. The primitives of the code_width_controller (44_code_width.md R180–R183). -/

namespace Sys2Proof.Machine

/-- `max_code = 2^current_bits - 1` (44_code_width.md R180). -/
def maxCodeOf (bits : Nat) : BitVec 17 := BitVec.ofNat 17 (2 ^ bits - 1)

/-- CUR_BITS at the start of a call (44_code_width.md R181). -/
def initialBits (s : State) : BitVec 5 :=
  match s.var with
  | .static => s.maxBits.setWidth 5
  | .dynamic => BitVec.ofNat 5 Config.dynStartBits

/-- CW_INIT (44_code_width.md R181). -/
def cwInit (s : State) : State :=
  { s with curBits := initialBits s, maxCode := maxCodeOf (initialBits s).toNat }

/-- CW_HAS_CAPACITY(): `NEXT_CODE <= MAX_CODE` (44_code_width.md R182, 90_conflicts.md C1). -/
def hasCapacity (s : State) : Bool := decide (s.nextCode.toNat ≤ s.maxCode.toNat)

/-- CW_GROW's condition (44_code_width.md R183). -/
def growthDue (s : State) : Bool :=
  s.var == .dynamic && (decide (s.maxCode.toNat < s.nextCode.toNat) && decide (s.curBits.toNat < s.maxBits.toNat))

/-- CW_GROW, after the increment of NEXT_CODE (44_code_width.md R183, 90_conflicts.md C2). -/
def cwGrow (s : State) : State :=
  { s with
    curBits := if growthDue s then s.curBits + 1 else s.curBits
    maxCode := if growthDue s then maxCodeOf (s.curBits + 1).toNat else s.maxCode }

end Sys2Proof.Machine
end

