-- ==== Sys2Proof/Machine/Decoder.lean ====
section
/-! DEFINITION. The Decoder's micro-operations (43_decoder.md R161–R167). -/

namespace Sys2Proof.Machine

/-- DEC_INIT past its check (43_decoder.md R161). -/
def decStart (s : State) : State :=
  { cwInit (ddInit s) with prevValid := false, codePos := 0, outPos := 0, phase := Phase.decLoop }

/-- DEC_INIT (43_decoder.md R161). -/
def execDecInit (s : State) : Host.Outcome State Fault Refusal :=
  if s.codeSize.toNat < s.codeLen.toNat then raise .toOut .bufferOverflow s
  else .next (decStart s)

/-- The registers DEC_FIRST and DEC_NEXT leave behind: PREV, PREV_VALID and the next CODE_POS (43_decoder.md
R162, R163). -/
def decAdvance (entry : Sequence) (s : State) : State :=
  { s with prev := entry, prevValid := true, codePos := s.codePos + 1 }

/-- DEC_FIRST's entry, `DD_GET(k)`, "= [k]" (43_decoder.md R162): also where DD does not bind `k` (log entry
12). -/
def firstEntry (k : Nat) (s : State) : Sequence := (ddGet s k).getD [BitVec.ofNat 8 k]

/-- DEC_FIRST for the code `k` (43_decoder.md R162). InvalidCode is tested before BufferOverflow
(60_exceptions.md R264). -/
def decFirstWith (k : Nat) (s : State) : Host.Outcome State Fault Refusal :=
  if 255 < k then raise .toOut .invalidCode s
  else
    match output (firstEntry k s) s with
    | none => raise .toOut .bufferOverflow s
    | some written => .next (decAdvance (firstEntry k s) written)

/-- DEC_FIRST (43_decoder.md R162): its operand is `CODE[CODE_POS]`. -/
def execDecFirst (s : State) : Host.Outcome State Fault Refusal :=
  decFirstWith (elementCode s s.codePos.toNat).toNat s

/-- The binding of DEC_NEXT, `PREV ++ [entry[0]]`, and the growth check, if capacity remains (43_decoder.md
R163). -/
def decBind (first : Byte) (s : State) : State :=
  if hasCapacity s then cwGrow (ddBind (s.prev ++ [first]) s) else s

/-- DEC_NEXT once its entry is known: OUTPUT, the binding, and the registers left behind (43_decoder.md
R163). -/
def decEntry (entry : Sequence) (s : State) : Host.Outcome State Fault Refusal :=
  match output entry s with
  | none => raise .toOut .bufferOverflow s
  | some written => .next (decAdvance entry (decBind (firstSymbol entry) written))

/-- DEC_NEXT for the code `k`: bound, KwKwK (43_decoder.md R164, also on a full table, R165), or invalid
(43_decoder.md R163). -/
def decNextWith (k : Nat) (s : State) : Host.Outcome State Fault Refusal :=
  match ddGet s k with
  | some entry => decEntry entry s
  | none =>
    if k = s.nextCode.toNat then decEntry (s.prev ++ [firstSymbol s.prev]) s
    else raise .toOut .invalidCode s

/-- DEC_NEXT (43_decoder.md R163): its operand is `CODE[CODE_POS]`. -/
def execDecNext (s : State) : Host.Outcome State Fault Refusal :=
  decNextWith (elementCode s s.codePos.toNat).toNat s

/-- DEC_END (43_decoder.md R167). -/
def execDecEnd (s : State) : Host.Outcome State Fault Refusal :=
  .next (complete { s with outLen := s.outPos })

end Sys2Proof.Machine
end

