-- ==== Sys2Proof/Machine/Encoder.lean ====
section
/-! DEFINITION. The Encoder's micro-operations (42_encoder.md R141–R144). -/

namespace Sys2Proof.Machine

/-- ENC_INIT past its check (42_encoder.md R141). -/
def encStart (s : State) : State :=
  { cwInit (edInit s) with cur := [], inPos := 0, codePos := 0, phase := Phase.encLoop }

/-- ENC_INIT (42_encoder.md R141). -/
def execEncInit (s : State) : Host.Outcome State Fault Refusal :=
  if s.inSize.toNat < s.inLen.toNat then raise .toCode .bufferOverflow s
  else .next (encStart s)

/-- Step 2 of ENC_SYMBOL: the candidate is found, "no emission" (42_encoder.md R142). -/
def encExtend (cand : Sequence) (s : State) : State :=
  { s with cur := cand, inPos := s.inPos + 1 }

/-- Step 3 of ENC_SYMBOL after the emission: the binding and the growth check if capacity remains, then
`CUR <- [c]` (42_encoder.md R142). -/
def encRestart (cand : Sequence) (c : Byte) (s : State) : State :=
  let bound := if hasCapacity s then cwGrow (edInsert cand s) else s
  { bound with cur := [c], inPos := s.inPos + 1 }

/-- ENC_SYMBOL for the Symbol `c` (42_encoder.md R142). InvariantViolation is tested before BufferOverflow
(60_exceptions.md R264). -/
def encSymbolWith (c : Byte) (s : State) : Host.Outcome State Fault Refusal :=
  if (edLookup s.ed (s.cur ++ [c])).isSome then .next (encExtend (s.cur ++ [c]) s)
  else
    match edLookup s.ed s.cur with
    | none => raise .toCode .invariantViolation s
    | some k =>
      match emit k s with
      | none => raise .toCode .bufferOverflow s
      | some emitted => .next (encRestart (s.cur ++ [c]) c emitted)

/-- ENC_SYMBOL (42_encoder.md R142): its operand is `IN[IN_POS]`. -/
def execEncSymbol (s : State) : Host.Outcome State Fault Refusal :=
  encSymbolWith (elementIn s s.inPos.toNat) s

/-- ENC_END after its emission: the results, then the second half of COMPRESS or COMPLETE (42_encoder.md
R144). -/
def encFinish (s : State) : State :=
  if s.chain then
    { s with codeLen := s.codePos, width := s.curBits.setWidth 8, chain := false, phase := Phase.serInit }
  else complete { s with codeLen := s.codePos, width := s.curBits.setWidth 8 }

/-- ENC_END (42_encoder.md R144). -/
def execEncEnd (s : State) : Host.Outcome State Fault Refusal :=
  if s.cur = [] then .next (encFinish s)
  else
    match edLookup s.ed s.cur with
    | none => raise .toCode .invariantViolation s
    | some k =>
      match emit k s with
      | none => raise .toCode .bufferOverflow s
      | some emitted => .next (encFinish emitted)

end Sys2Proof.Machine
end

