-- ==== Sys2Proof/Machine/StreamCodec.lean ====
section
/-! DEFINITION. The stream codec's micro-operations (45_stream_codec.md R201–R206). -/

namespace Sys2Proof.Machine

/-- Whether a width lies in 9..MAX_BITS, as SER_INIT asks of WIDTH (45_stream_codec.md R201) and DES_INIT of a
frame's header (R204). -/
def widthLegal (w : Byte) (s : State) : Bool :=
  decide (Config.leastMaxBits ≤ w.toNat) && decide (w.toNat ≤ s.maxBits.toNat)

/-- SER_INIT past its checks, for STATIC: no header (45_stream_codec.md R201). -/
def serStartStatic (s : State) : State :=
  { s with codePos := 0, outPos := 0, serB := 2, phase := Phase.serLoop }

/-- SER_INIT past its checks, for DYNAMIC: "one leading byte records current_bits" (45_stream_codec.md R201). -/
def serStartDynamic (s : State) : State :=
  { s with
    codePos := 0
    outPos := 1
    serB := BitVec.ofNat 2 (bytesPerCode s.width.toNat)
    outBuf := bufSet s.outBuf 0 s.width
    phase := Phase.serLoop }

/-- SER_INIT (45_stream_codec.md R201), its checks in the order of 60_exceptions.md R264. -/
def execSerInit (s : State) : Host.Outcome State Fault Refusal :=
  if s.codeSize.toNat < s.codeLen.toNat then raise .toOut .bufferOverflow s
  else
    match s.var with
    | .static => .next (serStartStatic s)
    | .dynamic =>
      if widthLegal s.width s then
        if s.outSize.toNat < 1 then raise .toOut .bufferOverflow s
        else .next (serStartDynamic s)
      else raise .toOut .configurationError s

/-- SER_CODE once its bytes are in OUT: the next CODE_POS (45_stream_codec.md R202). -/
def serAdvance (s : State) : State := { s with codePos := s.codePos + 1 }

/-- SER_CODE for the code `k`: its SER_B bytes, most significant first (45_stream_codec.md R202). -/
def serCodeWith (k : Nat) (s : State) : Host.Outcome State Fault Refusal :=
  match output (bigEndian s.serB.toNat k) s with
  | none => raise .toOut .bufferOverflow s
  | some written => .next (serAdvance written)

/-- SER_CODE (45_stream_codec.md R202): its operand is `CODE[CODE_POS]`. -/
def execSerCode (s : State) : Host.Outcome State Fault Refusal :=
  serCodeWith (elementCode s s.codePos.toNat).toNat s

/-- SER_END (45_stream_codec.md R203). -/
def execSerEnd (s : State) : Host.Outcome State Fault Refusal :=
  .next (complete { s with outLen := s.outPos })

/-- DES_INIT past its checks, for STATIC (45_stream_codec.md R204). -/
def desStartStatic (s : State) : State :=
  { s with
    codePos := 0
    serB := 2
    desH := s.maxBits
    inPos := 0
    desN := BitVec.ofNat 32 (s.inLen.toNat / 2)
    phase := Phase.desLoop }

/-- DES_INIT past its checks, for DYNAMIC with the header byte `h` (45_stream_codec.md R204). -/
def desStartDynamic (h : Byte) (s : State) : State :=
  { s with
    codePos := 0
    serB := BitVec.ofNat 2 (bytesPerCode h.toNat)
    desH := h
    inPos := 1
    desN := BitVec.ofNat 32 ((s.inLen.toNat - 1) / bytesPerCode h.toNat)
    phase := Phase.desLoop }

/-- DES_INIT for STATIC, past the check of IN_LEN (45_stream_codec.md R204). -/
def desInitStatic (s : State) : Host.Outcome State Fault Refusal :=
  if s.inLen.toNat % 2 = 0 then .next (desStartStatic s)
  else raise .toCode .invalidCode s

/-- DES_INIT for DYNAMIC, past the check of IN_LEN, its checks in the order written (45_stream_codec.md
R204). -/
def desInitDynamic (s : State) : Host.Outcome State Fault Refusal :=
  if s.inLen = 0 then raise .toCode .invalidCode s
  else
    if widthLegal (elementIn s 0) s then
      if (s.inLen.toNat - 1) % bytesPerCode (elementIn s 0).toNat = 0 then .next (desStartDynamic (elementIn s 0) s)
      else raise .toCode .invalidCode s
    else raise .toCode .invalidCode s

/-- DES_INIT (45_stream_codec.md R204). -/
def execDesInit (s : State) : Host.Outcome State Fault Refusal :=
  if s.inSize.toNat < s.inLen.toNat then raise .toCode .bufferOverflow s
  else
    match s.var with
    | .static => desInitStatic s
    | .dynamic => desInitDynamic s

/-- DES_CODE for the frame bytes `bs` of one code (45_stream_codec.md R205, 30_encoding.md R98). -/
def desStore (bs : List Byte) (s : State) : State :=
  { pushCode (BitVec.ofNat 16 (ofBigEndian bs)) s with inPos := BitVec.ofNat 32 (s.inPos.toNat + s.serB.toNat) }

/-- DES_CODE (45_stream_codec.md R205): its operands are the bytes `IN[IN_POS..IN_POS+SER_B-1]`. -/
def execDesCode (s : State) : Host.Outcome State Fault Refusal :=
  if s.codeSize.toNat ≤ s.codePos.toNat then raise .toCode .bufferOverflow s
  else .next (desStore (elementsIn s s.inPos.toNat s.serB.toNat) s)

/-- DES_END: the results, then the second half of DECOMPRESS or COMPLETE (45_stream_codec.md R206). -/
def desFinish (s : State) : State :=
  if s.chain then
    { s with codeLen := s.codePos, width := s.desH, chain := false, phase := Phase.decInit }
  else complete { s with codeLen := s.codePos, width := s.desH }

/-- DES_END (45_stream_codec.md R206). -/
def execDesEnd (s : State) : Host.Outcome State Fault Refusal := .next (desFinish s)

end Sys2Proof.Machine
end

