-- ==== Sys2Proof/Machine/Dispatch.lean ====
section
/-! DEFINITION. The meaning of every instruction, one arm per constructor. -/

namespace Sys2Proof.Machine

def exec (i : Instr) (s : State) : Host.Outcome State Fault Refusal :=
  match i with
  | .nop => Sys2Proof.Machine.execNop s
  | .configure varb maxb => Sys2Proof.Machine.execConfigure varb maxb s
  | .encode => Sys2Proof.Machine.execEncode s
  | .serialize => Sys2Proof.Machine.execSerialize s
  | .deserialize => Sys2Proof.Machine.execDeserialize s
  | .decode => Sys2Proof.Machine.execDecode s
  | .compress => Sys2Proof.Machine.execCompress s
  | .decompress => Sys2Proof.Machine.execDecompress s
  | .dispatch => Sys2Proof.Machine.execDispatch s
  | .encInit => Sys2Proof.Machine.execEncInit s
  | .encSymbol => Sys2Proof.Machine.execEncSymbol s
  | .encEnd => Sys2Proof.Machine.execEncEnd s
  | .serInit => Sys2Proof.Machine.execSerInit s
  | .serCode => Sys2Proof.Machine.execSerCode s
  | .serEnd => Sys2Proof.Machine.execSerEnd s
  | .desInit => Sys2Proof.Machine.execDesInit s
  | .desCode => Sys2Proof.Machine.execDesCode s
  | .desEnd => Sys2Proof.Machine.execDesEnd s
  | .decInit => Sys2Proof.Machine.execDecInit s
  | .decFirst => Sys2Proof.Machine.execDecFirst s
  | .decNext => Sys2Proof.Machine.execDecNext s
  | .decEnd => Sys2Proof.Machine.execDecEnd s

end Sys2Proof.Machine
end

