-- ==== Sys2Proof/Machine/HostAccess.lean ====
section
/-! DEFINITION. The host's steps: register and buffer accesses (20_memory.md R64–R68), RESET, and the host
programs of 30_encoding.md R102, R103 as lists of host steps. -/

namespace Sys2Proof.Machine

/-- "A 32-bit read or write at an offset that is a multiple of 4 in 0x00–0x3C" (20_memory.md R64). -/
def registerShape (bits off : Nat) : Bool :=
  decide (bits = 32) && (decide (off % 4 = 0) && decide (off < 0x40))

/-- The registers a read of which returns a draw while BUSY = 1 (20_memory.md R65). -/
def drawnWhileBusy (off : Nat) : Bool :=
  decide (off = Offset.outLen) || (decide (off = Offset.codeLen) || decide (off = Offset.width))

/-- A read that returns a draw: any value, "no side effect" on the block (20_memory.md R65, R67). -/
def readDraw (v : Word) (s : State) : State := { s with rdata := v, draws := s.draws + 1 }

/-- HostReadReg(off) (20_memory.md R65). A STATUS read that returns BUSY = 0 is the host's poll
(70_reset_and_hazards.md R293). -/
def hostReadReg (off : Nat) (s : State) : State :=
  if s.busy && drawnWhileBusy off then readDraw (Config.freeBits 32 .registerRead s.draws) s
  else
    { s with
      rdata := registerValue off s
      unpolled := s.unpolled && (s.busy || !decide (off = Offset.status)) }

/-- The mark of a write that 70_reset_and_hazards.md R293 forbids: HAZARD if a command runs (20_memory.md R66,
R68) or its end has not been polled (R293), and the running command's results spoiled (log entry 10). -/
def markHazard (s : State) : State :=
  { s with hazard := s.hazard || (s.busy || s.unpolled), spoiled := s.spoiled || s.busy }

/-- HostWriteReg(off, v) (20_memory.md R66). -/
def hostWriteReg (off : Nat) (v : Word) (s : State) : State :=
  if off = Offset.cmd then if s.busy then dropCommand s else accept v s
  else if off = Offset.status then { s with drop := dropAfterStatusWrite v s.drop }
  else if off = Offset.inLen then { markHazard s with inLen := v }
  else if off = Offset.codeLen then { markHazard s with codeLen := v }
  else if off = Offset.width then { markHazard s with width := v.setWidth 8 }
  else s

/-- The size of a buffer (20_memory.md R60–R62). -/
def bufferSize (b : BufferName) (s : State) : Nat :=
  match b with
  | .IN => s.inSize.toNat
  | .OUT => s.outSize.toNat
  | .CODE => s.codeSize.toNat

/-- HostReadBuf(B, i) inside the buffer (20_memory.md R67): IN is exact, OUT and CODE are draws while
BUSY = 1. -/
def hostReadBuf (b : BufferName) (i : Nat) (s : State) : State :=
  match b with
  | .IN => { s with rdata := (elementIn s i).setWidth 32 }
  | .OUT =>
    if s.busy then readDraw ((Config.freeBits 8 .outRead s.draws).setWidth 32) s
    else { s with rdata := (elementOut s i).setWidth 32 }
  | .CODE =>
    if s.busy then readDraw ((Config.freeBits 16 .codeRead s.draws).setWidth 32) s
    else { s with rdata := (elementCode s i).setWidth 32 }

/-- HostWriteBuf(B, i, v) inside the buffer (20_memory.md R68): OUT ignores it. -/
def hostWriteBuf (b : BufferName) (i : Nat) (v : Word) (s : State) : State :=
  match b with
  | .IN => { markHazard s with inBuf := bufSet s.inBuf i (v.setWidth 8) }
  | .CODE => { markHazard s with codeBuf := bufSet s.codeBuf i (v.setWidth 16) }
  | .OUT => s

/-- One host step. -/
def hostAccess (op : HostOp) (s : State) : Host.Outcome State Fault Refusal :=
  match op with
  | .readReg bits off => if registerShape bits off then .next (hostReadReg off s) else .refused .registerAccessShape
  | .writeReg bits off v =>
    if registerShape bits off then .next (hostWriteReg off v s) else .refused .registerAccessShape
  | .readBuf b i => if i < bufferSize b s then .next (hostReadBuf b i s) else .refused .bufferIndexBeyondSize
  | .writeBuf b i v => if i < bufferSize b s then .next (hostWriteBuf b i v s) else .refused .bufferIndexBeyondSize
  | .poll => .next (hostReadReg Offset.status s)
  | .reset => .next (resetEvent s)

/-- The host's program after a step: a POLL that read BUSY = 1 goes on (30_encoding.md R103). -/
def programAfter (op : HostOp) (rest : List HostOp) (s : State) : List HostOp :=
  if op = .poll ∧ s.busy = true then op :: rest else rest

/-- The host's turn: the next step of its program; none is left, nothing happens. -/
def hostTurn (s : State) : Host.Outcome State Fault Refusal :=
  match s.program with
  | [] => .next s
  | op :: rest => hostAccess op { s with program := programAfter op rest s }

/-! ### Host programs (30_encoding.md R102, R103) -/

/-- `RD <reg>` and `WR <reg>, <value>`: whole 32-bit accesses. -/
def opRD (off : Nat) : HostOp := .readReg 32 off
def opWR (off : Nat) (v : Word) : HostOp := .writeReg 32 off v

/-- The pseudo-instruction of a command: `WR CMD, <its word>`; a micro-operation has none. -/
def opCommand (i : Instr) : Option HostOp :=
  match encode i with
  | .command w => some (opWR Offset.cmd w)
  | .selection _ => none

/-- The `WRB B[i], v` for each value in order, from index `i` on. -/
def opsFill (b : BufferName) : Nat → List Word → List HostOp
  | _, [] => []
  | i, v :: vs => .writeBuf b i v :: opsFill b (i + 1) vs

/-- `LOADIN "<bytes>"` (30_encoding.md R103). -/
def opsLoadIn (bs : List Byte) : List HostOp :=
  opsFill .IN 0 (bs.map fun b => b.setWidth 32) ++ [opWR Offset.inLen (BitVec.ofNat 32 bs.length)]

/-- `LOADCODES k_0, ..., k_{n-1}` (30_encoding.md R103). -/
def opsLoadCodes (ks : List CodeEntry) : List HostOp :=
  opsFill .CODE 0 (ks.map fun k => k.setWidth 32) ++ [opWR Offset.codeLen (BitVec.ofNat 32 ks.length)]

end Sys2Proof.Machine
end

