-- ==== Sys2Proof/Machine/Fetch.lean ====
section
/-! DEFINITION. Who moves next (70_reset_and_hazards.md R298), and which micro-operation the engine runs
(30_encoding.md R101). -/

namespace Sys2Proof.Machine

/-- The agent that takes the next step: the schedule's next one; when it is empty, the engine while BUSY = 1
(weak fairness, 70_reset_and_hazards.md R298), else the host. -/
def mover (s : State) : Agent :=
  match s.schedule with
  | a :: _ => a
  | [] => if s.busy then .engine else .host

/-- The schedule moves on with every step. -/
def tick (s : State) : State := { s with schedule := s.schedule.tail }

/-- The selection byte of a loop's PHASE: below its length with the bits `more`, else with bit 4. Once a forbidden
write has left the length below the position, the loop ends: "BUSY = 1 always has an enabled
micro-operation" (60_exceptions.md R274 (e), log entry 11). -/
def loopSelection (phase : BitVec 4) (pos len : Word) (more : Byte) : Byte :=
  if pos.toNat < len.toNat then phase.setWidth 8 ||| more else phase.setWidth 8 ||| 0x10

/-- PREV_VALID as bit 5 of a selection byte. -/
def prevValidBit (s : State) : Byte := if s.prevValid then 0x20 else 0

/-- The selection byte of the state: PHASE and the condition 30_encoding.md R101 states for it. -/
def selectionByte (s : State) : Byte :=
  if s.phase = Phase.encLoop then loopSelection s.phase s.inPos s.inLen 0
  else if s.phase = Phase.serLoop then loopSelection s.phase s.codePos s.codeLen 0
  else if s.phase = Phase.desLoop then loopSelection s.phase s.codePos s.desN 0
  else if s.phase = Phase.decLoop then loopSelection s.phase s.codePos s.codeLen (prevValidBit s)
  else s.phase.setWidth 8

/-- The micro-operation the table of 30_encoding.md R101 selects; none while BUSY = 0 or PHASE = IDLE, where
"the engine has no step". -/
def fetch (s : State) : Except Fault (Option Instr) :=
  if s.busy then
    match decodeSelection (selectionByte s) with
    | .ok i => .ok (some i)
    | .error .idlePhase => .ok none
    | .error .unreachablePhase => .error .unreachablePhase
    | .error .illegalCommand => .error .unreachablePhase
    | .error .reservedSelection => .error .unreachablePhase
  else .ok none

/-- A length that a loop's position 0 lies below. -/
def nonZero (len : Word) : Word := if len = 0 then 1 else len

/-- The state in which the very next step is DISPATCH's with the command word `w`: `w` accepted
(46_host_commands.md R230), and the engine next. -/
def loadCommand (w : Word) (s : State) : State := { accept w s with schedule := [] }

/-- The state in which the very next step is the micro-operation of the selection byte `b`: PHASE, BUSY, and the
position, length and PREV_VALID that R101's condition asks for. -/
def loadSelection (b : Byte) (s : State) : State :=
  let atEnd := b.getLsbD 4
  let p := b.setWidth 4
  { s with
    busy := true
    phase := p
    schedule := []
    inPos := if p = Phase.encLoop then (if atEnd then s.inLen else 0) else s.inPos
    inLen := if p = Phase.encLoop ∧ atEnd = false then nonZero s.inLen else s.inLen
    codePos :=
      if p = Phase.serLoop ∨ p = Phase.decLoop then (if atEnd then s.codeLen else 0)
      else if p = Phase.desLoop then (if atEnd then s.desN else 0)
      else s.codePos
    codeLen := if (p = Phase.serLoop ∨ p = Phase.decLoop) ∧ atEnd = false then nonZero s.codeLen else s.codeLen
    desN := if p = Phase.desLoop ∧ atEnd = false then nonZero s.desN else s.desN
    prevValid := if p = Phase.decLoop ∧ atEnd = false then b.getLsbD 5 else s.prevValid }

end Sys2Proof.Machine
end

