-- ==== Sys2Proof/Machine/Step.lean ====
section
/-! DEFINITION. One step of the block and its host: a host step or an engine micro-operation
(70_reset_and_hazards.md R298). -/

namespace Sys2Proof.Machine

/-- One step. Where the engine has no micro-operation (IDLE, 60_exceptions.md R273), its turn changes nothing
but the schedule. -/
def step (s : State) : Host.Outcome State Fault Refusal :=
  match mover s with
  | .host => hostTurn (tick s)
  | .engine =>
    match fetch (tick s) with
    | .error f => .fault f
    | .ok none => .next (tick s)
    | .ok (some i) => exec i (tick s)

/-- `s` with the instruction of a word of the opcode table as its next step (log entry 13). -/
def State.withFetchWord (s : State) (nbits w : Nat) : State :=
  match tableEncoding nbits w with
  | none => s
  | some (.command c) => loadCommand c s
  | some (.selection b) => loadSelection b s

end Sys2Proof.Machine
end

