-- ==== Sys2Proof/Safety.lean ====
section
/-! DEFINITION. What counts as a safe run, in the terms the claims use: runs of the machine, HAZARD = 0
(60_exceptions.md R274 (b)), and the invariants of the block. -/

namespace Sys2Proof.Machine

/-- `n` steps, stopping at the first fault or refusal. -/
def run : Nat → State → Host.Outcome State Fault Refusal
  | 0, s => .next s
  | n + 1, s =>
    match step s with
    | .next t => run n t
    | .fault f => .fault f
    | .refused r => .refused r

/-- The block waits for the host, and nothing is scheduled: "In IDLE the engine takes no step"
(60_exceptions.md R273). With it, `run n (accept w s)` is the command `w` carried out alone. -/
abbrev Waiting (s : State) : Prop :=
  s.busy = false ∧ s.phase = Phase.idle ∧ s.schedule = [] ∧ s.program = []

/-- A command ran to its end without error: BUSY = 0 and ERR = 0 (46_host_commands.md R240). -/
def EndsWell (n : Nat) (s t : State) : Prop :=
  run n s = .next t ∧ t.busy = false ∧ t.err = 0

/-- A command word that matches no row of 30_encoding.md R91, in the words of R93: OPC in 0x08–0xFF, or RSV ≠ 0,
or OPC ≠ 0x01 and w[16:8] ≠ 0. -/
abbrev IllegalWord (w : Word) : Prop :=
  7 < w.toNat % 256 ∨ w.toNat / 2 ^ 17 ≠ 0 ∨ (w.toNat % 256 ≠ 1 ∧ w.toNat / 256 % 512 ≠ 0)

/-- What the host finds after an abort (60_exceptions.md R262): the failing half's length is 0 and its buffer
is left open, ERR holds the code, the command is over, and every other host-visible register and buffer is
as it was. The internal state is left open. -/
structure Aborted (half : FailingHalf) (e : ErrorKind) (s t : State) : Prop where
  err : t.err = errorCode e
  busy : t.busy = false
  phase : t.phase = Phase.idle
  chain : t.chain = false
  drop : t.drop = s.drop
  maxBits : t.maxBits = s.maxBits
  var : t.var = s.var
  inLen : t.inLen = s.inLen
  inBuf : t.inBuf = s.inBuf
  width : t.width = s.width
  codeLen : t.codeLen = if half = .toCode then 0 else s.codeLen
  codeBuf : half ≠ .toCode → t.codeBuf = s.codeBuf
  outLen : t.outLen = if half = .toOut then 0 else s.outLen
  outBuf : half ≠ .toOut → t.outBuf = s.outBuf
  hazard : t.hazard = s.hazard
  sizes : t.inSize = s.inSize ∧ t.outSize = s.outSize ∧ t.codeSize = s.codeSize
  host : t.rdata = s.rdata ∧ t.program = s.program ∧ t.schedule = s.schedule ∧ t.unpolled = s.unpolled

/-- "CFG always holds a legal MAX_BITS" (10_state.md R25). -/
abbrev CfgLegal (s : State) : Prop := 9 ≤ s.maxBits.toNat ∧ s.maxBits.toNat ≤ 16

/-- "PHASE = IDLE if and only if STATUS.BUSY = 0", and PHASE is never 10–15 (10_state.md R33). -/
abbrev PhaseLegal (s : State) : Prop :=
  s.phase.toNat ≤ 9 ∧ (s.phase = Phase.idle ↔ s.busy = false)

/-- The positions of the loops are within their lengths: the invariants under which the conditions of 30_encoding.md
R101 are exhaustive. -/
abbrev PositionsLegal (s : State) : Prop :=
  (s.phase = Phase.encLoop → s.inPos.toNat ≤ s.inLen.toNat) ∧
  (s.phase = Phase.serLoop ∨ s.phase = Phase.decLoop → s.codePos.toNat ≤ s.codeLen.toNat) ∧
  (s.phase = Phase.desLoop → s.codePos.toNat ≤ s.desN.toNat)

/-- `bitlen(x)`, the number of bits of a positive number (44_code_width.md R184). -/
def bitLength (x : Nat) : Nat := Nat.log2 x + 1

/-- The width controller while a dictionary is built (10_state.md R36, 44_code_width.md R184, R185). -/
structure WidthInv (s : State) : Prop where
  nextCode_ge : 256 ≤ s.nextCode.toNat
  nextCode_le : s.nextCode.toNat ≤ 2 ^ s.maxBits.toNat
  maxCode_eq : s.maxCode.toNat = 2 ^ s.curBits.toNat - 1
  static_eq : s.var = .static → s.curBits.toNat = s.maxBits.toNat
  dynamic_eq : s.var = .dynamic → s.curBits.toNat = max 9 (min s.maxBits.toNat (bitLength s.nextCode.toNat))

/-- ED while ENCODE runs (41_dictionary.md R120, R131). -/
structure EncodeDictInv (ed : EncodeDict) (next : Nat) : Prop where
  /-- "the codes bound in ED are exactly 0..NEXT_CODE-1" -/
  codes : ed.map Prod.snd = List.range next
  /-- "each bound to one Sequence" -/
  single : (ed.map Prod.fst).Nodup
  /-- "The empty Sequence is never bound" -/
  nonempty : ∀ p ∈ ed, p.1 ≠ []
  /-- "every Sequence of length 1 is present" -/
  symbols : ∀ c : Byte, edLookup ed [c] = some c.toNat
  /-- "ED is prefix-closed" -/
  prefixClosed : ∀ q c, q ≠ [] → (edLookup ed (q ++ [c])).isSome → (edLookup ed q).isSome

/-- DD while DECODE runs (41_dictionary.md R131). -/
structure DecodeDictInv (dd : DecodeDict) (next : Nat) : Prop where
  /-- "the domain of DD is exactly 0..NEXT_CODE-1" -/
  codes : dd.map Prod.fst = List.range next
  nonempty : ∀ p ∈ dd, p.2 ≠ []
  symbols : ∀ c : Byte, ddFind dd c.toNat = some [c]

/-- The Encoder between its micro-operations (42_encoder.md R140, R147, R148). -/
structure EncodeLoopInv (s : State) : Prop where
  width : WidthInv s
  dict : EncodeDictInv s.ed s.nextCode.toNat
  pos_le : s.inPos.toNat ≤ s.inLen.toNat
  len_le : s.inLen.toNat ≤ s.inSize.toNat
  code_le : s.codePos.toNat ≤ s.codeSize.toNat
  /-- "CUR is empty only before the first Symbol is consumed" -/
  cur_empty : s.cur = [] ↔ s.inPos.toNat = 0
  /-- "CUR is always bound" -/
  cur_bound : s.cur ≠ [] → (edLookup s.ed s.cur).isSome
  /-- "step 3 emits at most once per Symbol after the first" -/
  emitted_le : s.codePos.toNat ≤ s.inPos.toNat - 1

/-- The Decoder between its micro-operations (43_decoder.md R160, 10_state.md R40). -/
structure DecodeLoopInv (s : State) : Prop where
  width : WidthInv s
  dict : DecodeDictInv s.dd s.nextCode.toNat
  pos_le : s.codePos.toNat ≤ s.codeLen.toNat
  len_le : s.codeLen.toNat ≤ s.codeSize.toNat
  out_le : s.outPos.toNat ≤ s.outSize.toNat
  prev_nonempty : s.prevValid = true → s.prev ≠ []

/-- The bytes of a frame before its first code: the dynamic header (30_encoding.md R96, R97). -/
def headerBytes (s : State) : Nat :=
  match s.var with
  | .static => 0
  | .dynamic => 1

/-- SERIALIZE between its micro-operations (45_stream_codec.md R201, R202, R207). -/
structure SerializeLoopInv (s : State) : Prop where
  pos_le : s.codePos.toNat ≤ s.codeLen.toNat
  len_le : s.codeLen.toNat ≤ s.codeSize.toNat
  bytes_two : s.serB = 2
  out_eq : s.outPos.toNat = headerBytes s + 2 * s.codePos.toNat
  out_le : s.outPos.toNat ≤ s.outSize.toNat

/-- DESERIALIZE between its micro-operations (45_stream_codec.md R204, R205). -/
structure DeserializeLoopInv (s : State) : Prop where
  pos_le : s.codePos.toNat ≤ s.desN.toNat
  len_le : s.inLen.toNat ≤ s.inSize.toNat
  code_le : s.codePos.toNat ≤ s.codeSize.toNat
  bytes_two : s.serB = 2
  in_eq : s.inPos.toNat = headerBytes s + 2 * s.codePos.toNat
  frame_eq : s.inLen.toNat = headerBytes s + 2 * s.desN.toNat
  header_ge : 9 ≤ s.desH.toNat
  header_le : s.desH.toNat ≤ s.maxBits.toNat

/-- The engine between two steps: the loop invariant of the running PHASE. -/
structure LoopInv (s : State) : Prop where
  encode : s.phase = Phase.encLoop → EncodeLoopInv s
  serialize : s.phase = Phase.serLoop → SerializeLoopInv s
  deserialize : s.phase = Phase.desLoop → DeserializeLoopInv s
  decode : s.phase = Phase.decLoop → DecodeLoopInv s

/-- The invariant of the block: CFG, PHASE, ERR and the buffers always, and while HAZARD = 0 also the marks of the
model and the engine's loops (10_state.md R42: "a claim about a run takes HAZARD = 0 as a premise"). -/
structure BlockInv (s : State) : Prop where
  cfg : CfgLegal s
  phase : PhaseLegal s
  memory : Memory.wf s = true
  unspoiled : s.hazard = false → s.spoiled = false
  guarded : s.hazard = false → s.busy = true → s.unpolled = true
  loops : s.hazard = false → LoopInv s
  /-- ERR is "0 while that command runs" (10_state.md R24) -/
  errClear : s.busy = true → s.err = 0

/-- The most engine steps a command takes from its acceptance on, by its word (46_host_commands.md R243). -/
def commandBound (w : Word) (s : State) : Nat :=
  if w = 2 ∨ w = 4 then 1 + (2 + s.inLen.toNat)
  else if w = 3 ∨ w = 5 then 1 + (2 + s.codeLen.toNat)
  else if w = 6 ∨ w = 7 then 1 + (2 + s.inLen.toNat) + (2 + s.inLen.toNat)
  else 1

end Sys2Proof.Machine
end

