-- ==== Sys2Proof/Certificates/Slice0/Obligations.lean ====
section
/-! DEFINITION. The statements about the block, for the provers. `run`, `Waiting`, `EndsWell`, `Aborted`,
`IllegalWord` and the invariants are those of Safety.lean. A premise `s.spoiled = false` says that no write
of 70_reset_and_hazards.md R293 has hit the running command: it follows from HAZARD = 0, the premise that
10_state.md R42 gives every claim about a run. -/

open Sys2Proof Sys2Proof.Machine

/-! ### Encodings -/

/-- Decoding an encoded well-formed instruction gives it back (30_encoding.md R90–R93, R101). -/
def Obligations.DecodingUndoesEncoding : Prop :=
  ∀ i : Instr, i.wellFormed = true → decode (encode i) = .ok i

/-- Every encoding that decodes is the encoding of the instruction it decodes to, which is well formed. -/
def Obligations.EncodingUndoesDecoding : Prop :=
  ∀ (e : Encoding) (i : Instr), decode e = .ok i → i.wellFormed = true ∧ encode i = e

/-- 30_encoding.md R91: the match and mask of each command's row. -/
def Obligations.CommandWordsMatchTheirRows : Prop :=
  ∀ (w : Word) (i : Instr), decodeCommand w = .ok i ↔
    (w &&& 0xFFFFFFFF = 0 ∧ i = .nop) ∨
    (w &&& 0xFFFE00FF = 1 ∧
      i = .configure (if w.getLsbD 16 then .dynamic else .static) (w.toNat / 256 % 256)) ∨
    (w &&& 0xFFFFFFFF = 2 ∧ i = .encode) ∨
    (w &&& 0xFFFFFFFF = 3 ∧ i = .serialize) ∨
    (w &&& 0xFFFFFFFF = 4 ∧ i = .deserialize) ∨
    (w &&& 0xFFFFFFFF = 5 ∧ i = .decode) ∨
    (w &&& 0xFFFFFFFF = 6 ∧ i = .compress) ∨
    (w &&& 0xFFFFFFFF = 7 ∧ i = .decompress)

/-- 30_encoding.md R93: the illegal words, and that one "completes with error IllegalCommand (code 4) and has no
other effect". -/
def Obligations.IllegalWordsChangeOnlyStatus : Prop :=
  (∀ w : Word, decodeCommand w = .error .illegalCommand ↔ IllegalWord w) ∧
  ∀ s : State, s.spoiled = false → IllegalWord s.opc →
    ∃ t, exec .dispatch s = .next t ∧ Aborted .dispatch .illegalCommand s t ∧ t.err = 4

/-- Words written out from the tables of 30_encoding.md R91 and R101 decode to their rows' instructions. -/
def Obligations.SampleEncodingsDecode : Prop :=
  decode (.command 0x00000000) = .ok .nop ∧
  decode (.command 0x00010C01) = .ok (.configure .dynamic 12) ∧
  decode (.command 0x00000901) = .ok (.configure .static 9) ∧
  decode (.command 0x00000006) = .ok .compress ∧
  decode (.command 0x00000108) = .error .illegalCommand ∧
  decode (.command 0x00020002) = .error .illegalCommand ∧
  decode (.selection 0x01) = .ok .dispatch ∧
  decode (.selection 0x13) = .ok .encEnd ∧
  decode (.selection 0x07) = .ok .desCode ∧
  decode (.selection 0x29) = .ok .decNext ∧
  decode (.selection 0x0A) = .error .unreachablePhase

/-- 30_encoding.md R101: the table that selects the micro-operation, under the invariants it names, IDLE, the phases
10–15, and that the conditions are exhaustive (they exclude each other since `fetch` answers one
instruction). What is selected outside those invariants stands in `TheEngineNeverStops`. The exhaustiveness is
R101's own inference, and that no step is selected where BUSY and PHASE disagree is the model's (log entry 24). -/
def Obligations.FetchFollowsThePhaseTable : Prop :=
  (∀ (s : State) (i : Instr), s.busy = true → PositionsLegal s → (fetch s = .ok (some i) ↔
    (s.phase = 1 ∧ i = .dispatch) ∨
    (s.phase = 2 ∧ i = .encInit) ∨
    (s.phase = 3 ∧ s.inPos.toNat < s.inLen.toNat ∧ i = .encSymbol) ∨
    (s.phase = 3 ∧ s.inPos.toNat = s.inLen.toNat ∧ i = .encEnd) ∨
    (s.phase = 4 ∧ i = .serInit) ∨
    (s.phase = 5 ∧ s.codePos.toNat < s.codeLen.toNat ∧ i = .serCode) ∨
    (s.phase = 5 ∧ s.codePos.toNat = s.codeLen.toNat ∧ i = .serEnd) ∨
    (s.phase = 6 ∧ i = .desInit) ∨
    (s.phase = 7 ∧ s.codePos.toNat < s.desN.toNat ∧ i = .desCode) ∨
    (s.phase = 7 ∧ s.codePos.toNat = s.desN.toNat ∧ i = .desEnd) ∨
    (s.phase = 8 ∧ i = .decInit) ∨
    (s.phase = 9 ∧ s.codePos.toNat < s.codeLen.toNat ∧ s.prevValid = false ∧ i = .decFirst) ∨
    (s.phase = 9 ∧ s.codePos.toNat < s.codeLen.toNat ∧ s.prevValid = true ∧ i = .decNext) ∨
    (s.phase = 9 ∧ s.codePos.toNat = s.codeLen.toNat ∧ i = .decEnd))) ∧
  (∀ s : State, s.busy = false ∨ s.phase = Phase.idle → fetch s = .ok none) ∧
  (∀ s : State, s.busy = true → 10 ≤ s.phase.toNat → fetch s = .error .unreachablePhase) ∧
  (∀ s : State, s.busy = true → s.phase ≠ Phase.idle → s.phase.toNat ≤ 9 → PositionsLegal s →
    ∃ i, fetch s = .ok (some i))

/-- A step in which the engine moves runs the micro-operation the fetch selects, with the schedule moved on by
one; where it selects none, only the schedule moves. A host's step runs the access at the head of its program
and moves the program on; a POLL reads STATUS, and stays at the head while it reads BUSY = 1 (30_encoding.md
R103); an empty program leaves everything but the schedule. The schedule and the program, `rdata`, POLL as one
step, the idle host's turn and the poll mark are the model's choices (log entries 7, 9, 22, 8 and 10). -/
def Obligations.StepRunsTheSelectedInstruction : Prop :=
  ∀ s : State,
    (∀ i, mover s = .engine → fetch (tick s) = .ok (some i) → step s = exec i (tick s)) ∧
    (mover s = .engine → fetch (tick s) = .ok none → step s = .next (tick s)) ∧
    (mover s = .host → step s = hostTurn (tick s)) ∧
    (mover s = .host → s.program = [] → step s = .next (tick s)) ∧
    (∀ op rest, mover s = .host → s.program = op :: rest → op ≠ .poll →
      step s = hostAccess op { tick s with program := rest }) ∧
    (∀ rest, mover s = .host → s.program = .poll :: rest →
      (s.busy = true → step s = .next { tick s with rdata := statusWord s }) ∧
      (s.busy = false → step s = .next { tick s with program := rest, rdata := statusWord s, unpolled := false })) ∧
    tick s = { s with schedule := s.schedule.tail }

/-- DISPATCH runs the command its latched word stands for. -/
def Obligations.DispatchRunsTheDecodedCommand : Prop :=
  ∀ (s : State) (i : Instr), decode (.command s.opc) = .ok i → exec .dispatch s = exec i s

/-! ### Commands -/

/-- 46_host_commands.md R230 and R241: a CMD write while BUSY = 0 is accepted, one while BUSY = 1 is dropped. What
becomes of the model's own marks `spoiled` and `unpolled` stands in
`HazardIsStickyAndSetByTheHostAlone`. -/
def Obligations.CmdWriteIsAcceptedOrDropped : Prop :=
  (∀ (s : State) (w : Word), s.busy = false →
    (∃ sp up : Bool, hostAccess (opWR Offset.cmd w) s =
      .next { s with
        opc := w, busy := true, err := 0, chain := false, phase := Phase.dispatch, spoiled := sp, unpolled := up }) ∧
    (s.drop = false → ∀ t, hostAccess (opWR Offset.cmd w) s = .next t → statusWord t = 1)) ∧
  ∀ (s : State) (w : Word), s.busy = true →
    hostAccess (opWR Offset.cmd w) s = .next { s with drop := true }

/-- 46_host_commands.md R231: the pseudocode of DISPATCH, and its example. -/
def Obligations.DispatchDecodesTheLatchedWord : Prop :=
  (∀ s : State, s.spoiled = false →
    (IllegalWord s.opc → exec .dispatch s = .next (abort .dispatch .illegalCommand s)) ∧
    (¬ IllegalWord s.opc →
      (s.opc.toNat % 256 = 0 → exec .dispatch s = .next { s with phase := Phase.idle, busy := false }) ∧
      (s.opc.toNat % 256 = 1 → exec .dispatch s =
        exec (.configure (if s.opc.getLsbD 16 then .dynamic else .static) (s.opc.toNat / 256 % 256)) s) ∧
      (s.opc.toNat % 256 = 2 → exec .dispatch s = .next { s with phase := Phase.encInit }) ∧
      (s.opc.toNat % 256 = 3 → exec .dispatch s = .next { s with phase := Phase.serInit }) ∧
      (s.opc.toNat % 256 = 4 → exec .dispatch s = .next { s with phase := Phase.desInit }) ∧
      (s.opc.toNat % 256 = 5 → exec .dispatch s = .next { s with phase := Phase.decInit }) ∧
      (s.opc.toNat % 256 = 6 → exec .dispatch s = .next { s with chain := true, phase := Phase.encInit }) ∧
      (s.opc.toNat % 256 = 7 → exec .dispatch s = .next { s with chain := true, phase := Phase.desInit }))) ∧
  ∀ s t : State, s.opc = 0x00000108 → s.spoiled = false → s.drop = false → exec .dispatch s = .next t →
    statusWord t = 0x00000400

/-- 46_host_commands.md R232: from its acceptance on, NOP changes nothing but ERR. -/
def Obligations.NopOnlyClearsErr : Prop :=
  (∀ s : State, s.spoiled = false → exec .nop s = .next { s with phase := Phase.idle, busy := false }) ∧
  ∀ s : State, s.busy = false → s.phase = Phase.idle →
    ∃ sp up : Bool, exec .dispatch (accept 0 s) =
      .next { s with err := 0, opc := 0, chain := false, spoiled := sp, unpolled := up }

/-- 46_host_commands.md R233. -/
def Obligations.ConfigureSetsCfgOrRefuses : Prop :=
  ∀ (s : State) (v : Variant) (m : Nat), s.spoiled = false →
    (9 ≤ m → m ≤ 16 →
      exec (.configure v m) s =
        .next { s with maxBits := BitVec.ofNat 8 m, var := v, phase := Phase.idle, busy := false } ∧
      ∀ t, exec (.configure v m) s = .next t →
        cfgWord t = BitVec.ofNat 32 ((if v = .dynamic then 65536 else 0) + m * 256)) ∧
    (m < 9 ∨ 16 < m →
      ∃ t, exec (.configure v m) s = .next t ∧ Aborted .dispatch .configurationError s t ∧ t.err = 3 ∧
        cfgWord t = cfgWord s)

/-- 46_host_commands.md R231, R234–R239: a command's own step starts its first micro-operation, and changes
nothing else. -/
def Obligations.CommandsStartTheirFirstMicroOperation : Prop :=
  ∀ s : State,
    exec .encode s = .next { s with phase := Phase.encInit } ∧
    exec .serialize s = .next { s with phase := Phase.serInit } ∧
    exec .deserialize s = .next { s with phase := Phase.desInit } ∧
    exec .decode s = .next { s with phase := Phase.decInit } ∧
    exec .compress s = .next { s with chain := true, phase := Phase.encInit } ∧
    exec .decompress s = .next { s with chain := true, phase := Phase.desInit }

/-! ### The Encoder -/

/-- 42_encoder.md R141, with 41_dictionary.md R121 (ED_INIT) and 44_code_width.md R181 (CW_INIT). -/
def Obligations.EncInitStartsAFreshDictionary : Prop :=
  ∀ s : State, CfgLegal s →
    (s.inLen.toNat ≤ s.inSize.toNat →
      ∃ (ed : EncodeDict) (cb : BitVec 5) (mc : BitVec 17),
        exec .encInit s = .next { s with
          ed := ed, nextCode := 256, curBits := cb, maxCode := mc, cur := [], inPos := 0, codePos := 0,
          phase := Phase.encLoop } ∧
        (∀ q k, edLookup ed q = some k ↔ ∃ c : Byte, q = [c] ∧ k = c.toNat) ∧
        cb.toNat = (if s.var = .static then s.maxBits.toNat else 9) ∧
        mc.toNat = 2 ^ cb.toNat - 1) ∧
    (s.inSize.toNat < s.inLen.toNat → exec .encInit s = .next (abort .toCode .bufferOverflow s))

/-- 42_encoder.md R142 (with EMIT, R143, and ED_INSERT, CW_HAS_CAPACITY and CW_GROW, 41_dictionary.md R123,
44_code_width.md R182, R183): ENC_SYMBOL for the Symbol `c = IN[IN_POS]`. -/
def Obligations.EncSymbolFollowsItsRule : Prop :=
  ∀ (s : State) (c : Byte), CfgLegal s → s.inPos.toNat < s.inSize.toNat → elementIn s s.inPos.toNat = c →
    ((edLookup s.ed (s.cur ++ [c])).isSome →
      exec .encSymbol s = .next { s with cur := s.cur ++ [c], inPos := s.inPos + 1 }) ∧
    (edLookup s.ed (s.cur ++ [c]) = none → edLookup s.ed s.cur = none →
      exec .encSymbol s = .next (abort .toCode .invariantViolation s)) ∧
    (∀ k, edLookup s.ed (s.cur ++ [c]) = none → edLookup s.ed s.cur = some k →
      s.codeSize.toNat ≤ s.codePos.toNat → exec .encSymbol s = .next (abort .toCode .bufferOverflow s)) ∧
    (∀ k, edLookup s.ed (s.cur ++ [c]) = none → edLookup s.ed s.cur = some k →
      s.codePos.toNat < s.codeSize.toNat →
      ∃ (ed : EncodeDict) (n : BitVec 17) (cb : BitVec 5) (mc : BitVec 17) (buf : Buffer 16),
        exec .encSymbol s = .next { s with
          ed := ed, nextCode := n, curBits := cb, maxCode := mc, codeBuf := buf, codePos := s.codePos + 1,
          cur := [c], inPos := s.inPos + 1 } ∧
        (∀ i, bufGet .CODE buf i = if i = s.codePos.toNat then BitVec.ofNat 16 k else elementCode s i) ∧
        (if s.nextCode.toNat ≤ s.maxCode.toNat then
          n = s.nextCode + 1 ∧
          (∀ q, edLookup ed q = if q = s.cur ++ [c] then some s.nextCode.toNat else edLookup s.ed q) ∧
          (if s.var = .dynamic ∧ s.maxCode.toNat < n.toNat ∧ s.curBits.toNat < s.maxBits.toNat then
            cb = s.curBits + 1 ∧ mc.toNat = 2 ^ cb.toNat - 1
           else cb = s.curBits ∧ mc = s.maxCode)
         else ed = s.ed ∧ n = s.nextCode ∧ cb = s.curBits ∧ mc = s.maxCode))

/-- 42_encoder.md R144: ENC_END, completing or, with CHAIN = 1, going on at SER_INIT. -/
def Obligations.EncEndWritesTheResults : Prop :=
  ∀ s : State, s.spoiled = false →
    (s.cur = [] → s.chain = false →
      exec .encEnd s = .next { s with
        codeLen := s.codePos, width := s.curBits.setWidth 8, phase := Phase.idle, busy := false }) ∧
    (s.cur = [] → s.chain = true →
      exec .encEnd s = .next { s with
        codeLen := s.codePos, width := s.curBits.setWidth 8, chain := false, phase := Phase.serInit }) ∧
    (s.cur ≠ [] → edLookup s.ed s.cur = none →
      exec .encEnd s = .next (abort .toCode .invariantViolation s)) ∧
    (∀ k, s.cur ≠ [] → edLookup s.ed s.cur = some k → s.codeSize.toNat ≤ s.codePos.toNat →
      exec .encEnd s = .next (abort .toCode .bufferOverflow s)) ∧
    (∀ k, s.cur ≠ [] → edLookup s.ed s.cur = some k → s.codePos.toNat < s.codeSize.toNat →
      ∃ buf : Buffer 16,
        (∀ i, bufGet .CODE buf i = if i = s.codePos.toNat then BitVec.ofNat 16 k else elementCode s i) ∧
        (s.chain = false →
          exec .encEnd s = .next { s with
            codeBuf := buf, codePos := s.codePos + 1, codeLen := s.codePos + 1, width := s.curBits.setWidth 8,
            phase := Phase.idle, busy := false }) ∧
        (s.chain = true →
          exec .encEnd s = .next { s with
            codeBuf := buf, codePos := s.codePos + 1, codeLen := s.codePos + 1, width := s.curBits.setWidth 8,
            chain := false, phase := Phase.serInit }))

/-! ### The stream codec -/

/-- 45_stream_codec.md R201. -/
def Obligations.SerInitWritesTheHeader : Prop :=
  ∀ s : State,
    (s.codeSize.toNat < s.codeLen.toNat → exec .serInit s = .next (abort .toOut .bufferOverflow s)) ∧
    (s.codeLen.toNat ≤ s.codeSize.toNat → s.var = .static →
      exec .serInit s = .next { s with codePos := 0, outPos := 0, serB := 2, phase := Phase.serLoop }) ∧
    (s.codeLen.toNat ≤ s.codeSize.toNat → s.var = .dynamic →
      (s.width.toNat < 9 ∨ s.maxBits.toNat < s.width.toNat →
        exec .serInit s = .next (abort .toOut .configurationError s)) ∧
      (9 ≤ s.width.toNat → s.width.toNat ≤ s.maxBits.toNat →
        (s.outSize.toNat < 1 → exec .serInit s = .next (abort .toOut .bufferOverflow s)) ∧
        (1 ≤ s.outSize.toNat →
          ∃ buf : Buffer 8,
            exec .serInit s = .next { s with
              codePos := 0, outPos := 1, serB := BitVec.ofNat 2 ((s.width.toNat + 7) / 8), outBuf := buf,
              phase := Phase.serLoop } ∧
            ∀ i, bufGet .OUT buf i = if i = 0 then s.width else elementOut s i)))

/-- 45_stream_codec.md R202: SER_CODE stores the SER_B bytes of `CODE[CODE_POS]`, most significant first, at
OUT_POS, and every other element of OUT reads as before. -/
def Obligations.SerCodeWritesBigEndianBytes : Prop :=
  ∀ (s : State) (k : Nat), s.codePos.toNat < s.codeSize.toNat → (elementCode s s.codePos.toNat).toNat = k →
    (s.outSize.toNat < s.outPos.toNat + s.serB.toNat → exec .serCode s = .next (abort .toOut .bufferOverflow s)) ∧
    (s.outPos.toNat + s.serB.toNat ≤ s.outSize.toNat →
      ∃ buf : Buffer 8,
        exec .serCode s = .next { s with
          outBuf := buf, outPos := BitVec.ofNat 32 (s.outPos.toNat + s.serB.toNat), codePos := s.codePos + 1 } ∧
        (∀ j, j < s.serB.toNat →
          bufGet .OUT buf (s.outPos.toNat + j) = BitVec.ofNat 8 (k / 256 ^ (s.serB.toNat - 1 - j))) ∧
        (∀ i, i < s.outPos.toNat ∨ s.outPos.toNat + s.serB.toNat ≤ i → bufGet .OUT buf i = elementOut s i))

/-- 45_stream_codec.md R203 and 43_decoder.md R167: the last micro-operations report OUT_LEN and complete; every
other register and every buffer stays. -/
def Obligations.SerEndAndDecEndReportOutLen : Prop :=
  ∀ s : State, s.spoiled = false →
    exec .serEnd s = .next { s with outLen := s.outPos, phase := Phase.idle, busy := false } ∧
    exec .decEnd s = .next { s with outLen := s.outPos, phase := Phase.idle, busy := false }

/-- 45_stream_codec.md R204: the checks of a frame in their order, and what DES_INIT leaves behind. -/
def Obligations.DesInitChecksTheFrame : Prop :=
  ∀ s : State,
    (s.inSize.toNat < s.inLen.toNat → exec .desInit s = .next (abort .toCode .bufferOverflow s)) ∧
    (s.inLen.toNat ≤ s.inSize.toNat → s.var = .static →
      (s.inLen.toNat % 2 ≠ 0 → exec .desInit s = .next (abort .toCode .invalidCode s)) ∧
      (s.inLen.toNat % 2 = 0 →
        exec .desInit s = .next { s with
          codePos := 0, serB := 2, desH := s.maxBits, inPos := 0, desN := BitVec.ofNat 32 (s.inLen.toNat / 2),
          phase := Phase.desLoop })) ∧
    (s.inLen.toNat ≤ s.inSize.toNat → s.var = .dynamic →
      (s.inLen.toNat = 0 → exec .desInit s = .next (abort .toCode .invalidCode s)) ∧
      ∀ h : Byte, s.inLen.toNat ≠ 0 → elementIn s 0 = h →
        (h.toNat < 9 ∨ s.maxBits.toNat < h.toNat → exec .desInit s = .next (abort .toCode .invalidCode s)) ∧
        (9 ≤ h.toNat → h.toNat ≤ s.maxBits.toNat →
          ((s.inLen.toNat - 1) % ((h.toNat + 7) / 8) ≠ 0 →
            exec .desInit s = .next (abort .toCode .invalidCode s)) ∧
          ((s.inLen.toNat - 1) % ((h.toNat + 7) / 8) = 0 →
            exec .desInit s = .next { s with
              codePos := 0, serB := BitVec.ofNat 2 ((h.toNat + 7) / 8), desH := h, inPos := 1,
              desN := BitVec.ofNat 32 ((s.inLen.toNat - 1) / ((h.toNat + 7) / 8)), phase := Phase.desLoop })))

/-- 45_stream_codec.md R205, with the code assembly of 30_encoding.md R98: the value is `unBE` of the SER_B bytes
at IN_POS, which for two bytes is `256 * IN[IN_POS] + IN[IN_POS + 1]`. -/
def Obligations.DesCodeAssemblesACode : Prop :=
  ∀ s : State,
    (s.codeSize.toNat ≤ s.codePos.toNat → exec .desCode s = .next (abort .toCode .bufferOverflow s)) ∧
    (s.codePos.toNat < s.codeSize.toNat → s.inPos.toNat + s.serB.toNat ≤ s.inSize.toNat →
      ∃ (buf : Buffer 16) (k : CodeEntry),
        exec .desCode s = .next { s with
          codeBuf := buf, inPos := BitVec.ofNat 32 (s.inPos.toNat + s.serB.toNat), codePos := s.codePos + 1 } ∧
        (∀ i, bufGet .CODE buf i = if i = s.codePos.toNat then k else elementCode s i) ∧
        k = BitVec.ofNat 16 (((List.range s.serB.toNat).map fun j =>
          (elementIn s (s.inPos.toNat + j)).toNat * 256 ^ (s.serB.toNat - 1 - j)).sum) ∧
        (s.serB = 2 → k.toNat =
          256 * (elementIn s s.inPos.toNat).toNat + (elementIn s (s.inPos.toNat + 1)).toNat))

/-- 45_stream_codec.md R206: DES_END, completing or, with CHAIN = 1, going on at DEC_INIT. -/
def Obligations.DesEndWritesTheResults : Prop :=
  ∀ s : State, s.spoiled = false →
    (s.chain = false →
      exec .desEnd s = .next { s with
        codeLen := s.codePos, width := s.desH, phase := Phase.idle, busy := false }) ∧
    (s.chain = true →
      exec .desEnd s = .next { s with
        codeLen := s.codePos, width := s.desH, chain := false, phase := Phase.decInit })

/-! ### The Decoder -/

/-- 43_decoder.md R161, with 41_dictionary.md R128 (DD_INIT) and 44_code_width.md R181 (CW_INIT). -/
def Obligations.DecInitStartsAFreshDictionary : Prop :=
  ∀ s : State, CfgLegal s →
    (s.codeLen.toNat ≤ s.codeSize.toNat →
      ∃ (dd : DecodeDict) (cb : BitVec 5) (mc : BitVec 17),
        exec .decInit s = .next { s with
          dd := dd, nextCode := 256, curBits := cb, maxCode := mc, prevValid := false, codePos := 0, outPos := 0,
          phase := Phase.decLoop } ∧
        (∀ k, ddFind dd k = if k < 256 then some [BitVec.ofNat 8 k] else none) ∧
        cb.toNat = (if s.var = .static then s.maxBits.toNat else 9) ∧
        mc.toNat = 2 ^ cb.toNat - 1) ∧
    (s.codeSize.toNat < s.codeLen.toNat → exec .decInit s = .next (abort .toOut .bufferOverflow s))

/-- 43_decoder.md R162, with OUTPUT (R166): DEC_FIRST for the code `k = CODE[CODE_POS]`, DD as DD_INIT left it in
so far as codes 0..255 go. -/
def Obligations.DecFirstResolvesDirectly : Prop :=
  ∀ (s : State) (k : Nat), DecodeDictInv s.dd s.nextCode.toNat → 256 ≤ s.nextCode.toNat →
    s.codePos.toNat < s.codeSize.toNat → (elementCode s s.codePos.toNat).toNat = k →
    (255 < k → exec .decFirst s = .next (abort .toOut .invalidCode s)) ∧
    (k ≤ 255 → s.outSize.toNat < s.outPos.toNat + 1 → exec .decFirst s = .next (abort .toOut .bufferOverflow s)) ∧
    (k ≤ 255 → s.outPos.toNat + 1 ≤ s.outSize.toNat →
      ∃ buf : Buffer 8,
        exec .decFirst s = .next { s with
          outBuf := buf, outPos := BitVec.ofNat 32 (s.outPos.toNat + 1), prev := [BitVec.ofNat 8 k],
          prevValid := true, codePos := s.codePos + 1 } ∧
        ∀ i, bufGet .OUT buf i = if i = s.outPos.toNat then BitVec.ofNat 8 k else elementOut s i)

/-- 43_decoder.md R163, with OUTPUT (R166), DD_BIND, CW_HAS_CAPACITY and CW_GROW: DEC_NEXT for the code
`k = CODE[CODE_POS]`. The entry is DD's, or PREV ++ [PREV[0]] for the unbound code NEXT_CODE. -/
def Obligations.DecNextFollowsItsRule : Prop :=
  ∀ (s : State) (k : Nat), CfgLegal s → s.codePos.toNat < s.codeSize.toNat →
    (elementCode s s.codePos.toNat).toNat = k →
    (ddGet s k = none → k ≠ s.nextCode.toNat → exec .decNext s = .next (abort .toOut .invalidCode s)) ∧
    (∀ (entry : Sequence) (e₀ : Byte) (rest : Sequence), entry = e₀ :: rest →
      (ddGet s k = some entry ∨
        (ddGet s k = none ∧ k = s.nextCode.toNat ∧ ∃ p₀ ps, s.prev = p₀ :: ps ∧ entry = s.prev ++ [p₀])) →
      (s.outSize.toNat < s.outPos.toNat + entry.length →
        exec .decNext s = .next (abort .toOut .bufferOverflow s)) ∧
      (s.outPos.toNat + entry.length ≤ s.outSize.toNat →
        ∃ (dd : DecodeDict) (n : BitVec 17) (cb : BitVec 5) (mc : BitVec 17) (buf : Buffer 8),
          exec .decNext s = .next { s with
            dd := dd, nextCode := n, curBits := cb, maxCode := mc, outBuf := buf,
            outPos := BitVec.ofNat 32 (s.outPos.toNat + entry.length), prev := entry, prevValid := true,
            codePos := s.codePos + 1 } ∧
          (∀ (j : Nat) (hj : j < entry.length), bufGet .OUT buf (s.outPos.toNat + j) = entry[j]) ∧
          (∀ i, i < s.outPos.toNat ∨ s.outPos.toNat + entry.length ≤ i → bufGet .OUT buf i = elementOut s i) ∧
          (if s.nextCode.toNat ≤ s.maxCode.toNat then
            n = s.nextCode + 1 ∧
            (∀ c, ddFind dd c = if c = s.nextCode.toNat then some (s.prev ++ [e₀]) else ddFind s.dd c) ∧
            (if s.var = .dynamic ∧ s.maxCode.toNat < n.toNat ∧ s.curBits.toNat < s.maxBits.toNat then
              cb = s.curBits + 1 ∧ mc.toNat = 2 ^ cb.toNat - 1
             else cb = s.curBits ∧ mc = s.maxCode)
           else dd = s.dd ∧ n = s.nextCode ∧ cb = s.curBits ∧ mc = s.maxCode)))

/-- 43_decoder.md R164: the KwKwK branch, and the rule's own inference that with capacity left the code "is then bound
to exactly the entry just output". -/
def Obligations.KwKwKCodeIsBoundToTheEntryOutput : Prop :=
  ∀ (s : State) (p₀ : Byte) (ps : Sequence), s.codePos.toNat < s.codeSize.toNat →
    (elementCode s s.codePos.toNat).toNat = s.nextCode.toNat → ddFind s.dd s.nextCode.toNat = none →
    s.prev = p₀ :: ps → s.outPos.toNat + (s.prev.length + 1) ≤ s.outSize.toNat →
    ∃ t, exec .decNext s = .next t ∧ t.prev = s.prev ++ [p₀] ∧ t.err = s.err ∧ t.busy = s.busy ∧
      (∀ (j : Nat) (hj : j < (s.prev ++ [p₀]).length),
        elementOut t (s.outPos.toNat + j) = (s.prev ++ [p₀])[j]) ∧
      (hasCapacity s = true → ddFind t.dd s.nextCode.toNat = some t.prev)

/-- 43_decoder.md R165: on a full table the code NEXT_CODE is output and not bound, and every element of OUT
outside the entry's reads as before. -/
def Obligations.FullTableCodeIsOutputAndNotBound : Prop :=
  ∀ (s : State) (p₀ : Byte) (ps : Sequence), CfgLegal s → WidthInv s → s.nextCode.toNat = 2 ^ s.maxBits.toNat →
    s.codePos.toNat < s.codeSize.toNat → (elementCode s s.codePos.toNat).toNat = s.nextCode.toNat →
    s.prev = p₀ :: ps → s.outPos.toNat + (s.prev.length + 1) ≤ s.outSize.toNat →
    ∃ buf : Buffer 8,
      exec .decNext s = .next { s with
        outBuf := buf, outPos := BitVec.ofNat 32 (s.outPos.toNat + (s.prev.length + 1)), prev := s.prev ++ [p₀],
        prevValid := true, codePos := s.codePos + 1 } ∧
      (∀ (j : Nat) (hj : j < (s.prev ++ [p₀]).length),
        bufGet .OUT buf (s.outPos.toNat + j) = (s.prev ++ [p₀])[j]) ∧
      ∀ i, i < s.outPos.toNat ∨ s.outPos.toNat + (s.prev.length + 1) ≤ i → bufGet .OUT buf i = elementOut s i

/-! ### Errors -/

/-- 60_exceptions.md R260: the numbers, and that 6–15 are never produced, by no step of a run without a forbidden
write. -/
def Obligations.ErrorCodesAreOneToFive : Prop :=
  errorCode .invariantViolation = 1 ∧ errorCode .invalidCode = 2 ∧ errorCode .configurationError = 3 ∧
  errorCode .illegalCommand = 4 ∧ errorCode .bufferOverflow = 5 ∧ State.reset.err = 0 ∧
  ∀ s t : State, s.spoiled = false → s.err.toNat ≤ 5 → step s = .next t → t.err.toNat ≤ 5

/-- 60_exceptions.md R262: what an abort does in one step. -/
def Obligations.AbortLeavesEverythingElse : Prop :=
  ∀ (half : FailingHalf) (e : ErrorKind) (s : State), s.spoiled = false →
    ∃ t, raise half e s = .next t ∧ Aborted half e s t

/-- 60_exceptions.md R261: which micro-operation raises which error, and when; "No other micro-operation raises an
error." ERR = 0 and a command no forbidden write hit; for DEC_FIRST and DEC_NEXT, DD as DECODE holds it. -/
def Obligations.ErrorsAreRaisedWhereTheTableSays : Prop :=
  ∀ (i : Instr) (s t : State), s.err = 0 → s.spoiled = false → exec i s = .next t →
    (i = .decFirst ∨ i = .decNext → DecodeDictInv s.dd s.nextCode.toNat) →
    (t.err = 4 ↔ i = .dispatch ∧ IllegalWord s.opc) ∧
    (t.err = 3 ↔
      (∃ v m, (i = .configure v m ∨ (i = .dispatch ∧ decodeCommand s.opc = .ok (.configure v m))) ∧
        (m < 9 ∨ 16 < m)) ∨
      (i = .serInit ∧ s.codeLen.toNat ≤ s.codeSize.toNat ∧ s.var = .dynamic ∧
        (s.width.toNat < 9 ∨ s.maxBits.toNat < s.width.toNat))) ∧
    (t.err = 1 ↔
      (i = .encSymbol ∧ edLookup s.ed (s.cur ++ [elementIn s s.inPos.toNat]) = none ∧ edLookup s.ed s.cur = none) ∨
      (i = .encEnd ∧ s.cur ≠ [] ∧ edLookup s.ed s.cur = none)) ∧
    (t.err = 2 ↔
      (i = .decFirst ∧ 255 < (elementCode s s.codePos.toNat).toNat) ∨
      (i = .decNext ∧ s.nextCode.toNat < (elementCode s s.codePos.toNat).toNat) ∨
      (i = .desInit ∧ s.inLen.toNat ≤ s.inSize.toNat ∧ s.var = .static ∧ s.inLen.toNat % 2 = 1) ∨
      (i = .desInit ∧ s.inLen.toNat ≤ s.inSize.toNat ∧ s.var = .dynamic ∧
        (s.inLen.toNat = 0 ∨ (elementIn s 0).toNat < 9 ∨ s.maxBits.toNat < (elementIn s 0).toNat ∨
          (s.inLen.toNat - 1) % (((elementIn s 0).toNat + 7) / 8) ≠ 0))) ∧
    (t.err = 5 ↔
      ((i = .encInit ∨ i = .desInit) ∧ s.inSize.toNat < s.inLen.toNat) ∨
      ((i = .serInit ∨ i = .decInit) ∧ s.codeSize.toNat < s.codeLen.toNat) ∨
      (i = .encSymbol ∧ edLookup s.ed (s.cur ++ [elementIn s s.inPos.toNat]) = none ∧
        (edLookup s.ed s.cur).isSome ∧ s.codeSize.toNat ≤ s.codePos.toNat) ∨
      (i = .encEnd ∧ s.cur ≠ [] ∧ (edLookup s.ed s.cur).isSome ∧ s.codeSize.toNat ≤ s.codePos.toNat) ∨
      (i = .desCode ∧ s.codeSize.toNat ≤ s.codePos.toNat) ∨
      (i = .serInit ∧ s.codeLen.toNat ≤ s.codeSize.toNat ∧ s.var = .dynamic ∧ 9 ≤ s.width.toNat ∧
        s.width.toNat ≤ s.maxBits.toNat ∧ s.outSize.toNat < 1) ∨
      (i = .serCode ∧ s.outSize.toNat < s.outPos.toNat + s.serB.toNat) ∨
      (i = .decFirst ∧ ∃ entry, (elementCode s s.codePos.toNat).toNat ≤ 255 ∧
        ddGet s (elementCode s s.codePos.toNat).toNat = some entry ∧
        s.outSize.toNat < s.outPos.toNat + entry.length) ∨
      (i = .decNext ∧ ∃ entry, ddGet s (elementCode s s.codePos.toNat).toNat = some entry ∧
        s.outSize.toNat < s.outPos.toNat + entry.length) ∨
      (i = .decNext ∧ (elementCode s s.codePos.toNat).toNat = s.nextCode.toNat ∧
        s.outSize.toNat < s.outPos.toNat + (s.prev.length + 1)))

/-- 60_exceptions.md R265: while no command runs, ERR keeps its code until a command is accepted, which sets it to
0, or RESET. -/
def Obligations.ErrIsKeptUntilTheNextCommand : Prop :=
  ∀ s t : State, s.busy = false → step s = .next t →
    t.err = s.err ∨
    (t.err = 0 ∧ ∃ op rest, s.program = op :: rest ∧ (op = .reset ∨ ∃ w, op = opWR Offset.cmd w ∧ t.opc = w))

/-! ### Reset -/

/-- 70_reset_and_hazards.md R290 and R291: the values the table states, at `State.reset` and after the event RESET
of any state, where a running command is abandoned: the engine has no step. HAZARD is unchanged by RESET,
and 0 at the start of a run. -/
def Obligations.ResetLeavesTheStatedValues : Prop :=
  (∀ s : State, s = State.reset ∨ (∃ u, hostAccess .reset u = .next s) →
    registerValue Offset.status s = 0x00000000 ∧ registerValue Offset.cfg s = 0x00010C00 ∧
    registerValue Offset.inLen s = 0 ∧ registerValue Offset.outLen s = 0 ∧ registerValue Offset.codeLen s = 0 ∧
    registerValue Offset.width s = 0 ∧ (∀ off, 0x1C ≤ off → registerValue off s = 0) ∧
    s.busy = false ∧ s.drop = false ∧ s.err = 0 ∧ s.maxBits = 12 ∧ s.var = .dynamic ∧ s.phase = Phase.idle ∧
    fetch s = .ok none) ∧
  State.reset.hazard = false ∧
  ∀ u : State, ∃ t, hostAccess .reset u = .next t ∧ t.hazard = u.hazard

/-! ### Host accesses -/

/-- 20_memory.md R65: every register read, its draws while BUSY = 1, that nothing of the block changes, and offset by
offset the value 10_state.md R21–R30 define (the bits of STATUS and CFG stand in
`StatusAndCfgFieldsStandWhereStated`). The read's value is in `rdata`; the draw counter and the poll mark are the model's own (log entries 6, 9,
10). -/
def Obligations.RegisterReadsHaveNoSideEffect : Prop :=
  (∀ (s : State) (off : Nat), off % 4 = 0 → off < 0x40 →
    ∃ (v : Word) (d : Nat) (p : Bool),
      hostAccess (opRD off) s = .next { s with rdata := v, draws := d, unpolled := p } ∧
      ((s.busy = false ∨ (off ≠ Offset.outLen ∧ off ≠ Offset.codeLen ∧ off ≠ Offset.width)) →
        v = registerValue off s ∧ d = s.draws)) ∧
  ∀ s : State,
    registerValue 0x00 s = 0 ∧ registerValue 0x04 s = statusWord s ∧ registerValue 0x08 s = cfgWord s ∧
    registerValue 0x0C s = s.inLen ∧ registerValue 0x10 s = s.outLen ∧ registerValue 0x14 s = s.codeLen ∧
    registerValue 0x18 s = (0 : BitVec 24) ++ s.width ∧
    ∀ off, off % 4 = 0 → 0x1C ≤ off → off ≤ 0x3C → registerValue off s = 0

/-- 10_state.md R23–R25: where the fields of STATUS and CFG stand; all other bits read 0. -/
def Obligations.StatusAndCfgFieldsStandWhereStated : Prop :=
  ∀ (s : State) (i : Nat),
    (statusWord s).getLsbD i =
      (if i = 0 then s.busy else if i = 1 then s.drop
       else if 8 ≤ i ∧ i ≤ 11 then s.err.getLsbD (i - 8) else false) ∧
    (cfgWord s).getLsbD i =
      (if 8 ≤ i ∧ i ≤ 15 then s.maxBits.getLsbD (i - 8)
       else if i = 16 then decide (s.var = .dynamic) else false)

/-- 20_memory.md R66, without the CMD write (R230, R241): STATUS's write-1-to-clear, the stored registers with
their hazard, and the offsets whose writes are ignored. With BUSY = 0 the registers store the value whether or
not the last command's end was polled; that HAZARD is then set by a write before the poll is
70_reset_and_hazards.md R293, and the marks `unpolled` and `spoiled` are the model's own (log entry 10). -/
def Obligations.RegisterWritesFollowTheMap : Prop :=
  ∀ (s : State) (v : Word),
    hostAccess (opWR Offset.status v) s = .next { s with drop := if v.getLsbD 1 then false else s.drop } ∧
    (∀ off, off % 4 = 0 → off < 0x40 →
      (off = Offset.cfg ∨ off = Offset.outLen ∨ 0x1C ≤ off) → hostAccess (opWR off v) s = .next s) ∧
    (s.busy = false →
      hostAccess (opWR Offset.inLen v) s = .next { s with inLen := v, hazard := s.hazard || s.unpolled } ∧
      hostAccess (opWR Offset.codeLen v) s = .next { s with codeLen := v, hazard := s.hazard || s.unpolled } ∧
      hostAccess (opWR Offset.width v) s = .next
        { s with width := v.setWidth 8, hazard := s.hazard || s.unpolled }) ∧
    (s.busy = true →
      hostAccess (opWR Offset.inLen v) s = .next { s with inLen := v, hazard := true, spoiled := true } ∧
      hostAccess (opWR Offset.codeLen v) s = .next { s with codeLen := v, hazard := true, spoiled := true } ∧
      hostAccess (opWR Offset.width v) s = .next { s with width := v.setWidth 8, hazard := true, spoiled := true })

/-- 20_memory.md R67: which reads return the element, which a draw, and which are refused. That the value read
stands in `rdata`, the element zero-extended to 32 bits, is the model's choice (log entry 9), and the draw
counter is its own (log entry 6). -/
def Obligations.BufferReadsReturnTheElement : Prop :=
  ∀ (s : State) (i : Nat),
    (i < s.inSize.toNat →
      hostAccess (.readBuf .IN i) s = .next { s with rdata := (elementIn s i).setWidth 32 }) ∧
    (i < s.outSize.toNat →
      ∃ (v : Word) (d : Nat), hostAccess (.readBuf .OUT i) s = .next { s with rdata := v, draws := d } ∧
        (s.busy = false → v = (elementOut s i).setWidth 32 ∧ d = s.draws)) ∧
    (i < s.codeSize.toNat →
      ∃ (v : Word) (d : Nat), hostAccess (.readBuf .CODE i) s = .next { s with rdata := v, draws := d } ∧
        (s.busy = false → v = (elementCode s i).setWidth 32 ∧ d = s.draws)) ∧
    (s.inSize.toNat ≤ i → hostAccess (.readBuf .IN i) s = .refused .bufferIndexBeyondSize) ∧
    (s.outSize.toNat ≤ i → hostAccess (.readBuf .OUT i) s = .refused .bufferIndexBeyondSize) ∧
    (s.codeSize.toNat ≤ i → hostAccess (.readBuf .CODE i) s = .refused .bufferIndexBeyondSize)

/-- 20_memory.md R68. -/
def Obligations.BufferWritesStoreOneElement : Prop :=
  ∀ (s : State) (i : Nat) (v : Word),
    (i < s.inSize.toNat →
      ∃ (buf : Buffer 8) (hz sp : Bool),
        hostAccess (.writeBuf .IN i v) s = .next { s with inBuf := buf, hazard := hz, spoiled := sp } ∧
        (∀ j, bufGet .IN buf j = if j = i then v.setWidth 8 else elementIn s j) ∧
        (s.busy = true → hz = true) ∧ (s.busy = false → s.unpolled = false → hz = s.hazard ∧ sp = s.spoiled)) ∧
    (i < s.codeSize.toNat →
      ∃ (buf : Buffer 16) (hz sp : Bool),
        hostAccess (.writeBuf .CODE i v) s = .next { s with codeBuf := buf, hazard := hz, spoiled := sp } ∧
        (∀ j, bufGet .CODE buf j = if j = i then v.setWidth 16 else elementCode s j) ∧
        (s.busy = true → hz = true) ∧ (s.busy = false → s.unpolled = false → hz = s.hazard ∧ sp = s.spoiled)) ∧
    (i < s.outSize.toNat → hostAccess (.writeBuf .OUT i v) s = .next s) ∧
    (s.inSize.toNat ≤ i → hostAccess (.writeBuf .IN i v) s = .refused .bufferIndexBeyondSize) ∧
    (s.outSize.toNat ≤ i → hostAccess (.writeBuf .OUT i v) s = .refused .bufferIndexBeyondSize) ∧
    (s.codeSize.toNat ≤ i → hostAccess (.writeBuf .CODE i v) s = .refused .bufferIndexBeyondSize)

/-- 20_memory.md R64: a register access is a 32-bit one at a multiple of 4 in 0x00–0x3C; any other access "is
refused by the model: it has no meaning". -/
def Obligations.MisshapenRegisterAccessesAreRefused : Prop :=
  ∀ (s : State) (bits off : Nat) (v : Word),
    (bits ≠ 32 ∨ off % 4 ≠ 0 ∨ 0x40 ≤ off →
      hostAccess (.readReg bits off) s = .refused .registerAccessShape ∧
      hostAccess (.writeReg bits off v) s = .refused .registerAccessShape) ∧
    (bits = 32 → off % 4 = 0 → off ≤ 0x3C →
      (∃ t, hostAccess (.readReg bits off) s = .next t) ∧ ∃ t, hostAccess (.writeReg bits off v) s = .next t)

/-- 10_state.md R42 and 70_reset_and_hazards.md R293: HAZARD is never cleared, and only a host write to IN, CODE,
IN_LEN, CODE_LEN or WIDTH from a command's acceptance to the poll of its end sets it. The mark `unpolled`
that says whether that poll is still to come is the model's own (log entry 10): an acceptance sets it, and
of the register reads only STATUS's with BUSY = 0 clears it. -/
def Obligations.HazardIsStickyAndSetByTheHostAlone : Prop :=
  State.reset.hazard = false ∧
  (∀ s t : State, step s = .next t →
    (s.hazard = true → t.hazard = true) ∧
    (s.hazard = false → t.hazard = true →
      mover s = .host ∧ (s.busy = true ∨ s.unpolled = true) ∧
      ∃ op rest, s.program = op :: rest ∧
        ((∃ i v, op = .writeBuf .IN i v) ∨ (∃ i v, op = .writeBuf .CODE i v) ∨
          ∃ off v, op = opWR off v ∧ (off = Offset.inLen ∨ off = Offset.codeLen ∨ off = Offset.width)))) ∧
  (∀ (s t : State) (w : Word), s.busy = false → hostAccess (opWR Offset.cmd w) s = .next t →
    t.unpolled = true ∧ t.spoiled = false) ∧
  (∀ (s t : State) (off : Nat), hostAccess (opRD off) s = .next t →
    (t.unpolled = false ↔ s.unpolled = false ∨ (s.busy = false ∧ off = Offset.status))) ∧
  ∀ (s t : State) (v : Word), s.busy = true ∨ s.unpolled = true →
    (∀ i, hostAccess (.writeBuf .IN i v) s = .next t ∨ hostAccess (.writeBuf .CODE i v) s = .next t → t.hazard = true) ∧
    (∀ off, (off = Offset.inLen ∨ off = Offset.codeLen ∨ off = Offset.width) →
      hostAccess (opWR off v) s = .next t → t.hazard = true)

/-! ### Dictionaries -/

/-- 41_dictionary.md R123, R129 and R130: ED_INSERT, DD_GET and DD_BIND on the maps; every other register stays. -/
def Obligations.BindingsReceiveNextCode : Prop :=
  (∀ (q : Sequence) (s : State), q ≠ [] →
    ∃ ed : EncodeDict, edInsert q s = { s with ed := ed, nextCode := s.nextCode + 1 } ∧
      (∀ k, edLookup s.ed q = some k → ed = s.ed) ∧
      (edLookup s.ed q = none →
        ∀ r, edLookup ed r = if r = q then some s.nextCode.toNat else edLookup s.ed r)) ∧
  (∀ (s : State) (k : Nat), ddGet s k = if k < s.nextCode.toNat then ddFind s.dd k else none) ∧
  ∀ (q : Sequence) (s : State),
    ∃ dd : DecodeDict, ddBind q s = { s with dd := dd, nextCode := s.nextCode + 1 } ∧
      ∀ k, ddFind dd k = if k = s.nextCode.toNat then some q else ddFind s.dd k

/-- The walk of ED_LOOKUP's pseudocode over the trie answers what the map binds, on a dictionary ENCODE holds: an
inference from 41_dictionary.md R120, R122 and R124. The trie as a view of ED is the model's choice (log entry
17). -/
def Obligations.TrieWalkAnswersTheMap : Prop :=
  ∀ (ed : EncodeDict) (n : Nat), EncodeDictInv ed n → ∀ q, trieLookup ed q = edLookup ed q

/-- 41_dictionary.md R126: with CUR held as its code, one edge gives the lookup of the candidate. -/
def Obligations.CodeRegisterRefinesCur : Prop :=
  ∀ (ed : EncodeDict) (n : Nat), EncodeDictInv ed n → ∀ (cur : Sequence) (c : Byte),
    (cur = [] → edLookup ed (cur ++ [c]) = edChild ed .root c) ∧
    (∀ k, edLookup ed cur = some k → edLookup ed (cur ++ [c]) = edChild ed (.code k) c)

/-! ### The width controller -/

/-- 44_code_width.md R184 on the machine: while a dictionary is built, capacity is `NEXT_CODE < 2^MAX_BITS`, and
CUR_BITS follows the schedule. -/
def Obligations.CapacityAndWidthFollowTheSchedule : Prop :=
  ∀ s : State, BlockInv s → s.hazard = false → (s.phase = Phase.encLoop ∨ s.phase = Phase.decLoop) →
    (hasCapacity s = true ↔ s.nextCode.toNat < 2 ^ s.maxBits.toNat) ∧
    s.nextCode.toNat ≤ 2 ^ s.maxBits.toNat ∧
    (s.var = .static → s.curBits.toNat = s.maxBits.toNat) ∧
    (s.var = .dynamic → s.curBits.toNat = max 9 (min s.maxBits.toNat (bitLength s.nextCode.toNat))) ∧
    s.maxCode.toNat = 2 ^ s.curBits.toNat - 1

/-- 44_code_width.md R185: within a command, CUR_BITS changes only by +1 and stays in 9..MAX_BITS. -/
def Obligations.CodeWidthGrowsByOneAtMost : Prop :=
  ∀ s t : State, BlockInv s → s.hazard = false → step s = .next t → t.hazard = false →
    ((s.phase = Phase.encLoop ∧ t.phase = Phase.encLoop) ∨ (s.phase = Phase.decLoop ∧ t.phase = Phase.decLoop)) →
    (t.curBits = s.curBits ∨ t.curBits.toNat = s.curBits.toNat + 1) ∧
    9 ≤ t.curBits.toNat ∧ t.curBits.toNat ≤ t.maxBits.toNat

/-- 44_code_width.md R186: an emitted code is below 2^CUR_BITS, CUR_BITS taken at the emission, which is at most
2^MAX_BITS. -/
def Obligations.EmittedCodesFitTheWidth : Prop :=
  ∀ (s t : State) (i : Instr), BlockInv s → s.hazard = false → (i = .encSymbol ∨ i = .encEnd) →
    fetch s = .ok (some i) → exec i s = .next t → t.err = 0 → t.codePos = s.codePos + 1 →
    (elementCode t s.codePos.toNat).toNat < 2 ^ s.curBits.toNat ∧ 2 ^ s.curBits.toNat ≤ 2 ^ s.maxBits.toNat

/-! ### What the engine leaves alone -/

/-- The engine writes neither IN nor IN_LEN (10_state.md R26, 20_memory.md R60), nor DROP, HAZARD, the sizes and
the host's own state. -/
def Obligations.EngineLeavesTheHostsDataAlone : Prop :=
  ∀ (i : Instr) (s t : State), exec i s = .next t →
    t.inBuf = s.inBuf ∧ t.inLen = s.inLen ∧ t.drop = s.drop ∧ t.hazard = s.hazard ∧ t.unpolled = s.unpolled ∧
    t.inSize = s.inSize ∧ t.outSize = s.outSize ∧ t.codeSize = s.codeSize ∧
    t.rdata = s.rdata ∧ t.program = s.program ∧ t.schedule = s.schedule

/-- 10_state.md R25: only CONFIGURE (in DISPATCH) writes CFG; and only RESET besides, of the host's steps. -/
def Obligations.OnlyConfigureWritesCfg : Prop :=
  (∀ (i : Instr) (s t : State), s.spoiled = false → exec i s = .next t → cfgWord t ≠ cfgWord s →
    (∃ v m, (i = .configure v m ∨ (i = .dispatch ∧ decodeCommand s.opc = .ok (.configure v m))) ∧
      9 ≤ m ∧ m ≤ 16)) ∧
  ∀ (op : HostOp) (s t : State), hostAccess op s = .next t → op ≠ .reset → cfgWord t = cfgWord s

/-- 20_memory.md R69: CODE is written only through EMIT and DES_CODE, and OUT only in SER_INIT, SER_CODE and through
OUTPUT (abort apart, 60_exceptions.md R262), each at the positions from CODE_POS or OUT_POS on. -/
def Obligations.BuffersChangeOnlyWhereTheyAreWritten : Prop :=
  ∀ (i : Instr) (s t : State), s.spoiled = false → s.err = 0 → exec i s = .next t → t.err = 0 →
    (i ≠ .encSymbol → i ≠ .encEnd → i ≠ .desCode → t.codeBuf = s.codeBuf) ∧
    (∀ j, j ≠ s.codePos.toNat → elementCode t j = elementCode s j) ∧
    (i ≠ .serInit → i ≠ .serCode → i ≠ .decFirst → i ≠ .decNext → t.outBuf = s.outBuf) ∧
    (∀ j, i ≠ .serInit → (j < s.outPos.toNat ∨ t.outPos.toNat ≤ j) → elementOut t j = elementOut s j) ∧
    (i = .serInit → ∀ j, j ≠ 0 → elementOut t j = elementOut s j)

/-! ### Invariants -/

/-- The invariant of the block holds right after reset. -/
def Obligations.ResetMeetsTheInvariant : Prop := BlockInv State.reset

/-- Every step, of the host or of the engine, keeps the invariant of the block (10_state.md R24, R25, R33, R36, R40,
41_dictionary.md R131, 42_encoder.md R148, 44_code_width.md R184). -/
def Obligations.EveryStepKeepsTheInvariant : Prop :=
  ∀ s t : State, BlockInv s → step s = .next t → BlockInv t

/-- Every step from any state keeps the canonical form of the buffers, and their sizes. -/
def Obligations.EveryStepKeepsTheBuffersCanonical : Prop :=
  ∀ s t : State, step s = .next t →
    (Memory.wf s = true → Memory.wf t = true) ∧
    t.inSize = s.inSize ∧ t.outSize = s.outSize ∧ t.codeSize = s.codeSize

/-- 60_exceptions.md R274 (e): "There is no stuck engine state. BUSY = 1 always has an enabled micro-operation",
after a forbidden write too: every instruction completes in every state, and a loop whose position a forbidden
write left beyond its length takes its END, the model's choice (log entry 11). With HAZARD = 0, 20_memory.md
R69: every engine read lies inside its buffer. -/
def Obligations.TheEngineNeverStops : Prop :=
  (∀ (i : Instr) (s : State), ∃ t, exec i s = .next t) ∧
  (∀ s : State, s.busy = true → s.phase ≠ Phase.idle → s.phase.toNat ≤ 9 → mover s = .engine →
    ∃ i t, fetch (tick s) = .ok (some i) ∧ step s = .next t ∧ exec i (tick s) = .next t) ∧
  (∀ s : State, s.busy = true →
    (s.phase = Phase.encLoop → s.inLen.toNat < s.inPos.toNat → fetch s = .ok (some .encEnd)) ∧
    (s.phase = Phase.serLoop → s.codeLen.toNat < s.codePos.toNat → fetch s = .ok (some .serEnd)) ∧
    (s.phase = Phase.desLoop → s.desN.toNat < s.codePos.toNat → fetch s = .ok (some .desEnd)) ∧
    (s.phase = Phase.decLoop → s.codeLen.toNat < s.codePos.toNat → fetch s = .ok (some .decEnd))) ∧
  ∀ (s : State) (i : Instr), BlockInv s → s.hazard = false → fetch s = .ok (some i) →
    (i = .encSymbol → s.inPos.toNat < s.inSize.toNat) ∧
    (i = .desCode → s.inPos.toNat + s.serB.toNat ≤ s.inSize.toNat) ∧
    (i = .serCode ∨ i = .decFirst ∨ i = .decNext → s.codePos.toNat < s.codeSize.toNat)

/-- 42_encoder.md R148: InvariantViolation is never raised. -/
def Obligations.InvariantViolationIsNeverReported : Prop :=
  ∀ s t : State, BlockInv s → s.hazard = false → s.err ≠ 1 → step s = .next t → t.err ≠ 1

/-! ### Whole commands -/

/-- 46_host_commands.md R243: every accepted command completes or aborts within the bound. -/
def Obligations.EveryCommandEndsWithinItsBound : Prop :=
  ∀ (s : State) (w : Word), BlockInv s → s.hazard = false → Waiting s →
    ∃ n t, n ≤ commandBound w s ∧ run n (accept w s) = .next t ∧ t.busy = false

/-- 42_encoder.md R147: ENCODE of n ≥ 1 bytes emits between 1 and n codes; of none, none. -/
def Obligations.EncodeEmitsAtMostOneCodePerSymbol : Prop :=
  ∀ (s t : State) (n : Nat), BlockInv s → s.hazard = false → Waiting s → EndsWell n (accept 2 s) t →
    t.codeLen.toNat ≤ s.inLen.toNat ∧ (1 ≤ s.inLen.toNat → 1 ≤ t.codeLen.toNat)

/-- 42_encoder.md R146: ENCODE is a function of (IN[0..IN_LEN-1], VAR, MAX_BITS, CODE_SIZE) alone. -/
def Obligations.EncodeIsAFunctionOfItsInput : Prop :=
  ∀ (s s' t t' : State) (n n' : Nat), BlockInv s → BlockInv s' → s.hazard = false → s'.hazard = false →
    Waiting s → Waiting s' → s.inLen = s'.inLen → s.inLen.toNat ≤ s.inSize.toNat → s.inLen.toNat ≤ s'.inSize.toNat →
    (∀ i, i < s.inLen.toNat → elementIn s i = elementIn s' i) →
    s.var = s'.var → s.maxBits = s'.maxBits → s.codeSize = s'.codeSize →
    run n (accept 2 s) = .next t → t.busy = false → run n' (accept 2 s') = .next t' → t'.busy = false →
    t.err = t'.err ∧ t.codeLen = t'.codeLen ∧
      (t.err = 0 → t.width = t'.width ∧ ∀ i, i < t.codeLen.toNat → elementCode t i = elementCode t' i)

/-- 42_encoder.md R145: under equal MAX_BITS, STATIC and DYNAMIC emit equal code values for every input. -/
def Obligations.StaticAndDynamicEmitEqualCodes : Prop :=
  ∀ (s t t' : State) (n n' : Nat), BlockInv s → s.hazard = false → Waiting s →
    EndsWell n (accept 2 { s with var := .static }) t → EndsWell n' (accept 2 { s with var := .dynamic }) t' →
    t.codeLen = t'.codeLen ∧ ∀ i, i < t.codeLen.toNat → elementCode t i = elementCode t' i

/-- 43_decoder.md R168: DECODE of the codes of an ENCODE under the same CFG gives the input back. -/
def Obligations.DecodeUndoesEncode : Prop :=
  ∀ (s t : State) (n : Nat), BlockInv s → s.hazard = false → Waiting s → EndsWell n (accept 2 s) t →
    s.inLen.toNat ≤ s.outSize.toNat →
    ∃ m u, EndsWell m (accept 5 t) u ∧ u.outLen = s.inLen ∧
      ∀ i, i < s.inLen.toNat → elementOut u i = elementIn s i

/-- 45_stream_codec.md R209: DESERIALIZE of the frame a SERIALIZE wrote gives its codes and width back. -/
def Obligations.DeserializeUndoesSerialize : Prop :=
  ∀ (s t u : State) (n : Nat), BlockInv s → s.hazard = false → Waiting s → EndsWell n (accept 3 s) t →
    BlockInv u → u.hazard = false → Waiting u → u.var = s.var → u.maxBits = s.maxBits →
    u.inLen = t.outLen → u.inLen.toNat ≤ u.inSize.toNat → s.codeLen.toNat ≤ u.codeSize.toNat →
    (∀ i, i < t.outLen.toNat → elementIn u i = elementOut t i) →
    ∃ m v, EndsWell m (accept 4 u) v ∧ v.codeLen = s.codeLen ∧
      (∀ i, i < s.codeLen.toNat → elementCode v i = elementCode s i) ∧
      v.width = (if s.var = .dynamic then s.width else s.maxBits)

/-- 45_stream_codec.md R207: a SERIALIZE of n codes writes 2n bytes for STATIC and 1 + 2n for DYNAMIC. -/
def Obligations.FrameSizesAreAsStated : Prop :=
  ∀ (s t : State) (n : Nat), BlockInv s → s.hazard = false → Waiting s → EndsWell n (accept 3 s) t →
    t.outLen.toNat = headerBytes s + 2 * s.codeLen.toNat
end

