-- ==== Sys2Proof/Laws/State.lean ====
section
/-! SUPPORT. One lemma per field of State per shared update, so that no later proof unfolds a record update. -/

namespace Sys2Proof.Machine

/-! `tick` -/

@[simp] theorem tick_inSize (s : State) : (tick s).inSize = s.inSize := rfl
@[simp] theorem tick_outSize (s : State) : (tick s).outSize = s.outSize := rfl
@[simp] theorem tick_codeSize (s : State) : (tick s).codeSize = s.codeSize := rfl
@[simp] theorem tick_busy (s : State) : (tick s).busy = s.busy := rfl
@[simp] theorem tick_drop (s : State) : (tick s).drop = s.drop := rfl
@[simp] theorem tick_err (s : State) : (tick s).err = s.err := rfl
@[simp] theorem tick_maxBits (s : State) : (tick s).maxBits = s.maxBits := rfl
@[simp] theorem tick_var (s : State) : (tick s).var = s.var := rfl
@[simp] theorem tick_inLen (s : State) : (tick s).inLen = s.inLen := rfl
@[simp] theorem tick_outLen (s : State) : (tick s).outLen = s.outLen := rfl
@[simp] theorem tick_codeLen (s : State) : (tick s).codeLen = s.codeLen := rfl
@[simp] theorem tick_width (s : State) : (tick s).width = s.width := rfl
@[simp] theorem tick_inBuf (s : State) : (tick s).inBuf = s.inBuf := rfl
@[simp] theorem tick_outBuf (s : State) : (tick s).outBuf = s.outBuf := rfl
@[simp] theorem tick_codeBuf (s : State) : (tick s).codeBuf = s.codeBuf := rfl
@[simp] theorem tick_phase (s : State) : (tick s).phase = s.phase := rfl
@[simp] theorem tick_opc (s : State) : (tick s).opc = s.opc := rfl
@[simp] theorem tick_chain (s : State) : (tick s).chain = s.chain := rfl
@[simp] theorem tick_nextCode (s : State) : (tick s).nextCode = s.nextCode := rfl
@[simp] theorem tick_curBits (s : State) : (tick s).curBits = s.curBits := rfl
@[simp] theorem tick_maxCode (s : State) : (tick s).maxCode = s.maxCode := rfl
@[simp] theorem tick_ed (s : State) : (tick s).ed = s.ed := rfl
@[simp] theorem tick_dd (s : State) : (tick s).dd = s.dd := rfl
@[simp] theorem tick_cur (s : State) : (tick s).cur = s.cur := rfl
@[simp] theorem tick_prev (s : State) : (tick s).prev = s.prev := rfl
@[simp] theorem tick_prevValid (s : State) : (tick s).prevValid = s.prevValid := rfl
@[simp] theorem tick_inPos (s : State) : (tick s).inPos = s.inPos := rfl
@[simp] theorem tick_outPos (s : State) : (tick s).outPos = s.outPos := rfl
@[simp] theorem tick_codePos (s : State) : (tick s).codePos = s.codePos := rfl
@[simp] theorem tick_serB (s : State) : (tick s).serB = s.serB := rfl
@[simp] theorem tick_desN (s : State) : (tick s).desN = s.desN := rfl
@[simp] theorem tick_desH (s : State) : (tick s).desH = s.desH := rfl
@[simp] theorem tick_hazard (s : State) : (tick s).hazard = s.hazard := rfl
@[simp] theorem tick_spoiled (s : State) : (tick s).spoiled = s.spoiled := rfl
@[simp] theorem tick_unpolled (s : State) : (tick s).unpolled = s.unpolled := rfl
@[simp] theorem tick_draws (s : State) : (tick s).draws = s.draws := rfl
@[simp] theorem tick_rdata (s : State) : (tick s).rdata = s.rdata := rfl
@[simp] theorem tick_program (s : State) : (tick s).program = s.program := rfl
@[simp] theorem tick_schedule (s : State) : (tick s).schedule = s.schedule.tail := rfl

/-! `accept` -/

@[simp] theorem accept_inSize (w : Word) (s : State) : (accept w s).inSize = s.inSize := rfl
@[simp] theorem accept_outSize (w : Word) (s : State) : (accept w s).outSize = s.outSize := rfl
@[simp] theorem accept_codeSize (w : Word) (s : State) : (accept w s).codeSize = s.codeSize := rfl
@[simp] theorem accept_busy (w : Word) (s : State) : (accept w s).busy = true := rfl
@[simp] theorem accept_drop (w : Word) (s : State) : (accept w s).drop = s.drop := rfl
@[simp] theorem accept_err (w : Word) (s : State) : (accept w s).err = 0 := rfl
@[simp] theorem accept_maxBits (w : Word) (s : State) : (accept w s).maxBits = s.maxBits := rfl
@[simp] theorem accept_var (w : Word) (s : State) : (accept w s).var = s.var := rfl
@[simp] theorem accept_inLen (w : Word) (s : State) : (accept w s).inLen = s.inLen := rfl
@[simp] theorem accept_outLen (w : Word) (s : State) : (accept w s).outLen = s.outLen := rfl
@[simp] theorem accept_codeLen (w : Word) (s : State) : (accept w s).codeLen = s.codeLen := rfl
@[simp] theorem accept_width (w : Word) (s : State) : (accept w s).width = s.width := rfl
@[simp] theorem accept_inBuf (w : Word) (s : State) : (accept w s).inBuf = s.inBuf := rfl
@[simp] theorem accept_outBuf (w : Word) (s : State) : (accept w s).outBuf = s.outBuf := rfl
@[simp] theorem accept_codeBuf (w : Word) (s : State) : (accept w s).codeBuf = s.codeBuf := rfl
@[simp] theorem accept_phase (w : Word) (s : State) : (accept w s).phase = Phase.dispatch := rfl
@[simp] theorem accept_opc (w : Word) (s : State) : (accept w s).opc = w := rfl
@[simp] theorem accept_chain (w : Word) (s : State) : (accept w s).chain = false := rfl
@[simp] theorem accept_nextCode (w : Word) (s : State) : (accept w s).nextCode = s.nextCode := rfl
@[simp] theorem accept_curBits (w : Word) (s : State) : (accept w s).curBits = s.curBits := rfl
@[simp] theorem accept_maxCode (w : Word) (s : State) : (accept w s).maxCode = s.maxCode := rfl
@[simp] theorem accept_ed (w : Word) (s : State) : (accept w s).ed = s.ed := rfl
@[simp] theorem accept_dd (w : Word) (s : State) : (accept w s).dd = s.dd := rfl
@[simp] theorem accept_cur (w : Word) (s : State) : (accept w s).cur = s.cur := rfl
@[simp] theorem accept_prev (w : Word) (s : State) : (accept w s).prev = s.prev := rfl
@[simp] theorem accept_prevValid (w : Word) (s : State) : (accept w s).prevValid = s.prevValid := rfl
@[simp] theorem accept_inPos (w : Word) (s : State) : (accept w s).inPos = s.inPos := rfl
@[simp] theorem accept_outPos (w : Word) (s : State) : (accept w s).outPos = s.outPos := rfl
@[simp] theorem accept_codePos (w : Word) (s : State) : (accept w s).codePos = s.codePos := rfl
@[simp] theorem accept_serB (w : Word) (s : State) : (accept w s).serB = s.serB := rfl
@[simp] theorem accept_desN (w : Word) (s : State) : (accept w s).desN = s.desN := rfl
@[simp] theorem accept_desH (w : Word) (s : State) : (accept w s).desH = s.desH := rfl
@[simp] theorem accept_hazard (w : Word) (s : State) : (accept w s).hazard = s.hazard := rfl
@[simp] theorem accept_spoiled (w : Word) (s : State) : (accept w s).spoiled = false := rfl
@[simp] theorem accept_unpolled (w : Word) (s : State) : (accept w s).unpolled = true := rfl
@[simp] theorem accept_draws (w : Word) (s : State) : (accept w s).draws = s.draws := rfl
@[simp] theorem accept_rdata (w : Word) (s : State) : (accept w s).rdata = s.rdata := rfl
@[simp] theorem accept_program (w : Word) (s : State) : (accept w s).program = s.program := rfl
@[simp] theorem accept_schedule (w : Word) (s : State) : (accept w s).schedule = s.schedule := rfl

/-! `dropCommand` -/

@[simp] theorem dropCommand_inSize (s : State) : (dropCommand s).inSize = s.inSize := rfl
@[simp] theorem dropCommand_outSize (s : State) : (dropCommand s).outSize = s.outSize := rfl
@[simp] theorem dropCommand_codeSize (s : State) : (dropCommand s).codeSize = s.codeSize := rfl
@[simp] theorem dropCommand_busy (s : State) : (dropCommand s).busy = s.busy := rfl
@[simp] theorem dropCommand_drop (s : State) : (dropCommand s).drop = true := rfl
@[simp] theorem dropCommand_err (s : State) : (dropCommand s).err = s.err := rfl
@[simp] theorem dropCommand_maxBits (s : State) : (dropCommand s).maxBits = s.maxBits := rfl
@[simp] theorem dropCommand_var (s : State) : (dropCommand s).var = s.var := rfl
@[simp] theorem dropCommand_inLen (s : State) : (dropCommand s).inLen = s.inLen := rfl
@[simp] theorem dropCommand_outLen (s : State) : (dropCommand s).outLen = s.outLen := rfl
@[simp] theorem dropCommand_codeLen (s : State) : (dropCommand s).codeLen = s.codeLen := rfl
@[simp] theorem dropCommand_width (s : State) : (dropCommand s).width = s.width := rfl
@[simp] theorem dropCommand_inBuf (s : State) : (dropCommand s).inBuf = s.inBuf := rfl
@[simp] theorem dropCommand_outBuf (s : State) : (dropCommand s).outBuf = s.outBuf := rfl
@[simp] theorem dropCommand_codeBuf (s : State) : (dropCommand s).codeBuf = s.codeBuf := rfl
@[simp] theorem dropCommand_phase (s : State) : (dropCommand s).phase = s.phase := rfl
@[simp] theorem dropCommand_opc (s : State) : (dropCommand s).opc = s.opc := rfl
@[simp] theorem dropCommand_chain (s : State) : (dropCommand s).chain = s.chain := rfl
@[simp] theorem dropCommand_nextCode (s : State) : (dropCommand s).nextCode = s.nextCode := rfl
@[simp] theorem dropCommand_curBits (s : State) : (dropCommand s).curBits = s.curBits := rfl
@[simp] theorem dropCommand_maxCode (s : State) : (dropCommand s).maxCode = s.maxCode := rfl
@[simp] theorem dropCommand_ed (s : State) : (dropCommand s).ed = s.ed := rfl
@[simp] theorem dropCommand_dd (s : State) : (dropCommand s).dd = s.dd := rfl
@[simp] theorem dropCommand_cur (s : State) : (dropCommand s).cur = s.cur := rfl
@[simp] theorem dropCommand_prev (s : State) : (dropCommand s).prev = s.prev := rfl
@[simp] theorem dropCommand_prevValid (s : State) : (dropCommand s).prevValid = s.prevValid := rfl
@[simp] theorem dropCommand_inPos (s : State) : (dropCommand s).inPos = s.inPos := rfl
@[simp] theorem dropCommand_outPos (s : State) : (dropCommand s).outPos = s.outPos := rfl
@[simp] theorem dropCommand_codePos (s : State) : (dropCommand s).codePos = s.codePos := rfl
@[simp] theorem dropCommand_serB (s : State) : (dropCommand s).serB = s.serB := rfl
@[simp] theorem dropCommand_desN (s : State) : (dropCommand s).desN = s.desN := rfl
@[simp] theorem dropCommand_desH (s : State) : (dropCommand s).desH = s.desH := rfl
@[simp] theorem dropCommand_hazard (s : State) : (dropCommand s).hazard = s.hazard := rfl
@[simp] theorem dropCommand_spoiled (s : State) : (dropCommand s).spoiled = s.spoiled := rfl
@[simp] theorem dropCommand_unpolled (s : State) : (dropCommand s).unpolled = s.unpolled := rfl
@[simp] theorem dropCommand_draws (s : State) : (dropCommand s).draws = s.draws := rfl
@[simp] theorem dropCommand_rdata (s : State) : (dropCommand s).rdata = s.rdata := rfl
@[simp] theorem dropCommand_program (s : State) : (dropCommand s).program = s.program := rfl
@[simp] theorem dropCommand_schedule (s : State) : (dropCommand s).schedule = s.schedule := rfl

/-! `spoilResults` -/

@[simp] theorem spoilResults_inSize (s : State) : (spoilResults s).inSize = s.inSize := rfl
@[simp] theorem spoilResults_outSize (s : State) : (spoilResults s).outSize = s.outSize := rfl
@[simp] theorem spoilResults_codeSize (s : State) : (spoilResults s).codeSize = s.codeSize := rfl
@[simp] theorem spoilResults_busy (s : State) : (spoilResults s).busy = s.busy := rfl
@[simp] theorem spoilResults_drop (s : State) : (spoilResults s).drop = s.drop := rfl
@[simp] theorem spoilResults_err (s : State) : (spoilResults s).err = if s.spoiled then freeErr s.draws else s.err := rfl
@[simp] theorem spoilResults_maxBits (s : State) : (spoilResults s).maxBits = (if s.spoiled && writesCfg s.opc then freeMaxBits s.draws else s.maxBits) := rfl
@[simp] theorem spoilResults_var (s : State) : (spoilResults s).var = (if s.spoiled && writesCfg s.opc then freeVar s.draws else s.var) := rfl
@[simp] theorem spoilResults_inLen (s : State) : (spoilResults s).inLen = s.inLen := rfl
@[simp] theorem spoilResults_outLen (s : State) : (spoilResults s).outLen = (if s.spoiled && writesOut s.opc then Config.freeBits 32 .outLen s.draws else s.outLen) := rfl
@[simp] theorem spoilResults_codeLen (s : State) : (spoilResults s).codeLen = (if s.spoiled && writesCode s.opc then Config.freeBits 32 .codeLen s.draws else s.codeLen) := rfl
@[simp] theorem spoilResults_width (s : State) : (spoilResults s).width = (if s.spoiled && writesCode s.opc then Config.freeBits 8 .width s.draws else s.width) := rfl
@[simp] theorem spoilResults_inBuf (s : State) : (spoilResults s).inBuf = s.inBuf := rfl
@[simp] theorem spoilResults_outBuf (s : State) : (spoilResults s).outBuf = (if s.spoiled && writesOut s.opc then ⟨s.draws, []⟩ else s.outBuf) := rfl
@[simp] theorem spoilResults_codeBuf (s : State) : (spoilResults s).codeBuf = (if s.spoiled && writesCode s.opc then ⟨s.draws, []⟩ else s.codeBuf) := rfl
@[simp] theorem spoilResults_phase (s : State) : (spoilResults s).phase = s.phase := rfl
@[simp] theorem spoilResults_opc (s : State) : (spoilResults s).opc = s.opc := rfl
@[simp] theorem spoilResults_chain (s : State) : (spoilResults s).chain = s.chain := rfl
@[simp] theorem spoilResults_nextCode (s : State) : (spoilResults s).nextCode = s.nextCode := rfl
@[simp] theorem spoilResults_curBits (s : State) : (spoilResults s).curBits = s.curBits := rfl
@[simp] theorem spoilResults_maxCode (s : State) : (spoilResults s).maxCode = s.maxCode := rfl
@[simp] theorem spoilResults_ed (s : State) : (spoilResults s).ed = s.ed := rfl
@[simp] theorem spoilResults_dd (s : State) : (spoilResults s).dd = s.dd := rfl
@[simp] theorem spoilResults_cur (s : State) : (spoilResults s).cur = s.cur := rfl
@[simp] theorem spoilResults_prev (s : State) : (spoilResults s).prev = s.prev := rfl
@[simp] theorem spoilResults_prevValid (s : State) : (spoilResults s).prevValid = s.prevValid := rfl
@[simp] theorem spoilResults_inPos (s : State) : (spoilResults s).inPos = s.inPos := rfl
@[simp] theorem spoilResults_outPos (s : State) : (spoilResults s).outPos = s.outPos := rfl
@[simp] theorem spoilResults_codePos (s : State) : (spoilResults s).codePos = s.codePos := rfl
@[simp] theorem spoilResults_serB (s : State) : (spoilResults s).serB = s.serB := rfl
@[simp] theorem spoilResults_desN (s : State) : (spoilResults s).desN = s.desN := rfl
@[simp] theorem spoilResults_desH (s : State) : (spoilResults s).desH = s.desH := rfl
@[simp] theorem spoilResults_hazard (s : State) : (spoilResults s).hazard = s.hazard := rfl
@[simp] theorem spoilResults_spoiled (s : State) : (spoilResults s).spoiled = false := rfl
@[simp] theorem spoilResults_unpolled (s : State) : (spoilResults s).unpolled = s.unpolled := rfl
@[simp] theorem spoilResults_draws (s : State) : (spoilResults s).draws = if s.spoiled then s.draws + 1 else s.draws := rfl
@[simp] theorem spoilResults_rdata (s : State) : (spoilResults s).rdata = s.rdata := rfl
@[simp] theorem spoilResults_program (s : State) : (spoilResults s).program = s.program := rfl
@[simp] theorem spoilResults_schedule (s : State) : (spoilResults s).schedule = s.schedule := rfl

/-! `complete` -/

@[simp] theorem complete_inSize (s : State) : (complete s).inSize = (spoilResults s).inSize := rfl
@[simp] theorem complete_outSize (s : State) : (complete s).outSize = (spoilResults s).outSize := rfl
@[simp] theorem complete_codeSize (s : State) : (complete s).codeSize = (spoilResults s).codeSize := rfl
@[simp] theorem complete_busy (s : State) : (complete s).busy = false := rfl
@[simp] theorem complete_drop (s : State) : (complete s).drop = (spoilResults s).drop := rfl
@[simp] theorem complete_err (s : State) : (complete s).err = (spoilResults s).err := rfl
@[simp] theorem complete_maxBits (s : State) : (complete s).maxBits = (spoilResults s).maxBits := rfl
@[simp] theorem complete_var (s : State) : (complete s).var = (spoilResults s).var := rfl
@[simp] theorem complete_inLen (s : State) : (complete s).inLen = (spoilResults s).inLen := rfl
@[simp] theorem complete_outLen (s : State) : (complete s).outLen = (spoilResults s).outLen := rfl
@[simp] theorem complete_codeLen (s : State) : (complete s).codeLen = (spoilResults s).codeLen := rfl
@[simp] theorem complete_width (s : State) : (complete s).width = (spoilResults s).width := rfl
@[simp] theorem complete_inBuf (s : State) : (complete s).inBuf = (spoilResults s).inBuf := rfl
@[simp] theorem complete_outBuf (s : State) : (complete s).outBuf = (spoilResults s).outBuf := rfl
@[simp] theorem complete_codeBuf (s : State) : (complete s).codeBuf = (spoilResults s).codeBuf := rfl
@[simp] theorem complete_phase (s : State) : (complete s).phase = Phase.idle := rfl
@[simp] theorem complete_opc (s : State) : (complete s).opc = (spoilResults s).opc := rfl
@[simp] theorem complete_chain (s : State) : (complete s).chain = (spoilResults s).chain := rfl
@[simp] theorem complete_nextCode (s : State) : (complete s).nextCode = (spoilResults s).nextCode := rfl
@[simp] theorem complete_curBits (s : State) : (complete s).curBits = (spoilResults s).curBits := rfl
@[simp] theorem complete_maxCode (s : State) : (complete s).maxCode = (spoilResults s).maxCode := rfl
@[simp] theorem complete_ed (s : State) : (complete s).ed = (spoilResults s).ed := rfl
@[simp] theorem complete_dd (s : State) : (complete s).dd = (spoilResults s).dd := rfl
@[simp] theorem complete_cur (s : State) : (complete s).cur = (spoilResults s).cur := rfl
@[simp] theorem complete_prev (s : State) : (complete s).prev = (spoilResults s).prev := rfl
@[simp] theorem complete_prevValid (s : State) : (complete s).prevValid = (spoilResults s).prevValid := rfl
@[simp] theorem complete_inPos (s : State) : (complete s).inPos = (spoilResults s).inPos := rfl
@[simp] theorem complete_outPos (s : State) : (complete s).outPos = (spoilResults s).outPos := rfl
@[simp] theorem complete_codePos (s : State) : (complete s).codePos = (spoilResults s).codePos := rfl
@[simp] theorem complete_serB (s : State) : (complete s).serB = (spoilResults s).serB := rfl
@[simp] theorem complete_desN (s : State) : (complete s).desN = (spoilResults s).desN := rfl
@[simp] theorem complete_desH (s : State) : (complete s).desH = (spoilResults s).desH := rfl
@[simp] theorem complete_hazard (s : State) : (complete s).hazard = (spoilResults s).hazard := rfl
@[simp] theorem complete_spoiled (s : State) : (complete s).spoiled = (spoilResults s).spoiled := rfl
@[simp] theorem complete_unpolled (s : State) : (complete s).unpolled = (spoilResults s).unpolled := rfl
@[simp] theorem complete_draws (s : State) : (complete s).draws = (spoilResults s).draws := rfl
@[simp] theorem complete_rdata (s : State) : (complete s).rdata = (spoilResults s).rdata := rfl
@[simp] theorem complete_program (s : State) : (complete s).program = (spoilResults s).program := rfl
@[simp] theorem complete_schedule (s : State) : (complete s).schedule = (spoilResults s).schedule := rfl

/-! `recordError` -/

@[simp] theorem recordError_inSize (half : FailingHalf) (e : ErrorKind) (s : State) : (recordError half e s).inSize = s.inSize := rfl
@[simp] theorem recordError_outSize (half : FailingHalf) (e : ErrorKind) (s : State) : (recordError half e s).outSize = s.outSize := rfl
@[simp] theorem recordError_codeSize (half : FailingHalf) (e : ErrorKind) (s : State) : (recordError half e s).codeSize = s.codeSize := rfl
@[simp] theorem recordError_busy (half : FailingHalf) (e : ErrorKind) (s : State) : (recordError half e s).busy = false := rfl
@[simp] theorem recordError_drop (half : FailingHalf) (e : ErrorKind) (s : State) : (recordError half e s).drop = s.drop := rfl
@[simp] theorem recordError_err (half : FailingHalf) (e : ErrorKind) (s : State) : (recordError half e s).err = errorCode e := rfl
@[simp] theorem recordError_maxBits (half : FailingHalf) (e : ErrorKind) (s : State) : (recordError half e s).maxBits = s.maxBits := rfl
@[simp] theorem recordError_var (half : FailingHalf) (e : ErrorKind) (s : State) : (recordError half e s).var = s.var := rfl
@[simp] theorem recordError_inLen (half : FailingHalf) (e : ErrorKind) (s : State) : (recordError half e s).inLen = s.inLen := rfl
@[simp] theorem recordError_outLen (half : FailingHalf) (e : ErrorKind) (s : State) : (recordError half e s).outLen = if half = .toOut then 0 else s.outLen := rfl
@[simp] theorem recordError_codeLen (half : FailingHalf) (e : ErrorKind) (s : State) : (recordError half e s).codeLen = if half = .toCode then 0 else s.codeLen := rfl
@[simp] theorem recordError_width (half : FailingHalf) (e : ErrorKind) (s : State) : (recordError half e s).width = s.width := rfl
@[simp] theorem recordError_inBuf (half : FailingHalf) (e : ErrorKind) (s : State) : (recordError half e s).inBuf = s.inBuf := rfl
@[simp] theorem recordError_outBuf (half : FailingHalf) (e : ErrorKind) (s : State) : (recordError half e s).outBuf = if half = .toOut then ⟨s.draws, []⟩ else s.outBuf := rfl
@[simp] theorem recordError_codeBuf (half : FailingHalf) (e : ErrorKind) (s : State) : (recordError half e s).codeBuf = if half = .toCode then ⟨s.draws, []⟩ else s.codeBuf := rfl
@[simp] theorem recordError_phase (half : FailingHalf) (e : ErrorKind) (s : State) : (recordError half e s).phase = Phase.idle := rfl
@[simp] theorem recordError_opc (half : FailingHalf) (e : ErrorKind) (s : State) : (recordError half e s).opc = s.opc := rfl
@[simp] theorem recordError_chain (half : FailingHalf) (e : ErrorKind) (s : State) : (recordError half e s).chain = false := rfl
@[simp] theorem recordError_nextCode (half : FailingHalf) (e : ErrorKind) (s : State) : (recordError half e s).nextCode = s.nextCode := rfl
@[simp] theorem recordError_curBits (half : FailingHalf) (e : ErrorKind) (s : State) : (recordError half e s).curBits = s.curBits := rfl
@[simp] theorem recordError_maxCode (half : FailingHalf) (e : ErrorKind) (s : State) : (recordError half e s).maxCode = s.maxCode := rfl
@[simp] theorem recordError_ed (half : FailingHalf) (e : ErrorKind) (s : State) : (recordError half e s).ed = s.ed := rfl
@[simp] theorem recordError_dd (half : FailingHalf) (e : ErrorKind) (s : State) : (recordError half e s).dd = s.dd := rfl
@[simp] theorem recordError_cur (half : FailingHalf) (e : ErrorKind) (s : State) : (recordError half e s).cur = s.cur := rfl
@[simp] theorem recordError_prev (half : FailingHalf) (e : ErrorKind) (s : State) : (recordError half e s).prev = s.prev := rfl
@[simp] theorem recordError_prevValid (half : FailingHalf) (e : ErrorKind) (s : State) : (recordError half e s).prevValid = s.prevValid := rfl
@[simp] theorem recordError_inPos (half : FailingHalf) (e : ErrorKind) (s : State) : (recordError half e s).inPos = s.inPos := rfl
@[simp] theorem recordError_outPos (half : FailingHalf) (e : ErrorKind) (s : State) : (recordError half e s).outPos = s.outPos := rfl
@[simp] theorem recordError_codePos (half : FailingHalf) (e : ErrorKind) (s : State) : (recordError half e s).codePos = s.codePos := rfl
@[simp] theorem recordError_serB (half : FailingHalf) (e : ErrorKind) (s : State) : (recordError half e s).serB = s.serB := rfl
@[simp] theorem recordError_desN (half : FailingHalf) (e : ErrorKind) (s : State) : (recordError half e s).desN = s.desN := rfl
@[simp] theorem recordError_desH (half : FailingHalf) (e : ErrorKind) (s : State) : (recordError half e s).desH = s.desH := rfl
@[simp] theorem recordError_hazard (half : FailingHalf) (e : ErrorKind) (s : State) : (recordError half e s).hazard = s.hazard := rfl
@[simp] theorem recordError_spoiled (half : FailingHalf) (e : ErrorKind) (s : State) : (recordError half e s).spoiled = s.spoiled := rfl
@[simp] theorem recordError_unpolled (half : FailingHalf) (e : ErrorKind) (s : State) : (recordError half e s).unpolled = s.unpolled := rfl
@[simp] theorem recordError_draws (half : FailingHalf) (e : ErrorKind) (s : State) : (recordError half e s).draws = s.draws + 1 := rfl
@[simp] theorem recordError_rdata (half : FailingHalf) (e : ErrorKind) (s : State) : (recordError half e s).rdata = s.rdata := rfl
@[simp] theorem recordError_program (half : FailingHalf) (e : ErrorKind) (s : State) : (recordError half e s).program = s.program := rfl
@[simp] theorem recordError_schedule (half : FailingHalf) (e : ErrorKind) (s : State) : (recordError half e s).schedule = s.schedule := rfl

/-! `discardInternal` -/

@[simp] theorem discardInternal_inSize (s : State) : (discardInternal s).inSize = s.inSize := rfl
@[simp] theorem discardInternal_outSize (s : State) : (discardInternal s).outSize = s.outSize := rfl
@[simp] theorem discardInternal_codeSize (s : State) : (discardInternal s).codeSize = s.codeSize := rfl
@[simp] theorem discardInternal_busy (s : State) : (discardInternal s).busy = s.busy := rfl
@[simp] theorem discardInternal_drop (s : State) : (discardInternal s).drop = s.drop := rfl
@[simp] theorem discardInternal_err (s : State) : (discardInternal s).err = s.err := rfl
@[simp] theorem discardInternal_maxBits (s : State) : (discardInternal s).maxBits = s.maxBits := rfl
@[simp] theorem discardInternal_var (s : State) : (discardInternal s).var = s.var := rfl
@[simp] theorem discardInternal_inLen (s : State) : (discardInternal s).inLen = s.inLen := rfl
@[simp] theorem discardInternal_outLen (s : State) : (discardInternal s).outLen = s.outLen := rfl
@[simp] theorem discardInternal_codeLen (s : State) : (discardInternal s).codeLen = s.codeLen := rfl
@[simp] theorem discardInternal_width (s : State) : (discardInternal s).width = s.width := rfl
@[simp] theorem discardInternal_inBuf (s : State) : (discardInternal s).inBuf = s.inBuf := rfl
@[simp] theorem discardInternal_outBuf (s : State) : (discardInternal s).outBuf = s.outBuf := rfl
@[simp] theorem discardInternal_codeBuf (s : State) : (discardInternal s).codeBuf = s.codeBuf := rfl
@[simp] theorem discardInternal_phase (s : State) : (discardInternal s).phase = s.phase := rfl
@[simp] theorem discardInternal_opc (s : State) : (discardInternal s).opc = Config.freeBits 32 .opc s.draws := rfl
@[simp] theorem discardInternal_chain (s : State) : (discardInternal s).chain = s.chain := rfl
@[simp] theorem discardInternal_nextCode (s : State) : (discardInternal s).nextCode = Config.freeBits 17 .nextCode s.draws := rfl
@[simp] theorem discardInternal_curBits (s : State) : (discardInternal s).curBits = Config.freeBits 5 .curBits s.draws := rfl
@[simp] theorem discardInternal_maxCode (s : State) : (discardInternal s).maxCode = Config.freeBits 17 .maxCode s.draws := rfl
@[simp] theorem discardInternal_ed (s : State) : (discardInternal s).ed = Config.freeEncodeDict s.draws := rfl
@[simp] theorem discardInternal_dd (s : State) : (discardInternal s).dd = Config.freeDecodeDict s.draws := rfl
@[simp] theorem discardInternal_cur (s : State) : (discardInternal s).cur = Config.freeSequence .cur s.draws := rfl
@[simp] theorem discardInternal_prev (s : State) : (discardInternal s).prev = Config.freeSequence .prev s.draws := rfl
@[simp] theorem discardInternal_prevValid (s : State) : (discardInternal s).prevValid = Config.freeBit .prevValid s.draws := rfl
@[simp] theorem discardInternal_inPos (s : State) : (discardInternal s).inPos = Config.freeBits 32 .inPos s.draws := rfl
@[simp] theorem discardInternal_outPos (s : State) : (discardInternal s).outPos = Config.freeBits 32 .outPos s.draws := rfl
@[simp] theorem discardInternal_codePos (s : State) : (discardInternal s).codePos = Config.freeBits 32 .codePos s.draws := rfl
@[simp] theorem discardInternal_serB (s : State) : (discardInternal s).serB = Config.freeBits 2 .serB s.draws := rfl
@[simp] theorem discardInternal_desN (s : State) : (discardInternal s).desN = Config.freeBits 32 .desN s.draws := rfl
@[simp] theorem discardInternal_desH (s : State) : (discardInternal s).desH = Config.freeBits 8 .desH s.draws := rfl
@[simp] theorem discardInternal_hazard (s : State) : (discardInternal s).hazard = s.hazard := rfl
@[simp] theorem discardInternal_spoiled (s : State) : (discardInternal s).spoiled = s.spoiled := rfl
@[simp] theorem discardInternal_unpolled (s : State) : (discardInternal s).unpolled = s.unpolled := rfl
@[simp] theorem discardInternal_draws (s : State) : (discardInternal s).draws = s.draws + 1 := rfl
@[simp] theorem discardInternal_rdata (s : State) : (discardInternal s).rdata = s.rdata := rfl
@[simp] theorem discardInternal_program (s : State) : (discardInternal s).program = s.program := rfl
@[simp] theorem discardInternal_schedule (s : State) : (discardInternal s).schedule = s.schedule := rfl

/-! `resetEvent` -/

@[simp] theorem resetEvent_inSize (s : State) : (resetEvent s).inSize = s.inSize := rfl
@[simp] theorem resetEvent_outSize (s : State) : (resetEvent s).outSize = s.outSize := rfl
@[simp] theorem resetEvent_codeSize (s : State) : (resetEvent s).codeSize = s.codeSize := rfl
@[simp] theorem resetEvent_busy (s : State) : (resetEvent s).busy = false := rfl
@[simp] theorem resetEvent_drop (s : State) : (resetEvent s).drop = false := rfl
@[simp] theorem resetEvent_err (s : State) : (resetEvent s).err = 0 := rfl
@[simp] theorem resetEvent_maxBits (s : State) : (resetEvent s).maxBits = 12 := rfl
@[simp] theorem resetEvent_var (s : State) : (resetEvent s).var = .dynamic := rfl
@[simp] theorem resetEvent_inLen (s : State) : (resetEvent s).inLen = 0 := rfl
@[simp] theorem resetEvent_outLen (s : State) : (resetEvent s).outLen = 0 := rfl
@[simp] theorem resetEvent_codeLen (s : State) : (resetEvent s).codeLen = 0 := rfl
@[simp] theorem resetEvent_width (s : State) : (resetEvent s).width = 0 := rfl
@[simp] theorem resetEvent_inBuf (s : State) : (resetEvent s).inBuf = ⟨s.draws, []⟩ := rfl
@[simp] theorem resetEvent_outBuf (s : State) : (resetEvent s).outBuf = ⟨s.draws, []⟩ := rfl
@[simp] theorem resetEvent_codeBuf (s : State) : (resetEvent s).codeBuf = ⟨s.draws, []⟩ := rfl
@[simp] theorem resetEvent_phase (s : State) : (resetEvent s).phase = Phase.idle := rfl
@[simp] theorem resetEvent_opc (s : State) : (resetEvent s).opc = Config.freeBits 32 .opc (s.draws + 1) := rfl
@[simp] theorem resetEvent_chain (s : State) : (resetEvent s).chain = Config.freeBit .chain s.draws := rfl
@[simp] theorem resetEvent_nextCode (s : State) : (resetEvent s).nextCode = Config.freeBits 17 .nextCode (s.draws + 1) := rfl
@[simp] theorem resetEvent_curBits (s : State) : (resetEvent s).curBits = Config.freeBits 5 .curBits (s.draws + 1) := rfl
@[simp] theorem resetEvent_maxCode (s : State) : (resetEvent s).maxCode = Config.freeBits 17 .maxCode (s.draws + 1) := rfl
@[simp] theorem resetEvent_ed (s : State) : (resetEvent s).ed = Config.freeEncodeDict (s.draws + 1) := rfl
@[simp] theorem resetEvent_dd (s : State) : (resetEvent s).dd = Config.freeDecodeDict (s.draws + 1) := rfl
@[simp] theorem resetEvent_cur (s : State) : (resetEvent s).cur = Config.freeSequence .cur (s.draws + 1) := rfl
@[simp] theorem resetEvent_prev (s : State) : (resetEvent s).prev = Config.freeSequence .prev (s.draws + 1) := rfl
@[simp] theorem resetEvent_prevValid (s : State) : (resetEvent s).prevValid = Config.freeBit .prevValid (s.draws + 1) := rfl
@[simp] theorem resetEvent_inPos (s : State) : (resetEvent s).inPos = Config.freeBits 32 .inPos (s.draws + 1) := rfl
@[simp] theorem resetEvent_outPos (s : State) : (resetEvent s).outPos = Config.freeBits 32 .outPos (s.draws + 1) := rfl
@[simp] theorem resetEvent_codePos (s : State) : (resetEvent s).codePos = Config.freeBits 32 .codePos (s.draws + 1) := rfl
@[simp] theorem resetEvent_serB (s : State) : (resetEvent s).serB = Config.freeBits 2 .serB (s.draws + 1) := rfl
@[simp] theorem resetEvent_desN (s : State) : (resetEvent s).desN = Config.freeBits 32 .desN (s.draws + 1) := rfl
@[simp] theorem resetEvent_desH (s : State) : (resetEvent s).desH = Config.freeBits 8 .desH (s.draws + 1) := rfl
@[simp] theorem resetEvent_hazard (s : State) : (resetEvent s).hazard = s.hazard := rfl
@[simp] theorem resetEvent_spoiled (s : State) : (resetEvent s).spoiled = false := rfl
@[simp] theorem resetEvent_unpolled (s : State) : (resetEvent s).unpolled = false := rfl
@[simp] theorem resetEvent_draws (s : State) : (resetEvent s).draws = (s.draws + 1) + 1 := rfl
@[simp] theorem resetEvent_rdata (s : State) : (resetEvent s).rdata = s.rdata := rfl
@[simp] theorem resetEvent_program (s : State) : (resetEvent s).program = s.program := rfl
@[simp] theorem resetEvent_schedule (s : State) : (resetEvent s).schedule = s.schedule := rfl

/-! `pushCode` -/

@[simp] theorem pushCode_inSize (k : CodeEntry) (s : State) : (pushCode k s).inSize = s.inSize := rfl
@[simp] theorem pushCode_outSize (k : CodeEntry) (s : State) : (pushCode k s).outSize = s.outSize := rfl
@[simp] theorem pushCode_codeSize (k : CodeEntry) (s : State) : (pushCode k s).codeSize = s.codeSize := rfl
@[simp] theorem pushCode_busy (k : CodeEntry) (s : State) : (pushCode k s).busy = s.busy := rfl
@[simp] theorem pushCode_drop (k : CodeEntry) (s : State) : (pushCode k s).drop = s.drop := rfl
@[simp] theorem pushCode_err (k : CodeEntry) (s : State) : (pushCode k s).err = s.err := rfl
@[simp] theorem pushCode_maxBits (k : CodeEntry) (s : State) : (pushCode k s).maxBits = s.maxBits := rfl
@[simp] theorem pushCode_var (k : CodeEntry) (s : State) : (pushCode k s).var = s.var := rfl
@[simp] theorem pushCode_inLen (k : CodeEntry) (s : State) : (pushCode k s).inLen = s.inLen := rfl
@[simp] theorem pushCode_outLen (k : CodeEntry) (s : State) : (pushCode k s).outLen = s.outLen := rfl
@[simp] theorem pushCode_codeLen (k : CodeEntry) (s : State) : (pushCode k s).codeLen = s.codeLen := rfl
@[simp] theorem pushCode_width (k : CodeEntry) (s : State) : (pushCode k s).width = s.width := rfl
@[simp] theorem pushCode_inBuf (k : CodeEntry) (s : State) : (pushCode k s).inBuf = s.inBuf := rfl
@[simp] theorem pushCode_outBuf (k : CodeEntry) (s : State) : (pushCode k s).outBuf = s.outBuf := rfl
@[simp] theorem pushCode_codeBuf (k : CodeEntry) (s : State) : (pushCode k s).codeBuf = bufSet s.codeBuf s.codePos.toNat k := rfl
@[simp] theorem pushCode_phase (k : CodeEntry) (s : State) : (pushCode k s).phase = s.phase := rfl
@[simp] theorem pushCode_opc (k : CodeEntry) (s : State) : (pushCode k s).opc = s.opc := rfl
@[simp] theorem pushCode_chain (k : CodeEntry) (s : State) : (pushCode k s).chain = s.chain := rfl
@[simp] theorem pushCode_nextCode (k : CodeEntry) (s : State) : (pushCode k s).nextCode = s.nextCode := rfl
@[simp] theorem pushCode_curBits (k : CodeEntry) (s : State) : (pushCode k s).curBits = s.curBits := rfl
@[simp] theorem pushCode_maxCode (k : CodeEntry) (s : State) : (pushCode k s).maxCode = s.maxCode := rfl
@[simp] theorem pushCode_ed (k : CodeEntry) (s : State) : (pushCode k s).ed = s.ed := rfl
@[simp] theorem pushCode_dd (k : CodeEntry) (s : State) : (pushCode k s).dd = s.dd := rfl
@[simp] theorem pushCode_cur (k : CodeEntry) (s : State) : (pushCode k s).cur = s.cur := rfl
@[simp] theorem pushCode_prev (k : CodeEntry) (s : State) : (pushCode k s).prev = s.prev := rfl
@[simp] theorem pushCode_prevValid (k : CodeEntry) (s : State) : (pushCode k s).prevValid = s.prevValid := rfl
@[simp] theorem pushCode_inPos (k : CodeEntry) (s : State) : (pushCode k s).inPos = s.inPos := rfl
@[simp] theorem pushCode_outPos (k : CodeEntry) (s : State) : (pushCode k s).outPos = s.outPos := rfl
@[simp] theorem pushCode_codePos (k : CodeEntry) (s : State) : (pushCode k s).codePos = s.codePos + 1 := rfl
@[simp] theorem pushCode_serB (k : CodeEntry) (s : State) : (pushCode k s).serB = s.serB := rfl
@[simp] theorem pushCode_desN (k : CodeEntry) (s : State) : (pushCode k s).desN = s.desN := rfl
@[simp] theorem pushCode_desH (k : CodeEntry) (s : State) : (pushCode k s).desH = s.desH := rfl
@[simp] theorem pushCode_hazard (k : CodeEntry) (s : State) : (pushCode k s).hazard = s.hazard := rfl
@[simp] theorem pushCode_spoiled (k : CodeEntry) (s : State) : (pushCode k s).spoiled = s.spoiled := rfl
@[simp] theorem pushCode_unpolled (k : CodeEntry) (s : State) : (pushCode k s).unpolled = s.unpolled := rfl
@[simp] theorem pushCode_draws (k : CodeEntry) (s : State) : (pushCode k s).draws = s.draws := rfl
@[simp] theorem pushCode_rdata (k : CodeEntry) (s : State) : (pushCode k s).rdata = s.rdata := rfl
@[simp] theorem pushCode_program (k : CodeEntry) (s : State) : (pushCode k s).program = s.program := rfl
@[simp] theorem pushCode_schedule (k : CodeEntry) (s : State) : (pushCode k s).schedule = s.schedule := rfl

/-! `pushOut` -/

@[simp] theorem pushOut_inSize (bs : List Byte) (s : State) : (pushOut bs s).inSize = s.inSize := rfl
@[simp] theorem pushOut_outSize (bs : List Byte) (s : State) : (pushOut bs s).outSize = s.outSize := rfl
@[simp] theorem pushOut_codeSize (bs : List Byte) (s : State) : (pushOut bs s).codeSize = s.codeSize := rfl
@[simp] theorem pushOut_busy (bs : List Byte) (s : State) : (pushOut bs s).busy = s.busy := rfl
@[simp] theorem pushOut_drop (bs : List Byte) (s : State) : (pushOut bs s).drop = s.drop := rfl
@[simp] theorem pushOut_err (bs : List Byte) (s : State) : (pushOut bs s).err = s.err := rfl
@[simp] theorem pushOut_maxBits (bs : List Byte) (s : State) : (pushOut bs s).maxBits = s.maxBits := rfl
@[simp] theorem pushOut_var (bs : List Byte) (s : State) : (pushOut bs s).var = s.var := rfl
@[simp] theorem pushOut_inLen (bs : List Byte) (s : State) : (pushOut bs s).inLen = s.inLen := rfl
@[simp] theorem pushOut_outLen (bs : List Byte) (s : State) : (pushOut bs s).outLen = s.outLen := rfl
@[simp] theorem pushOut_codeLen (bs : List Byte) (s : State) : (pushOut bs s).codeLen = s.codeLen := rfl
@[simp] theorem pushOut_width (bs : List Byte) (s : State) : (pushOut bs s).width = s.width := rfl
@[simp] theorem pushOut_inBuf (bs : List Byte) (s : State) : (pushOut bs s).inBuf = s.inBuf := rfl
@[simp] theorem pushOut_outBuf (bs : List Byte) (s : State) : (pushOut bs s).outBuf = bufSetRun s.outBuf s.outPos.toNat bs := rfl
@[simp] theorem pushOut_codeBuf (bs : List Byte) (s : State) : (pushOut bs s).codeBuf = s.codeBuf := rfl
@[simp] theorem pushOut_phase (bs : List Byte) (s : State) : (pushOut bs s).phase = s.phase := rfl
@[simp] theorem pushOut_opc (bs : List Byte) (s : State) : (pushOut bs s).opc = s.opc := rfl
@[simp] theorem pushOut_chain (bs : List Byte) (s : State) : (pushOut bs s).chain = s.chain := rfl
@[simp] theorem pushOut_nextCode (bs : List Byte) (s : State) : (pushOut bs s).nextCode = s.nextCode := rfl
@[simp] theorem pushOut_curBits (bs : List Byte) (s : State) : (pushOut bs s).curBits = s.curBits := rfl
@[simp] theorem pushOut_maxCode (bs : List Byte) (s : State) : (pushOut bs s).maxCode = s.maxCode := rfl
@[simp] theorem pushOut_ed (bs : List Byte) (s : State) : (pushOut bs s).ed = s.ed := rfl
@[simp] theorem pushOut_dd (bs : List Byte) (s : State) : (pushOut bs s).dd = s.dd := rfl
@[simp] theorem pushOut_cur (bs : List Byte) (s : State) : (pushOut bs s).cur = s.cur := rfl
@[simp] theorem pushOut_prev (bs : List Byte) (s : State) : (pushOut bs s).prev = s.prev := rfl
@[simp] theorem pushOut_prevValid (bs : List Byte) (s : State) : (pushOut bs s).prevValid = s.prevValid := rfl
@[simp] theorem pushOut_inPos (bs : List Byte) (s : State) : (pushOut bs s).inPos = s.inPos := rfl
@[simp] theorem pushOut_outPos (bs : List Byte) (s : State) : (pushOut bs s).outPos = BitVec.ofNat 32 (s.outPos.toNat + bs.length) := rfl
@[simp] theorem pushOut_codePos (bs : List Byte) (s : State) : (pushOut bs s).codePos = s.codePos := rfl
@[simp] theorem pushOut_serB (bs : List Byte) (s : State) : (pushOut bs s).serB = s.serB := rfl
@[simp] theorem pushOut_desN (bs : List Byte) (s : State) : (pushOut bs s).desN = s.desN := rfl
@[simp] theorem pushOut_desH (bs : List Byte) (s : State) : (pushOut bs s).desH = s.desH := rfl
@[simp] theorem pushOut_hazard (bs : List Byte) (s : State) : (pushOut bs s).hazard = s.hazard := rfl
@[simp] theorem pushOut_spoiled (bs : List Byte) (s : State) : (pushOut bs s).spoiled = s.spoiled := rfl
@[simp] theorem pushOut_unpolled (bs : List Byte) (s : State) : (pushOut bs s).unpolled = s.unpolled := rfl
@[simp] theorem pushOut_draws (bs : List Byte) (s : State) : (pushOut bs s).draws = s.draws := rfl
@[simp] theorem pushOut_rdata (bs : List Byte) (s : State) : (pushOut bs s).rdata = s.rdata := rfl
@[simp] theorem pushOut_program (bs : List Byte) (s : State) : (pushOut bs s).program = s.program := rfl
@[simp] theorem pushOut_schedule (bs : List Byte) (s : State) : (pushOut bs s).schedule = s.schedule := rfl

/-! `edInit` -/

@[simp] theorem edInit_inSize (s : State) : (edInit s).inSize = s.inSize := rfl
@[simp] theorem edInit_outSize (s : State) : (edInit s).outSize = s.outSize := rfl
@[simp] theorem edInit_codeSize (s : State) : (edInit s).codeSize = s.codeSize := rfl
@[simp] theorem edInit_busy (s : State) : (edInit s).busy = s.busy := rfl
@[simp] theorem edInit_drop (s : State) : (edInit s).drop = s.drop := rfl
@[simp] theorem edInit_err (s : State) : (edInit s).err = s.err := rfl
@[simp] theorem edInit_maxBits (s : State) : (edInit s).maxBits = s.maxBits := rfl
@[simp] theorem edInit_var (s : State) : (edInit s).var = s.var := rfl
@[simp] theorem edInit_inLen (s : State) : (edInit s).inLen = s.inLen := rfl
@[simp] theorem edInit_outLen (s : State) : (edInit s).outLen = s.outLen := rfl
@[simp] theorem edInit_codeLen (s : State) : (edInit s).codeLen = s.codeLen := rfl
@[simp] theorem edInit_width (s : State) : (edInit s).width = s.width := rfl
@[simp] theorem edInit_inBuf (s : State) : (edInit s).inBuf = s.inBuf := rfl
@[simp] theorem edInit_outBuf (s : State) : (edInit s).outBuf = s.outBuf := rfl
@[simp] theorem edInit_codeBuf (s : State) : (edInit s).codeBuf = s.codeBuf := rfl
@[simp] theorem edInit_phase (s : State) : (edInit s).phase = s.phase := rfl
@[simp] theorem edInit_opc (s : State) : (edInit s).opc = s.opc := rfl
@[simp] theorem edInit_chain (s : State) : (edInit s).chain = s.chain := rfl
@[simp] theorem edInit_nextCode (s : State) : (edInit s).nextCode = 256 := rfl
@[simp] theorem edInit_curBits (s : State) : (edInit s).curBits = s.curBits := rfl
@[simp] theorem edInit_maxCode (s : State) : (edInit s).maxCode = s.maxCode := rfl
@[simp] theorem edInit_ed (s : State) : (edInit s).ed = initialEd := rfl
@[simp] theorem edInit_dd (s : State) : (edInit s).dd = s.dd := rfl
@[simp] theorem edInit_cur (s : State) : (edInit s).cur = s.cur := rfl
@[simp] theorem edInit_prev (s : State) : (edInit s).prev = s.prev := rfl
@[simp] theorem edInit_prevValid (s : State) : (edInit s).prevValid = s.prevValid := rfl
@[simp] theorem edInit_inPos (s : State) : (edInit s).inPos = s.inPos := rfl
@[simp] theorem edInit_outPos (s : State) : (edInit s).outPos = s.outPos := rfl
@[simp] theorem edInit_codePos (s : State) : (edInit s).codePos = s.codePos := rfl
@[simp] theorem edInit_serB (s : State) : (edInit s).serB = s.serB := rfl
@[simp] theorem edInit_desN (s : State) : (edInit s).desN = s.desN := rfl
@[simp] theorem edInit_desH (s : State) : (edInit s).desH = s.desH := rfl
@[simp] theorem edInit_hazard (s : State) : (edInit s).hazard = s.hazard := rfl
@[simp] theorem edInit_spoiled (s : State) : (edInit s).spoiled = s.spoiled := rfl
@[simp] theorem edInit_unpolled (s : State) : (edInit s).unpolled = s.unpolled := rfl
@[simp] theorem edInit_draws (s : State) : (edInit s).draws = s.draws := rfl
@[simp] theorem edInit_rdata (s : State) : (edInit s).rdata = s.rdata := rfl
@[simp] theorem edInit_program (s : State) : (edInit s).program = s.program := rfl
@[simp] theorem edInit_schedule (s : State) : (edInit s).schedule = s.schedule := rfl

/-! `edInsert` -/

@[simp] theorem edInsert_inSize (q : Sequence) (s : State) : (edInsert q s).inSize = s.inSize := rfl
@[simp] theorem edInsert_outSize (q : Sequence) (s : State) : (edInsert q s).outSize = s.outSize := rfl
@[simp] theorem edInsert_codeSize (q : Sequence) (s : State) : (edInsert q s).codeSize = s.codeSize := rfl
@[simp] theorem edInsert_busy (q : Sequence) (s : State) : (edInsert q s).busy = s.busy := rfl
@[simp] theorem edInsert_drop (q : Sequence) (s : State) : (edInsert q s).drop = s.drop := rfl
@[simp] theorem edInsert_err (q : Sequence) (s : State) : (edInsert q s).err = s.err := rfl
@[simp] theorem edInsert_maxBits (q : Sequence) (s : State) : (edInsert q s).maxBits = s.maxBits := rfl
@[simp] theorem edInsert_var (q : Sequence) (s : State) : (edInsert q s).var = s.var := rfl
@[simp] theorem edInsert_inLen (q : Sequence) (s : State) : (edInsert q s).inLen = s.inLen := rfl
@[simp] theorem edInsert_outLen (q : Sequence) (s : State) : (edInsert q s).outLen = s.outLen := rfl
@[simp] theorem edInsert_codeLen (q : Sequence) (s : State) : (edInsert q s).codeLen = s.codeLen := rfl
@[simp] theorem edInsert_width (q : Sequence) (s : State) : (edInsert q s).width = s.width := rfl
@[simp] theorem edInsert_inBuf (q : Sequence) (s : State) : (edInsert q s).inBuf = s.inBuf := rfl
@[simp] theorem edInsert_outBuf (q : Sequence) (s : State) : (edInsert q s).outBuf = s.outBuf := rfl
@[simp] theorem edInsert_codeBuf (q : Sequence) (s : State) : (edInsert q s).codeBuf = s.codeBuf := rfl
@[simp] theorem edInsert_phase (q : Sequence) (s : State) : (edInsert q s).phase = s.phase := rfl
@[simp] theorem edInsert_opc (q : Sequence) (s : State) : (edInsert q s).opc = s.opc := rfl
@[simp] theorem edInsert_chain (q : Sequence) (s : State) : (edInsert q s).chain = s.chain := rfl
@[simp] theorem edInsert_nextCode (q : Sequence) (s : State) : (edInsert q s).nextCode = s.nextCode + 1 := rfl
@[simp] theorem edInsert_curBits (q : Sequence) (s : State) : (edInsert q s).curBits = s.curBits := rfl
@[simp] theorem edInsert_maxCode (q : Sequence) (s : State) : (edInsert q s).maxCode = s.maxCode := rfl
@[simp] theorem edInsert_ed (q : Sequence) (s : State) : (edInsert q s).ed = if (edLookup s.ed q).isSome then s.ed else s.ed ++ [(q, s.nextCode.toNat)] := rfl
@[simp] theorem edInsert_dd (q : Sequence) (s : State) : (edInsert q s).dd = s.dd := rfl
@[simp] theorem edInsert_cur (q : Sequence) (s : State) : (edInsert q s).cur = s.cur := rfl
@[simp] theorem edInsert_prev (q : Sequence) (s : State) : (edInsert q s).prev = s.prev := rfl
@[simp] theorem edInsert_prevValid (q : Sequence) (s : State) : (edInsert q s).prevValid = s.prevValid := rfl
@[simp] theorem edInsert_inPos (q : Sequence) (s : State) : (edInsert q s).inPos = s.inPos := rfl
@[simp] theorem edInsert_outPos (q : Sequence) (s : State) : (edInsert q s).outPos = s.outPos := rfl
@[simp] theorem edInsert_codePos (q : Sequence) (s : State) : (edInsert q s).codePos = s.codePos := rfl
@[simp] theorem edInsert_serB (q : Sequence) (s : State) : (edInsert q s).serB = s.serB := rfl
@[simp] theorem edInsert_desN (q : Sequence) (s : State) : (edInsert q s).desN = s.desN := rfl
@[simp] theorem edInsert_desH (q : Sequence) (s : State) : (edInsert q s).desH = s.desH := rfl
@[simp] theorem edInsert_hazard (q : Sequence) (s : State) : (edInsert q s).hazard = s.hazard := rfl
@[simp] theorem edInsert_spoiled (q : Sequence) (s : State) : (edInsert q s).spoiled = s.spoiled := rfl
@[simp] theorem edInsert_unpolled (q : Sequence) (s : State) : (edInsert q s).unpolled = s.unpolled := rfl
@[simp] theorem edInsert_draws (q : Sequence) (s : State) : (edInsert q s).draws = s.draws := rfl
@[simp] theorem edInsert_rdata (q : Sequence) (s : State) : (edInsert q s).rdata = s.rdata := rfl
@[simp] theorem edInsert_program (q : Sequence) (s : State) : (edInsert q s).program = s.program := rfl
@[simp] theorem edInsert_schedule (q : Sequence) (s : State) : (edInsert q s).schedule = s.schedule := rfl

/-! `ddInit` -/

@[simp] theorem ddInit_inSize (s : State) : (ddInit s).inSize = s.inSize := rfl
@[simp] theorem ddInit_outSize (s : State) : (ddInit s).outSize = s.outSize := rfl
@[simp] theorem ddInit_codeSize (s : State) : (ddInit s).codeSize = s.codeSize := rfl
@[simp] theorem ddInit_busy (s : State) : (ddInit s).busy = s.busy := rfl
@[simp] theorem ddInit_drop (s : State) : (ddInit s).drop = s.drop := rfl
@[simp] theorem ddInit_err (s : State) : (ddInit s).err = s.err := rfl
@[simp] theorem ddInit_maxBits (s : State) : (ddInit s).maxBits = s.maxBits := rfl
@[simp] theorem ddInit_var (s : State) : (ddInit s).var = s.var := rfl
@[simp] theorem ddInit_inLen (s : State) : (ddInit s).inLen = s.inLen := rfl
@[simp] theorem ddInit_outLen (s : State) : (ddInit s).outLen = s.outLen := rfl
@[simp] theorem ddInit_codeLen (s : State) : (ddInit s).codeLen = s.codeLen := rfl
@[simp] theorem ddInit_width (s : State) : (ddInit s).width = s.width := rfl
@[simp] theorem ddInit_inBuf (s : State) : (ddInit s).inBuf = s.inBuf := rfl
@[simp] theorem ddInit_outBuf (s : State) : (ddInit s).outBuf = s.outBuf := rfl
@[simp] theorem ddInit_codeBuf (s : State) : (ddInit s).codeBuf = s.codeBuf := rfl
@[simp] theorem ddInit_phase (s : State) : (ddInit s).phase = s.phase := rfl
@[simp] theorem ddInit_opc (s : State) : (ddInit s).opc = s.opc := rfl
@[simp] theorem ddInit_chain (s : State) : (ddInit s).chain = s.chain := rfl
@[simp] theorem ddInit_nextCode (s : State) : (ddInit s).nextCode = 256 := rfl
@[simp] theorem ddInit_curBits (s : State) : (ddInit s).curBits = s.curBits := rfl
@[simp] theorem ddInit_maxCode (s : State) : (ddInit s).maxCode = s.maxCode := rfl
@[simp] theorem ddInit_ed (s : State) : (ddInit s).ed = s.ed := rfl
@[simp] theorem ddInit_dd (s : State) : (ddInit s).dd = initialDd := rfl
@[simp] theorem ddInit_cur (s : State) : (ddInit s).cur = s.cur := rfl
@[simp] theorem ddInit_prev (s : State) : (ddInit s).prev = s.prev := rfl
@[simp] theorem ddInit_prevValid (s : State) : (ddInit s).prevValid = s.prevValid := rfl
@[simp] theorem ddInit_inPos (s : State) : (ddInit s).inPos = s.inPos := rfl
@[simp] theorem ddInit_outPos (s : State) : (ddInit s).outPos = s.outPos := rfl
@[simp] theorem ddInit_codePos (s : State) : (ddInit s).codePos = s.codePos := rfl
@[simp] theorem ddInit_serB (s : State) : (ddInit s).serB = s.serB := rfl
@[simp] theorem ddInit_desN (s : State) : (ddInit s).desN = s.desN := rfl
@[simp] theorem ddInit_desH (s : State) : (ddInit s).desH = s.desH := rfl
@[simp] theorem ddInit_hazard (s : State) : (ddInit s).hazard = s.hazard := rfl
@[simp] theorem ddInit_spoiled (s : State) : (ddInit s).spoiled = s.spoiled := rfl
@[simp] theorem ddInit_unpolled (s : State) : (ddInit s).unpolled = s.unpolled := rfl
@[simp] theorem ddInit_draws (s : State) : (ddInit s).draws = s.draws := rfl
@[simp] theorem ddInit_rdata (s : State) : (ddInit s).rdata = s.rdata := rfl
@[simp] theorem ddInit_program (s : State) : (ddInit s).program = s.program := rfl
@[simp] theorem ddInit_schedule (s : State) : (ddInit s).schedule = s.schedule := rfl

/-! `ddBind` -/

@[simp] theorem ddBind_inSize (q : Sequence) (s : State) : (ddBind q s).inSize = s.inSize := rfl
@[simp] theorem ddBind_outSize (q : Sequence) (s : State) : (ddBind q s).outSize = s.outSize := rfl
@[simp] theorem ddBind_codeSize (q : Sequence) (s : State) : (ddBind q s).codeSize = s.codeSize := rfl
@[simp] theorem ddBind_busy (q : Sequence) (s : State) : (ddBind q s).busy = s.busy := rfl
@[simp] theorem ddBind_drop (q : Sequence) (s : State) : (ddBind q s).drop = s.drop := rfl
@[simp] theorem ddBind_err (q : Sequence) (s : State) : (ddBind q s).err = s.err := rfl
@[simp] theorem ddBind_maxBits (q : Sequence) (s : State) : (ddBind q s).maxBits = s.maxBits := rfl
@[simp] theorem ddBind_var (q : Sequence) (s : State) : (ddBind q s).var = s.var := rfl
@[simp] theorem ddBind_inLen (q : Sequence) (s : State) : (ddBind q s).inLen = s.inLen := rfl
@[simp] theorem ddBind_outLen (q : Sequence) (s : State) : (ddBind q s).outLen = s.outLen := rfl
@[simp] theorem ddBind_codeLen (q : Sequence) (s : State) : (ddBind q s).codeLen = s.codeLen := rfl
@[simp] theorem ddBind_width (q : Sequence) (s : State) : (ddBind q s).width = s.width := rfl
@[simp] theorem ddBind_inBuf (q : Sequence) (s : State) : (ddBind q s).inBuf = s.inBuf := rfl
@[simp] theorem ddBind_outBuf (q : Sequence) (s : State) : (ddBind q s).outBuf = s.outBuf := rfl
@[simp] theorem ddBind_codeBuf (q : Sequence) (s : State) : (ddBind q s).codeBuf = s.codeBuf := rfl
@[simp] theorem ddBind_phase (q : Sequence) (s : State) : (ddBind q s).phase = s.phase := rfl
@[simp] theorem ddBind_opc (q : Sequence) (s : State) : (ddBind q s).opc = s.opc := rfl
@[simp] theorem ddBind_chain (q : Sequence) (s : State) : (ddBind q s).chain = s.chain := rfl
@[simp] theorem ddBind_nextCode (q : Sequence) (s : State) : (ddBind q s).nextCode = s.nextCode + 1 := rfl
@[simp] theorem ddBind_curBits (q : Sequence) (s : State) : (ddBind q s).curBits = s.curBits := rfl
@[simp] theorem ddBind_maxCode (q : Sequence) (s : State) : (ddBind q s).maxCode = s.maxCode := rfl
@[simp] theorem ddBind_ed (q : Sequence) (s : State) : (ddBind q s).ed = s.ed := rfl
@[simp] theorem ddBind_dd (q : Sequence) (s : State) : (ddBind q s).dd = ddSet s.dd s.nextCode.toNat q := rfl
@[simp] theorem ddBind_cur (q : Sequence) (s : State) : (ddBind q s).cur = s.cur := rfl
@[simp] theorem ddBind_prev (q : Sequence) (s : State) : (ddBind q s).prev = s.prev := rfl
@[simp] theorem ddBind_prevValid (q : Sequence) (s : State) : (ddBind q s).prevValid = s.prevValid := rfl
@[simp] theorem ddBind_inPos (q : Sequence) (s : State) : (ddBind q s).inPos = s.inPos := rfl
@[simp] theorem ddBind_outPos (q : Sequence) (s : State) : (ddBind q s).outPos = s.outPos := rfl
@[simp] theorem ddBind_codePos (q : Sequence) (s : State) : (ddBind q s).codePos = s.codePos := rfl
@[simp] theorem ddBind_serB (q : Sequence) (s : State) : (ddBind q s).serB = s.serB := rfl
@[simp] theorem ddBind_desN (q : Sequence) (s : State) : (ddBind q s).desN = s.desN := rfl
@[simp] theorem ddBind_desH (q : Sequence) (s : State) : (ddBind q s).desH = s.desH := rfl
@[simp] theorem ddBind_hazard (q : Sequence) (s : State) : (ddBind q s).hazard = s.hazard := rfl
@[simp] theorem ddBind_spoiled (q : Sequence) (s : State) : (ddBind q s).spoiled = s.spoiled := rfl
@[simp] theorem ddBind_unpolled (q : Sequence) (s : State) : (ddBind q s).unpolled = s.unpolled := rfl
@[simp] theorem ddBind_draws (q : Sequence) (s : State) : (ddBind q s).draws = s.draws := rfl
@[simp] theorem ddBind_rdata (q : Sequence) (s : State) : (ddBind q s).rdata = s.rdata := rfl
@[simp] theorem ddBind_program (q : Sequence) (s : State) : (ddBind q s).program = s.program := rfl
@[simp] theorem ddBind_schedule (q : Sequence) (s : State) : (ddBind q s).schedule = s.schedule := rfl

/-! `cwInit` -/

@[simp] theorem cwInit_inSize (s : State) : (cwInit s).inSize = s.inSize := rfl
@[simp] theorem cwInit_outSize (s : State) : (cwInit s).outSize = s.outSize := rfl
@[simp] theorem cwInit_codeSize (s : State) : (cwInit s).codeSize = s.codeSize := rfl
@[simp] theorem cwInit_busy (s : State) : (cwInit s).busy = s.busy := rfl
@[simp] theorem cwInit_drop (s : State) : (cwInit s).drop = s.drop := rfl
@[simp] theorem cwInit_err (s : State) : (cwInit s).err = s.err := rfl
@[simp] theorem cwInit_maxBits (s : State) : (cwInit s).maxBits = s.maxBits := rfl
@[simp] theorem cwInit_var (s : State) : (cwInit s).var = s.var := rfl
@[simp] theorem cwInit_inLen (s : State) : (cwInit s).inLen = s.inLen := rfl
@[simp] theorem cwInit_outLen (s : State) : (cwInit s).outLen = s.outLen := rfl
@[simp] theorem cwInit_codeLen (s : State) : (cwInit s).codeLen = s.codeLen := rfl
@[simp] theorem cwInit_width (s : State) : (cwInit s).width = s.width := rfl
@[simp] theorem cwInit_inBuf (s : State) : (cwInit s).inBuf = s.inBuf := rfl
@[simp] theorem cwInit_outBuf (s : State) : (cwInit s).outBuf = s.outBuf := rfl
@[simp] theorem cwInit_codeBuf (s : State) : (cwInit s).codeBuf = s.codeBuf := rfl
@[simp] theorem cwInit_phase (s : State) : (cwInit s).phase = s.phase := rfl
@[simp] theorem cwInit_opc (s : State) : (cwInit s).opc = s.opc := rfl
@[simp] theorem cwInit_chain (s : State) : (cwInit s).chain = s.chain := rfl
@[simp] theorem cwInit_nextCode (s : State) : (cwInit s).nextCode = s.nextCode := rfl
@[simp] theorem cwInit_curBits (s : State) : (cwInit s).curBits = initialBits s := rfl
@[simp] theorem cwInit_maxCode (s : State) : (cwInit s).maxCode = maxCodeOf (initialBits s).toNat := rfl
@[simp] theorem cwInit_ed (s : State) : (cwInit s).ed = s.ed := rfl
@[simp] theorem cwInit_dd (s : State) : (cwInit s).dd = s.dd := rfl
@[simp] theorem cwInit_cur (s : State) : (cwInit s).cur = s.cur := rfl
@[simp] theorem cwInit_prev (s : State) : (cwInit s).prev = s.prev := rfl
@[simp] theorem cwInit_prevValid (s : State) : (cwInit s).prevValid = s.prevValid := rfl
@[simp] theorem cwInit_inPos (s : State) : (cwInit s).inPos = s.inPos := rfl
@[simp] theorem cwInit_outPos (s : State) : (cwInit s).outPos = s.outPos := rfl
@[simp] theorem cwInit_codePos (s : State) : (cwInit s).codePos = s.codePos := rfl
@[simp] theorem cwInit_serB (s : State) : (cwInit s).serB = s.serB := rfl
@[simp] theorem cwInit_desN (s : State) : (cwInit s).desN = s.desN := rfl
@[simp] theorem cwInit_desH (s : State) : (cwInit s).desH = s.desH := rfl
@[simp] theorem cwInit_hazard (s : State) : (cwInit s).hazard = s.hazard := rfl
@[simp] theorem cwInit_spoiled (s : State) : (cwInit s).spoiled = s.spoiled := rfl
@[simp] theorem cwInit_unpolled (s : State) : (cwInit s).unpolled = s.unpolled := rfl
@[simp] theorem cwInit_draws (s : State) : (cwInit s).draws = s.draws := rfl
@[simp] theorem cwInit_rdata (s : State) : (cwInit s).rdata = s.rdata := rfl
@[simp] theorem cwInit_program (s : State) : (cwInit s).program = s.program := rfl
@[simp] theorem cwInit_schedule (s : State) : (cwInit s).schedule = s.schedule := rfl

/-! `cwGrow` -/

@[simp] theorem cwGrow_inSize (s : State) : (cwGrow s).inSize = s.inSize := rfl
@[simp] theorem cwGrow_outSize (s : State) : (cwGrow s).outSize = s.outSize := rfl
@[simp] theorem cwGrow_codeSize (s : State) : (cwGrow s).codeSize = s.codeSize := rfl
@[simp] theorem cwGrow_busy (s : State) : (cwGrow s).busy = s.busy := rfl
@[simp] theorem cwGrow_drop (s : State) : (cwGrow s).drop = s.drop := rfl
@[simp] theorem cwGrow_err (s : State) : (cwGrow s).err = s.err := rfl
@[simp] theorem cwGrow_maxBits (s : State) : (cwGrow s).maxBits = s.maxBits := rfl
@[simp] theorem cwGrow_var (s : State) : (cwGrow s).var = s.var := rfl
@[simp] theorem cwGrow_inLen (s : State) : (cwGrow s).inLen = s.inLen := rfl
@[simp] theorem cwGrow_outLen (s : State) : (cwGrow s).outLen = s.outLen := rfl
@[simp] theorem cwGrow_codeLen (s : State) : (cwGrow s).codeLen = s.codeLen := rfl
@[simp] theorem cwGrow_width (s : State) : (cwGrow s).width = s.width := rfl
@[simp] theorem cwGrow_inBuf (s : State) : (cwGrow s).inBuf = s.inBuf := rfl
@[simp] theorem cwGrow_outBuf (s : State) : (cwGrow s).outBuf = s.outBuf := rfl
@[simp] theorem cwGrow_codeBuf (s : State) : (cwGrow s).codeBuf = s.codeBuf := rfl
@[simp] theorem cwGrow_phase (s : State) : (cwGrow s).phase = s.phase := rfl
@[simp] theorem cwGrow_opc (s : State) : (cwGrow s).opc = s.opc := rfl
@[simp] theorem cwGrow_chain (s : State) : (cwGrow s).chain = s.chain := rfl
@[simp] theorem cwGrow_nextCode (s : State) : (cwGrow s).nextCode = s.nextCode := rfl
@[simp] theorem cwGrow_curBits (s : State) : (cwGrow s).curBits = if growthDue s then s.curBits + 1 else s.curBits := rfl
@[simp] theorem cwGrow_maxCode (s : State) : (cwGrow s).maxCode = if growthDue s then maxCodeOf (s.curBits + 1).toNat else s.maxCode := rfl
@[simp] theorem cwGrow_ed (s : State) : (cwGrow s).ed = s.ed := rfl
@[simp] theorem cwGrow_dd (s : State) : (cwGrow s).dd = s.dd := rfl
@[simp] theorem cwGrow_cur (s : State) : (cwGrow s).cur = s.cur := rfl
@[simp] theorem cwGrow_prev (s : State) : (cwGrow s).prev = s.prev := rfl
@[simp] theorem cwGrow_prevValid (s : State) : (cwGrow s).prevValid = s.prevValid := rfl
@[simp] theorem cwGrow_inPos (s : State) : (cwGrow s).inPos = s.inPos := rfl
@[simp] theorem cwGrow_outPos (s : State) : (cwGrow s).outPos = s.outPos := rfl
@[simp] theorem cwGrow_codePos (s : State) : (cwGrow s).codePos = s.codePos := rfl
@[simp] theorem cwGrow_serB (s : State) : (cwGrow s).serB = s.serB := rfl
@[simp] theorem cwGrow_desN (s : State) : (cwGrow s).desN = s.desN := rfl
@[simp] theorem cwGrow_desH (s : State) : (cwGrow s).desH = s.desH := rfl
@[simp] theorem cwGrow_hazard (s : State) : (cwGrow s).hazard = s.hazard := rfl
@[simp] theorem cwGrow_spoiled (s : State) : (cwGrow s).spoiled = s.spoiled := rfl
@[simp] theorem cwGrow_unpolled (s : State) : (cwGrow s).unpolled = s.unpolled := rfl
@[simp] theorem cwGrow_draws (s : State) : (cwGrow s).draws = s.draws := rfl
@[simp] theorem cwGrow_rdata (s : State) : (cwGrow s).rdata = s.rdata := rfl
@[simp] theorem cwGrow_program (s : State) : (cwGrow s).program = s.program := rfl
@[simp] theorem cwGrow_schedule (s : State) : (cwGrow s).schedule = s.schedule := rfl

/-! `readDraw` -/

@[simp] theorem readDraw_inSize (v : Word) (s : State) : (readDraw v s).inSize = s.inSize := rfl
@[simp] theorem readDraw_outSize (v : Word) (s : State) : (readDraw v s).outSize = s.outSize := rfl
@[simp] theorem readDraw_codeSize (v : Word) (s : State) : (readDraw v s).codeSize = s.codeSize := rfl
@[simp] theorem readDraw_busy (v : Word) (s : State) : (readDraw v s).busy = s.busy := rfl
@[simp] theorem readDraw_drop (v : Word) (s : State) : (readDraw v s).drop = s.drop := rfl
@[simp] theorem readDraw_err (v : Word) (s : State) : (readDraw v s).err = s.err := rfl
@[simp] theorem readDraw_maxBits (v : Word) (s : State) : (readDraw v s).maxBits = s.maxBits := rfl
@[simp] theorem readDraw_var (v : Word) (s : State) : (readDraw v s).var = s.var := rfl
@[simp] theorem readDraw_inLen (v : Word) (s : State) : (readDraw v s).inLen = s.inLen := rfl
@[simp] theorem readDraw_outLen (v : Word) (s : State) : (readDraw v s).outLen = s.outLen := rfl
@[simp] theorem readDraw_codeLen (v : Word) (s : State) : (readDraw v s).codeLen = s.codeLen := rfl
@[simp] theorem readDraw_width (v : Word) (s : State) : (readDraw v s).width = s.width := rfl
@[simp] theorem readDraw_inBuf (v : Word) (s : State) : (readDraw v s).inBuf = s.inBuf := rfl
@[simp] theorem readDraw_outBuf (v : Word) (s : State) : (readDraw v s).outBuf = s.outBuf := rfl
@[simp] theorem readDraw_codeBuf (v : Word) (s : State) : (readDraw v s).codeBuf = s.codeBuf := rfl
@[simp] theorem readDraw_phase (v : Word) (s : State) : (readDraw v s).phase = s.phase := rfl
@[simp] theorem readDraw_opc (v : Word) (s : State) : (readDraw v s).opc = s.opc := rfl
@[simp] theorem readDraw_chain (v : Word) (s : State) : (readDraw v s).chain = s.chain := rfl
@[simp] theorem readDraw_nextCode (v : Word) (s : State) : (readDraw v s).nextCode = s.nextCode := rfl
@[simp] theorem readDraw_curBits (v : Word) (s : State) : (readDraw v s).curBits = s.curBits := rfl
@[simp] theorem readDraw_maxCode (v : Word) (s : State) : (readDraw v s).maxCode = s.maxCode := rfl
@[simp] theorem readDraw_ed (v : Word) (s : State) : (readDraw v s).ed = s.ed := rfl
@[simp] theorem readDraw_dd (v : Word) (s : State) : (readDraw v s).dd = s.dd := rfl
@[simp] theorem readDraw_cur (v : Word) (s : State) : (readDraw v s).cur = s.cur := rfl
@[simp] theorem readDraw_prev (v : Word) (s : State) : (readDraw v s).prev = s.prev := rfl
@[simp] theorem readDraw_prevValid (v : Word) (s : State) : (readDraw v s).prevValid = s.prevValid := rfl
@[simp] theorem readDraw_inPos (v : Word) (s : State) : (readDraw v s).inPos = s.inPos := rfl
@[simp] theorem readDraw_outPos (v : Word) (s : State) : (readDraw v s).outPos = s.outPos := rfl
@[simp] theorem readDraw_codePos (v : Word) (s : State) : (readDraw v s).codePos = s.codePos := rfl
@[simp] theorem readDraw_serB (v : Word) (s : State) : (readDraw v s).serB = s.serB := rfl
@[simp] theorem readDraw_desN (v : Word) (s : State) : (readDraw v s).desN = s.desN := rfl
@[simp] theorem readDraw_desH (v : Word) (s : State) : (readDraw v s).desH = s.desH := rfl
@[simp] theorem readDraw_hazard (v : Word) (s : State) : (readDraw v s).hazard = s.hazard := rfl
@[simp] theorem readDraw_spoiled (v : Word) (s : State) : (readDraw v s).spoiled = s.spoiled := rfl
@[simp] theorem readDraw_unpolled (v : Word) (s : State) : (readDraw v s).unpolled = s.unpolled := rfl
@[simp] theorem readDraw_draws (v : Word) (s : State) : (readDraw v s).draws = s.draws + 1 := rfl
@[simp] theorem readDraw_rdata (v : Word) (s : State) : (readDraw v s).rdata = v := rfl
@[simp] theorem readDraw_program (v : Word) (s : State) : (readDraw v s).program = s.program := rfl
@[simp] theorem readDraw_schedule (v : Word) (s : State) : (readDraw v s).schedule = s.schedule := rfl

/-! `markHazard` -/

@[simp] theorem markHazard_inSize (s : State) : (markHazard s).inSize = s.inSize := rfl
@[simp] theorem markHazard_outSize (s : State) : (markHazard s).outSize = s.outSize := rfl
@[simp] theorem markHazard_codeSize (s : State) : (markHazard s).codeSize = s.codeSize := rfl
@[simp] theorem markHazard_busy (s : State) : (markHazard s).busy = s.busy := rfl
@[simp] theorem markHazard_drop (s : State) : (markHazard s).drop = s.drop := rfl
@[simp] theorem markHazard_err (s : State) : (markHazard s).err = s.err := rfl
@[simp] theorem markHazard_maxBits (s : State) : (markHazard s).maxBits = s.maxBits := rfl
@[simp] theorem markHazard_var (s : State) : (markHazard s).var = s.var := rfl
@[simp] theorem markHazard_inLen (s : State) : (markHazard s).inLen = s.inLen := rfl
@[simp] theorem markHazard_outLen (s : State) : (markHazard s).outLen = s.outLen := rfl
@[simp] theorem markHazard_codeLen (s : State) : (markHazard s).codeLen = s.codeLen := rfl
@[simp] theorem markHazard_width (s : State) : (markHazard s).width = s.width := rfl
@[simp] theorem markHazard_inBuf (s : State) : (markHazard s).inBuf = s.inBuf := rfl
@[simp] theorem markHazard_outBuf (s : State) : (markHazard s).outBuf = s.outBuf := rfl
@[simp] theorem markHazard_codeBuf (s : State) : (markHazard s).codeBuf = s.codeBuf := rfl
@[simp] theorem markHazard_phase (s : State) : (markHazard s).phase = s.phase := rfl
@[simp] theorem markHazard_opc (s : State) : (markHazard s).opc = s.opc := rfl
@[simp] theorem markHazard_chain (s : State) : (markHazard s).chain = s.chain := rfl
@[simp] theorem markHazard_nextCode (s : State) : (markHazard s).nextCode = s.nextCode := rfl
@[simp] theorem markHazard_curBits (s : State) : (markHazard s).curBits = s.curBits := rfl
@[simp] theorem markHazard_maxCode (s : State) : (markHazard s).maxCode = s.maxCode := rfl
@[simp] theorem markHazard_ed (s : State) : (markHazard s).ed = s.ed := rfl
@[simp] theorem markHazard_dd (s : State) : (markHazard s).dd = s.dd := rfl
@[simp] theorem markHazard_cur (s : State) : (markHazard s).cur = s.cur := rfl
@[simp] theorem markHazard_prev (s : State) : (markHazard s).prev = s.prev := rfl
@[simp] theorem markHazard_prevValid (s : State) : (markHazard s).prevValid = s.prevValid := rfl
@[simp] theorem markHazard_inPos (s : State) : (markHazard s).inPos = s.inPos := rfl
@[simp] theorem markHazard_outPos (s : State) : (markHazard s).outPos = s.outPos := rfl
@[simp] theorem markHazard_codePos (s : State) : (markHazard s).codePos = s.codePos := rfl
@[simp] theorem markHazard_serB (s : State) : (markHazard s).serB = s.serB := rfl
@[simp] theorem markHazard_desN (s : State) : (markHazard s).desN = s.desN := rfl
@[simp] theorem markHazard_desH (s : State) : (markHazard s).desH = s.desH := rfl
@[simp] theorem markHazard_hazard (s : State) : (markHazard s).hazard = (s.hazard || (s.busy || s.unpolled)) := rfl
@[simp] theorem markHazard_spoiled (s : State) : (markHazard s).spoiled = (s.spoiled || s.busy) := rfl
@[simp] theorem markHazard_unpolled (s : State) : (markHazard s).unpolled = s.unpolled := rfl
@[simp] theorem markHazard_draws (s : State) : (markHazard s).draws = s.draws := rfl
@[simp] theorem markHazard_rdata (s : State) : (markHazard s).rdata = s.rdata := rfl
@[simp] theorem markHazard_program (s : State) : (markHazard s).program = s.program := rfl
@[simp] theorem markHazard_schedule (s : State) : (markHazard s).schedule = s.schedule := rfl

end Sys2Proof.Machine
end

