-- ==== Sys2Proof/Laws/Buffer.lean ====
section
/-! SUPPORT. The laws of the buffers: read after write, writes leave every other element alone, and every write
keeps the canonical form. -/

namespace Sys2Proof.Machine

variable {w : Nat}

/-! ### Read after write -/

/-- The written element reads as written. -/
theorem cellGet_cellSet_self (cells : List (Nat × BitVec w)) (i : Nat) (v : BitVec w) :
    cellGet (cellSet cells i v) i = some v := by
  induction cells with
  | nil => simp [cellSet, cellGet]
  | cons c rest ih =>
    obtain ⟨a, x⟩ := c
    by_cases h1 : i < a
    · simp [cellSet, h1, cellGet]
    · by_cases h2 : a = i
      · simp [cellSet, h2, cellGet]
      · simp [cellSet, h1, h2, cellGet, ih]

/-- Every other element reads as before. -/
theorem cellGet_cellSet_other (cells : List (Nat × BitVec w)) (i j : Nat) (v : BitVec w) (h : i ≠ j) :
    cellGet (cellSet cells i v) j = cellGet cells j := by
  induction cells with
  | nil => simp [cellSet, cellGet, h]
  | cons c rest ih =>
    obtain ⟨a, x⟩ := c
    by_cases h1 : i < a
    · simp [cellSet, h1, cellGet, h]
    · by_cases h2 : a = i
      · subst h2; simp [cellSet, cellGet, h]
      · simp [cellSet, h1, h2, cellGet, ih]

theorem bufGet_bufSet (name : BufferName) (b : Buffer w) (i j : Nat) (v : BitVec w) :
    bufGet name (bufSet b i v) j = if i = j then v else bufGet name b j := by
  by_cases h : i = j
  · subst h; simp [bufGet, bufSet, cellGet_cellSet_self]
  · simp [bufGet, bufSet, cellGet_cellSet_other _ _ _ _ h, h]

theorem cellGet_cellSetRun_before (vs : List (BitVec w)) (cells : List (Nat × BitVec w)) (i j : Nat) (h : j < i) :
    cellGet (cellSetRun cells i vs) j = cellGet cells j := by
  induction vs generalizing cells i with
  | nil => rfl
  | cons v vs ih =>
    rw [cellSetRun, ih _ _ (by omega), cellGet_cellSet_other _ _ _ _ (by omega)]

theorem cellGet_cellSetRun_after (vs : List (BitVec w)) (cells : List (Nat × BitVec w)) (i j : Nat)
    (h : i + vs.length ≤ j) : cellGet (cellSetRun cells i vs) j = cellGet cells j := by
  induction vs generalizing cells i with
  | nil => rfl
  | cons v vs ih =>
    simp only [List.length_cons] at h
    rw [cellSetRun, ih _ _ (by omega), cellGet_cellSet_other _ _ _ _ (by omega)]

theorem cellGet_cellSetRun_inside (vs : List (BitVec w)) (cells : List (Nat × BitVec w)) (i j : Nat)
    (h : j < vs.length) : cellGet (cellSetRun cells i vs) (i + j) = some vs[j] := by
  induction vs generalizing cells i j with
  | nil => simp at h
  | cons v vs ih =>
    cases j with
    | zero => rw [cellSetRun, cellGet_cellSetRun_before _ _ _ _ (by omega)]; exact cellGet_cellSet_self _ _ _
    | succ j =>
      have := ih (cellSet cells i v) (i + 1) j (by simpa using h)
      rw [cellSetRun, show i + (j + 1) = i + 1 + j by omega, this]; rfl

theorem bufGet_bufSetRun_inside (name : BufferName) (b : Buffer w) (i j : Nat) (vs : List (BitVec w))
    (h : j < vs.length) : bufGet name (bufSetRun b i vs) (i + j) = vs[j] := by
  simp [bufGet, bufSetRun, cellGet_cellSetRun_inside _ _ _ _ h]

theorem bufGet_bufSetRun_outside (name : BufferName) (b : Buffer w) (i j : Nat) (vs : List (BitVec w))
    (h : j < i ∨ i + vs.length ≤ j) : bufGet name (bufSetRun b i vs) j = bufGet name b j := by
  rcases h with h | h
  · simp [bufGet, bufSetRun, cellGet_cellSetRun_before _ _ _ _ h]
  · simp [bufGet, bufSetRun, cellGet_cellSetRun_after _ _ _ _ h]

/-! ### The canonical form -/

theorem cellsRise_weaken {size lo lo' : Nat} (cells : List (Nat × BitVec w)) (h : cellsRise size lo cells = true)
    (hlo : lo' ≤ lo) : cellsRise size lo' cells = true := by
  cases cells with
  | nil => rfl
  | cons c rest =>
    simp only [cellsRise, Bool.and_eq_true, decide_eq_true_eq] at h ⊢
    exact ⟨⟨by omega, h.1.2⟩, h.2⟩

theorem cellsRise_cellSet {size lo i : Nat} (cells : List (Nat × BitVec w)) (v : BitVec w)
    (h : cellsRise size lo cells = true) (hlo : lo ≤ i) (hi : i < size) :
    cellsRise size lo (cellSet cells i v) = true := by
  induction cells generalizing lo with
  | nil => simp [cellSet, cellsRise, hlo, hi]
  | cons c rest ih =>
    obtain ⟨a, x⟩ := c
    simp only [cellsRise, Bool.and_eq_true, decide_eq_true_eq] at h
    by_cases h1 : i < a
    · simp [cellSet, h1, cellsRise, hlo, hi, h.1.2, h.2]
    · by_cases h2 : a = i
      · subst h2; simp [cellSet, cellsRise, hlo, hi, h.2]
      · simp only [cellSet, h1, h2, if_false, cellsRise, Bool.and_eq_true, decide_eq_true_eq]
        exact ⟨h.1, ih h.2 (by omega)⟩

theorem cellsRise_cellSetRun {size i : Nat} (vs : List (BitVec w)) (cells : List (Nat × BitVec w))
    (h : cellsRise size 0 cells = true) (hi : i + vs.length ≤ size) :
    cellsRise size 0 (cellSetRun cells i vs) = true := by
  induction vs generalizing cells i with
  | nil => exact h
  | cons v vs ih =>
    simp only [List.length_cons] at hi
    exact ih _ (cellsRise_cellSet cells v h (by omega) (by omega)) (by omega)

/-- Two canonical buffers of one epoch that list the same values are the same data. -/
theorem cells_ext {size : Nat} : ∀ (lo : Nat) (xs ys : List (Nat × BitVec w)), cellsRise size lo xs = true →
    cellsRise size lo ys = true → (∀ i, cellGet xs i = cellGet ys i) → xs = ys
  | _, [], [], _, _, _ => rfl
  | lo, [], (b, y) :: ys, _, _, h => by simpa [cellGet] using h b
  | lo, (a, x) :: xs, [], _, _, h => by simpa [cellGet] using h a
  | lo, (a, x) :: xs, (b, y) :: ys, hx, hy, h => by
    simp only [cellsRise, Bool.and_eq_true, decide_eq_true_eq] at hx hy
    have absent : ∀ {lo j : Nat} (zs : List (Nat × BitVec w)), cellsRise size lo zs = true → j < lo →
        cellGet zs j = none := by
      intro lo j zs hz hj
      induction zs generalizing lo with
      | nil => rfl
      | cons c rest ih =>
        obtain ⟨a, x⟩ := c
        simp only [cellsRise, Bool.and_eq_true, decide_eq_true_eq] at hz
        rw [cellGet, if_neg (by omega)]
        exact ih hz.2 (by omega)
    have hab : a = b := by
      rcases Nat.lt_trichotomy a b with hlt | heq | hgt
      · have := h a
        rw [cellGet, if_pos rfl, cellGet, if_neg (by omega), absent ys hy.2 (by omega)] at this
        cases this
      · exact heq
      · have := h b
        rw [cellGet, if_neg (by omega), cellGet, if_pos rfl, absent xs hx.2 (by omega)] at this
        cases this
    subst hab
    have hxy : x = y := by simpa [cellGet] using h a
    subst hxy
    congr 1
    refine cells_ext (a + 1) xs ys hx.2 hy.2 fun i => ?_
    by_cases hi : a = i
    · rw [absent xs hx.2 (by omega), absent ys hy.2 (by omega)]
    · simpa [cellGet, hi] using h i

theorem memory_wf_iff (s : State) : Memory.wf s = true ↔
    cellsRise s.inSize.toNat 0 s.inBuf.cells = true ∧ cellsRise s.outSize.toNat 0 s.outBuf.cells = true ∧
      cellsRise s.codeSize.toNat 0 s.codeBuf.cells = true := by
  simp [Memory.wf]

/-! ### Every memory operation keeps the canonical form -/

theorem memory_wf_reset : Memory.wf State.reset = true := rfl

theorem memory_wf_pushCode (s : State) (k : CodeEntry) (h : Memory.wf s = true) (hp : s.codePos.toNat < s.codeSize.toNat) :
    Memory.wf (pushCode k s) = true := by
  rw [memory_wf_iff] at h ⊢
  exact ⟨h.1, h.2.1, cellsRise_cellSet _ k h.2.2 (Nat.zero_le _) hp⟩

theorem memory_wf_pushOut (s : State) (bs : List Byte) (h : Memory.wf s = true)
    (hp : s.outPos.toNat + bs.length ≤ s.outSize.toNat) : Memory.wf (pushOut bs s) = true := by
  rw [memory_wf_iff] at h ⊢
  exact ⟨h.1, cellsRise_cellSetRun bs _ h.2.1 hp, h.2.2⟩

theorem memory_wf_spoilResults (s : State) (h : Memory.wf s = true) : Memory.wf (spoilResults s) = true := by
  rw [memory_wf_iff] at h ⊢
  refine ⟨h.1, ?_, ?_⟩
  · simp only [spoilResults_outBuf, spoilResults_outSize]; split
    · rfl
    · exact h.2.1
  · simp only [spoilResults_codeBuf, spoilResults_codeSize]; split
    · rfl
    · exact h.2.2

theorem memory_wf_complete (s : State) (h : Memory.wf s = true) : Memory.wf (complete s) = true :=
  memory_wf_spoilResults s h

theorem memory_wf_abort (half : FailingHalf) (e : ErrorKind) (s : State) (h : Memory.wf s = true) :
    Memory.wf (abort half e s) = true := by
  have : Memory.wf (recordError half e s) = true := by
    rw [memory_wf_iff] at h ⊢
    refine ⟨h.1, ?_, ?_⟩
    · simp only [recordError_outBuf, recordError_outSize]; split
      · rfl
      · exact h.2.1
    · simp only [recordError_codeBuf, recordError_codeSize]; split
      · rfl
      · exact h.2.2
  show Memory.wf (spoilResults (recordError half e s)) = true
  exact memory_wf_spoilResults _ this

theorem memory_wf_resetEvent (s : State) : Memory.wf (resetEvent s) = true := rfl

theorem memory_wf_hostWriteBuf (b : BufferName) (i : Nat) (v : Word) (s : State) (h : Memory.wf s = true)
    (hi : i < bufferSize b s) : Memory.wf (hostWriteBuf b i v s) = true := by
  cases b with
  | OUT => exact h
  | IN =>
    rw [memory_wf_iff] at h ⊢
    exact ⟨cellsRise_cellSet _ _ h.1 (Nat.zero_le _) hi, h.2.1, h.2.2⟩
  | CODE =>
    rw [memory_wf_iff] at h ⊢
    exact ⟨h.1, h.2.1, cellsRise_cellSet _ _ h.2.2 (Nat.zero_le _) hi⟩

end Sys2Proof.Machine
end

