-- ==== Sys2Proof/Laws/CodeWidth.lean ====
section
/-! SUPPORT. The laws of the code_width_controller (44_code_width.md R184, R185): the invariant after CW_INIT,
after a binding and its growth check, and what it says of the capacity. -/

namespace Sys2Proof.Machine

theorem lt_two_pow_bitLength (n : Nat) : n < 2 ^ bitLength n := Nat.lt_log2_self

theorem bitLength_le_iff {n b : Nat} (hn : n ≠ 0) : bitLength n ≤ b ↔ n < 2 ^ b := by
  rw [bitLength, Nat.succ_le_iff, Nat.log2_lt hn]

theorem bitLength_mono {m n : Nat} (hm : m ≠ 0) (h : m ≤ n) : bitLength m ≤ bitLength n :=
  (bitLength_le_iff hm).mpr (Nat.lt_of_le_of_lt h (lt_two_pow_bitLength n))

theorem bitLength_two_pow (b : Nat) : bitLength (2 ^ b) = b + 1 := by
  simp [bitLength, Nat.log2_two_pow]

theorem maxCodeOf_toNat {b : Nat} (h : b ≤ 16) : (maxCodeOf b).toNat = 2 ^ b - 1 := by
  have h2 : 2 ^ b ≤ 2 ^ 16 := Nat.pow_le_pow_right (by omega) h
  simp only [maxCodeOf, BitVec.toNat_ofNat]
  rw [Nat.mod_eq_of_lt (by omega)]

/-- CUR_BITS lies in 9..MAX_BITS (44_code_width.md R185). -/
theorem WidthInv.curBits_bounds {s : State} (h : WidthInv s) (hc : CfgLegal s) :
    9 ≤ s.curBits.toNat ∧ s.curBits.toNat ≤ s.maxBits.toNat := by
  obtain ⟨h9, h16⟩ := hc
  cases hv : s.var with
  | static => have := h.static_eq hv; omega
  | dynamic => have := h.dynamic_eq hv; omega

/-- While CUR_BITS is below the ceiling, NEXT_CODE is representable (44_code_width.md R184). -/
theorem WidthInv.nextCode_lt {s : State} (h : WidthInv s) (hc : CfgLegal s)
    (hlt : s.curBits.toNat < s.maxBits.toNat) : s.nextCode.toNat < 2 ^ s.curBits.toNat := by
  obtain ⟨h9, h16⟩ := hc
  have hne : s.nextCode.toNat ≠ 0 := by have := h.nextCode_ge; omega
  cases hv : s.var with
  | static => have := h.static_eq hv; omega
  | dynamic =>
    have := h.dynamic_eq hv
    exact (bitLength_le_iff hne).mp (by omega)

/-- CW_HAS_CAPACITY() is `NEXT_CODE < 2^MAX_BITS` (44_code_width.md R184). -/
theorem WidthInv.capacity_iff {s : State} (h : WidthInv s) (hc : CfgLegal s) :
    hasCapacity s = true ↔ s.nextCode.toNat < 2 ^ s.maxBits.toNat := by
  have hb := h.curBits_bounds hc
  have hm := h.maxCode_eq
  have hpos : 0 < 2 ^ s.curBits.toNat := Nat.pow_pos (by omega)
  simp only [hasCapacity, decide_eq_true_eq]
  rcases Nat.lt_or_ge s.curBits.toNat s.maxBits.toNat with hlt | hge
  · have := h.nextCode_lt hc hlt
    have := Nat.pow_lt_pow_right (a := 2) (by omega) hlt
    omega
  · have : s.curBits.toNat = s.maxBits.toNat := by omega
    rw [this] at hm hpos
    omega

/-- Every bound code fits the width (44_code_width.md R186). -/
theorem WidthInv.code_fits {s : State} (h : WidthInv s) (hc : CfgLegal s) {k : Nat} (hk : k < s.nextCode.toNat) :
    k < 2 ^ s.curBits.toNat := by
  have hb := h.curBits_bounds hc
  rcases Nat.lt_or_ge s.curBits.toNat s.maxBits.toNat with hlt | hge
  · have := h.nextCode_lt hc hlt; omega
  · have : s.curBits.toNat = s.maxBits.toNat := by omega
    have := h.nextCode_le
    simp_all
    omega

theorem initialBits_toNat {s : State} (hc : CfgLegal s) :
    (initialBits s).toNat = if s.var = .static then s.maxBits.toNat else 9 := by
  obtain ⟨h9, h16⟩ := hc
  cases hv : s.var with
  | static => simp only [initialBits, hv, BitVec.toNat_setWidth, if_true]; omega
  | dynamic => simp [initialBits, hv, Config.dynStartBits]

/-- CW_INIT with NEXT_CODE = 256 establishes the invariant (44_code_width.md R181). -/
theorem widthInv_cwInit {s : State} (hc : CfgLegal s) (hn : s.nextCode.toNat = 256) : WidthInv (cwInit s) := by
  have hb := initialBits_toNat hc
  obtain ⟨h9, h16⟩ := hc
  have hle : (initialBits s).toNat ≤ 16 := by rw [hb]; split <;> omega
  refine ⟨by simp [hn], ?_, by simpa using maxCodeOf_toNat hle, ?_, ?_⟩
  · have : 2 ^ 9 ≤ 2 ^ s.maxBits.toNat := Nat.pow_le_pow_right (by omega) h9
    simp [hn]; omega
  · intro hv; simp at hv; simp [hb, hv]
  · intro hv
    simp at hv
    have : bitLength 256 = 9 := bitLength_two_pow 8
    simp [hb, hv, hn, this]

/-- One step of the growth schedule in plain numbers (44_code_width.md R183, R184). -/
theorem schedule_step {n b m : Nat} (hn : n ≠ 0) (hcap : n ≤ 2 ^ b - 1) (h9 : 9 ≤ m)
    (hb : b = max 9 (min m (bitLength n))) :
    (if 2 ^ b - 1 < n + 1 ∧ b < m then b + 1 else b) = max 9 (min m (bitLength (n + 1))) := by
  have hpos : 0 < 2 ^ b := Nat.pow_pos (by omega)
  have hmono := bitLength_mono hn (Nat.le_succ n)
  split
  · rename_i h
    have : n + 1 = 2 ^ b := by omega
    rw [this, bitLength_two_pow]
    omega
  · rename_i h
    rcases Nat.lt_or_ge (n + 1) (2 ^ b) with hlt | hge
    · have := (bitLength_le_iff (n := n + 1) (by omega)).mpr hlt
      have hsucc : bitLength (n.succ) = bitLength (n + 1) := rfl
      omega
    · have : n + 1 = 2 ^ b := by omega
      rw [this, bitLength_two_pow]
      omega

/-- A binding at capacity followed by CW_GROW keeps the invariant: NEXT_CODE is one higher, and the width is
what the schedule says (44_code_width.md R183, R184). -/
theorem WidthInv.grow {s t : State} (h : WidthInv s) (hc : CfgLegal s) (hcap : hasCapacity s = true)
    (hn : t.nextCode = s.nextCode + 1) (hb : t.curBits = s.curBits) (hm : t.maxCode = s.maxCode)
    (hx : t.maxBits = s.maxBits) (hv : t.var = s.var) : WidthInv (cwGrow t) := by
  have hb9 := h.curBits_bounds hc
  have hlt := (h.capacity_iff hc).mp hcap
  obtain ⟨h9, h16⟩ := hc
  have hge := h.nextCode_ge
  have hmax := h.maxCode_eq
  have hpow : 2 ^ s.maxBits.toNat ≤ 2 ^ 16 := Nat.pow_le_pow_right (by omega) h16
  have hnn : t.nextCode.toNat = s.nextCode.toNat + 1 := by
    rw [hn, BitVec.toNat_add]; simp; omega
  have hbb : (t.curBits + 1).toNat = s.curBits.toNat + 1 := by
    rw [hb, BitVec.toNat_add]; simp; omega
  have hdue : growthDue t = true ↔ s.var = .dynamic ∧ 2 ^ s.curBits.toNat - 1 < s.nextCode.toNat + 1 ∧
      s.curBits.toNat < s.maxBits.toNat := by
    simp [growthDue, hv, hm, hmax, hnn, hb, hx]
  have hcap' : s.nextCode.toNat ≤ 2 ^ s.curBits.toNat - 1 := by
    simpa [hasCapacity, hmax] using hcap
  refine ⟨by simp [hnn]; omega, by simp [hnn, hx]; omega, ?_, ?_, ?_⟩
  · simp only [cwGrow_maxCode, cwGrow_curBits]
    split
    · rename_i hd
      rw [hbb, maxCodeOf_toNat (by have := hdue.mp hd; omega)]
    · rw [hm, hb, hmax]
  · intro hs
    simp only [cwGrow_var, hv] at hs
    have : ¬ growthDue t = true := by rw [hdue, hs]; simp
    simp [this, hb, hx, h.static_eq hs]
  · intro hs
    simp only [cwGrow_var, hv] at hs
    have hd := h.dynamic_eq hs
    have := schedule_step (n := s.nextCode.toNat) (b := s.curBits.toNat) (m := s.maxBits.toNat) (by omega) hcap' h9 hd
    simp only [cwGrow_curBits, cwGrow_maxBits, cwGrow_nextCode, hnn, hx]
    rw [← this]
    by_cases hg : growthDue t = true
    · rw [if_pos hg, if_pos (hdue.mp hg).2, hbb]
    · rw [if_neg hg, if_neg (fun hh => hg (hdue.mpr ⟨hs, hh⟩)), hb]

/-- The invariant reads only the width controller's registers, NEXT_CODE and CFG. -/
theorem WidthInv.congr {s t : State} (h : WidthInv s) (hn : t.nextCode = s.nextCode) (hb : t.curBits = s.curBits)
    (hm : t.maxCode = s.maxCode) (hx : t.maxBits = s.maxBits) (hv : t.var = s.var) : WidthInv t := by
  refine ⟨?_, ?_, ?_, ?_, ?_⟩ <;> simp only [hn, hb, hm, hx, hv]
  exacts [h.nextCode_ge, h.nextCode_le, h.maxCode_eq, h.static_eq, h.dynamic_eq]

end Sys2Proof.Machine
end

