-- ==== Sys2Proof/Laws/Decode.lean ====
section
/-! SUPPORT. The fields of a command word in plain numbers (30_encoding.md R90), for the proofs about decoding. -/

namespace Sys2Proof

theorem fieldOpc_toNat (w : Word) : (fieldOpc w).toNat = w.toNat % 256 := by
  simp [fieldOpc, BitVec.extractLsb'_toNat]

theorem fieldMaxb_toNat (w : Word) : (fieldMaxb w).toNat = w.toNat / 256 % 256 := by
  simp [fieldMaxb, BitVec.extractLsb'_toNat, Nat.shiftRight_eq_div_pow]

theorem fieldVarb_toNat (w : Word) : (fieldVarb w).toNat = w.toNat / 65536 % 2 := by
  simp [fieldVarb, BitVec.extractLsb'_toNat, Nat.shiftRight_eq_div_pow]

theorem fieldRsv_toNat (w : Word) : (fieldRsv w).toNat = w.toNat / 131072 := by
  have := w.isLt
  simp [fieldRsv, BitVec.extractLsb'_toNat, Nat.shiftRight_eq_div_pow]
  omega

/-- CONFIGURE's word as a number, `(VARB<<16) | (MAXB<<8) | 0x01` (46_host_commands.md R233). -/
theorem configureWord_toNat (v : Variant) {m : Nat} (h : m < 256) :
    (configureWord v m).toNat = (if v = .dynamic then 65536 else 0) + m * 256 + 1 := by
  unfold configureWord
  rw [BitVec.toNat_append, BitVec.toNat_append, BitVec.toNat_append,
    ← Nat.shiftLeft_add_eq_or_of_lt (BitVec.isLt _), ← Nat.shiftLeft_add_eq_or_of_lt (BitVec.isLt _),
    ← Nat.shiftLeft_add_eq_or_of_lt (BitVec.isLt _)]
  simp only [Nat.shiftLeft_eq, BitVec.toNat_ofNat, Nat.mod_eq_of_lt h]
  cases v <;> simp [bitOfVariant]
  omega

theorem variantOfBit_bitOfVariant (v : Variant) : variantOfBit (bitOfVariant v) = v := by
  cases v <;> rfl

/-- Two words with the same number are the same word. -/
theorem word_eq_of_toNat {w w' : Word} (h : w.toNat = w'.toNat) : w = w' := BitVec.eq_of_toNat_eq h

end Sys2Proof
end

