-- ==== Sys2Proof/Laws/Dictionary.lean ====
section
/-! SUPPORT. The laws of the two dictionaries: lookup after a binding, the contents after initialisation, and
the invariants of 41_dictionary.md R131. -/

namespace Sys2Proof.Machine

/-! ### ED -/

theorem edGet_append (ed : EncodeDict) (q s : Sequence) (k : Nat) :
    edGet (ed ++ [(q, k)]) s = (edGet ed s).or (if q = s then some k else none) := by
  induction ed with
  | nil => simp [edGet]
  | cons p rest ih =>
    obtain ⟨r, j⟩ := p
    by_cases h : r = s <;> simp [edGet, h, ih]

theorem edLookup_nil (ed : EncodeDict) : edLookup ed [] = none := rfl

theorem edLookup_of_ne (ed : EncodeDict) {s : Sequence} (h : s ≠ []) : edLookup ed s = edGet ed s := by
  simp [edLookup, h]

/-- What ED binds after an absent, non-empty `q` is bound to `k`. -/
theorem edLookup_append (ed : EncodeDict) (q s : Sequence) (k : Nat) (hq : q ≠ []) (habs : edLookup ed q = none) :
    edLookup (ed ++ [(q, k)]) s = if s = q then some k else edLookup ed s := by
  by_cases hs : s = []
  · subst hs; simp [edLookup, Ne.symm hq]
  · rw [edLookup_of_ne _ hs, edLookup_of_ne _ hs, edGet_append]
    by_cases h : s = q
    · subst h; rw [edLookup_of_ne _ hq] at habs; simp [habs]
    · simp [h, Ne.symm h]

/-- A binding is never lost (42_encoder.md R148). -/
theorem edLookup_append_isSome (ed : EncodeDict) (q s : Sequence) (k : Nat) (h : (edLookup ed s).isSome) :
    (edLookup (ed ++ [(q, k)]) s).isSome := by
  by_cases hs : s = []
  · subst hs; simp [edLookup] at h
  · rw [edLookup_of_ne _ hs] at h ⊢
    rw [edGet_append]
    cases hg : edGet ed s <;> simp_all

theorem mem_of_edGet {ed : EncodeDict} {s : Sequence} {k : Nat} (h : edGet ed s = some k) : (s, k) ∈ ed := by
  induction ed with
  | nil => simp [edGet] at h
  | cons p rest ih =>
    obtain ⟨r, j⟩ := p
    by_cases hr : r = s
    · simp [edGet, hr] at h; simp [hr, h]
    · simp [edGet, hr] at h; exact List.mem_cons_of_mem _ (ih h)

theorem mem_of_edLookup {ed : EncodeDict} {s : Sequence} {k : Nat} (h : edLookup ed s = some k) : (s, k) ∈ ed := by
  by_cases hs : s = []
  · subst hs; simp [edLookup] at h
  · exact mem_of_edGet (edLookup_of_ne ed hs ▸ h)

theorem edGet_none_iff {ed : EncodeDict} {s : Sequence} : edGet ed s = none ↔ s ∉ ed.map Prod.fst := by
  induction ed with
  | nil => simp [edGet]
  | cons p rest ih =>
    obtain ⟨r, j⟩ := p
    by_cases hr : r = s
    · simp [edGet, hr]
    · simp only [edGet, hr, if_false, ih, List.map_cons, List.mem_cons, not_or, Ne.symm hr, not_false_eq_true, true_and]

/-- Every code ED answers is below NEXT_CODE (41_dictionary.md R131). -/
theorem EncodeDictInv.code_lt {ed : EncodeDict} {next : Nat} (h : EncodeDictInv ed next) {s : Sequence} {k : Nat}
    (hk : edLookup ed s = some k) : k < next := by
  have : k ∈ ed.map Prod.snd := List.mem_map_of_mem (f := Prod.snd) (mem_of_edLookup hk)
  rw [h.codes] at this
  exact List.mem_range.mp this

theorem edGet_map_symbol (l : List Nat) (hl : ∀ x ∈ l, x < 256) {c : Nat} (hc : c ∈ l) :
    edGet (l.map fun x => ([BitVec.ofNat 8 x], x)) [BitVec.ofNat 8 c] = some c := by
  induction l with
  | nil => simp at hc
  | cons a rest ih =>
    by_cases h : a = c
    · simp [edGet, h]
    · have ha := hl a (by simp)
      have hc' := hl c hc
      have hne : BitVec.ofNat 8 a ≠ BitVec.ofNat 8 c := by
        intro e
        have := congrArg BitVec.toNat e
        simp only [BitVec.toNat_ofNat] at this
        omega
      have hr : c ∈ rest := by simpa [Ne.symm h] using hc
      simp [edGet, hne, ih (fun x hx => hl x (List.mem_cons_of_mem _ hx)) hr]

theorem mem_initialEd {q : Sequence} {k : Nat} : (q, k) ∈ initialEd ↔ k < 256 ∧ q = [BitVec.ofNat 8 k] := by
  simp only [initialEd, List.mem_map, List.mem_range, Prod.mk.injEq]
  constructor
  · rintro ⟨c, hc, rfl, rfl⟩; exact ⟨hc, rfl⟩
  · rintro ⟨hk, rfl⟩; exact ⟨k, hk, rfl, rfl⟩

theorem edLookup_initialEd_symbol (c : Byte) : edLookup initialEd [c] = some c.toNat := by
  have h := edGet_map_symbol (List.range 256) (by simp) (List.mem_range.mpr c.isLt)
  simpa [edLookup, initialEd] using h

/-- After ED_INIT the map is `[c] -> c`, "and nothing else" (41_dictionary.md R121). -/
theorem edLookup_initialEd (q : Sequence) (k : Nat) :
    edLookup initialEd q = some k ↔ ∃ c : Byte, q = [c] ∧ k = c.toNat := by
  constructor
  · intro h
    obtain ⟨hk, rfl⟩ := mem_initialEd.mp (mem_of_edLookup h)
    exact ⟨BitVec.ofNat 8 k, rfl, by simp; omega⟩
  · rintro ⟨c, rfl, rfl⟩
    exact edLookup_initialEd_symbol c

theorem encodeDictInv_initial : EncodeDictInv initialEd 256 where
  codes := by simp [initialEd, Function.comp_def]
  single := by
    have : initialEd.map Prod.fst = (List.range 256).map fun c => [BitVec.ofNat 8 c] := by
      simp [initialEd, Function.comp_def]
    rw [this]
    refine List.Nodup.map_on (fun a ha b hb e => ?_) List.nodup_range
    have := congrArg BitVec.toNat (List.cons.inj e).1
    simp only [BitVec.toNat_ofNat, List.mem_range] at this ha hb
    omega
  nonempty := by
    rintro ⟨q, k⟩ h
    rw [(mem_initialEd.mp h).2]
    simp
  symbols := edLookup_initialEd_symbol
  prefixClosed := by
    intro q c hq h
    obtain ⟨k, hk⟩ := Option.isSome_iff_exists.mp h
    obtain ⟨d, hd, -⟩ := (edLookup_initialEd _ _).mp hk
    simp [List.append_eq_singleton_iff, hq] at hd

/-- ED_INSERT of an absent Sequence whose prefix is bound keeps ED's invariant (41_dictionary.md R123, R131). -/
theorem EncodeDictInv.insert {ed : EncodeDict} {next : Nat} (h : EncodeDictInv ed next) {p : Sequence} {c : Byte}
    (habs : edLookup ed (p ++ [c]) = none) (hp : p ≠ [] → (edLookup ed p).isSome) :
    EncodeDictInv (ed ++ [(p ++ [c], next)]) (next + 1) where
  codes := by simp [h.codes, List.range_succ]
  single := by
    rw [List.map_append, List.nodup_append]
    refine ⟨h.single, by simp, ?_⟩
    intro a ha b hb e
    subst e
    rw [edLookup_of_ne _ (by simp), edGet_none_iff] at habs
    simp at hb
    exact habs (hb ▸ ha)
  nonempty := by
    intro x hx
    rcases List.mem_append.mp hx with hx | hx
    · exact h.nonempty x hx
    · simp at hx; simp [hx]
  symbols := by
    intro d
    rw [edLookup_append _ _ _ _ (by simp) habs, h.symbols]
    split
    · rename_i e; rw [← e, h.symbols] at habs; cases habs
    · rfl
  prefixClosed := by
    intro q d hq hs
    rw [edLookup_append _ _ _ _ (by simp) habs] at hs
    split at hs
    · rename_i e
      obtain ⟨rfl, -⟩ := List.append_inj' e rfl
      exact edLookup_append_isSome _ _ _ _ (hp hq)
    · exact edLookup_append_isSome _ _ _ _ (h.prefixClosed q d hq hs)

/-! ### DD -/

theorem ddFind_ddSet (dd : DecodeDict) (k j : Nat) (q : Sequence) :
    ddFind (ddSet dd k q) j = if j = k then some q else ddFind dd j := by
  induction dd with
  | nil => simp [ddSet, ddFind, eq_comm]
  | cons p rest ih =>
    obtain ⟨c, r⟩ := p
    by_cases hc : c = k
    · subst hc; by_cases hj : j = c <;> simp [ddSet, ddFind, hj, eq_comm]
    · by_cases hj : c = j
      · subst hj; simp [ddSet, ddFind, hc]
      · simp [ddSet, ddFind, hc, hj, ih]

theorem ddSet_of_absent {dd : DecodeDict} {k : Nat} (q : Sequence) (h : k ∉ dd.map Prod.fst) :
    ddSet dd k q = dd ++ [(k, q)] := by
  induction dd with
  | nil => rfl
  | cons p rest ih =>
    obtain ⟨c, r⟩ := p
    simp only [List.map_cons, List.mem_cons, not_or] at h
    simp [ddSet, Ne.symm h.1, ih h.2]

theorem mem_of_ddFind {dd : DecodeDict} {k : Nat} {q : Sequence} (h : ddFind dd k = some q) : (k, q) ∈ dd := by
  induction dd with
  | nil => simp [ddFind] at h
  | cons p rest ih =>
    obtain ⟨c, r⟩ := p
    by_cases hc : c = k
    · simp [ddFind, hc] at h; simp [hc, h]
    · simp [ddFind, hc] at h; exact List.mem_cons_of_mem _ (ih h)

theorem ddFind_isSome_iff {dd : DecodeDict} {k : Nat} : (ddFind dd k).isSome ↔ k ∈ dd.map Prod.fst := by
  induction dd with
  | nil => simp [ddFind]
  | cons p rest ih =>
    obtain ⟨c, r⟩ := p
    by_cases hc : c = k
    · simp [ddFind, hc]
    · simp only [ddFind, hc, if_false, ih, List.map_cons, List.mem_cons, Ne.symm hc, false_or]

/-- Below NEXT_CODE every code is bound (41_dictionary.md R131). -/
theorem DecodeDictInv.bound {dd : DecodeDict} {next : Nat} (h : DecodeDictInv dd next) {k : Nat} (hk : k < next) :
    ∃ q, ddFind dd k = some q ∧ q ≠ [] := by
  have : (ddFind dd k).isSome := ddFind_isSome_iff.mpr (h.codes ▸ List.mem_range.mpr hk)
  obtain ⟨q, hq⟩ := Option.isSome_iff_exists.mp this
  exact ⟨q, hq, h.nonempty _ (mem_of_ddFind hq)⟩

theorem mem_initialDd {q : Sequence} {k : Nat} : (k, q) ∈ initialDd ↔ k < 256 ∧ q = [BitVec.ofNat 8 k] := by
  simp only [initialDd, List.mem_map, List.mem_range, Prod.mk.injEq]
  constructor
  · rintro ⟨c, hc, rfl, rfl⟩; exact ⟨hc, rfl⟩
  · rintro ⟨hk, rfl⟩; exact ⟨k, hk, rfl, rfl⟩

/-- After DD_INIT the map is `c -> [c]`, "and nothing else" (41_dictionary.md R128). -/
theorem ddFind_initialDd (k : Nat) : ddFind initialDd k = if k < 256 then some [BitVec.ofNat 8 k] else none := by
  by_cases h : k < 256
  · have hm : k ∈ initialDd.map Prod.fst := List.mem_map.mpr ⟨(k, _), mem_initialDd.mpr ⟨h, rfl⟩, rfl⟩
    obtain ⟨q, hq⟩ := Option.isSome_iff_exists.mp (ddFind_isSome_iff.mpr hm)
    simp [hq, h, (mem_initialDd.mp (mem_of_ddFind hq)).2]
  · simp only [h, if_false]
    rw [← Option.not_isSome_iff_eq_none, ddFind_isSome_iff]
    simpa [initialDd, Function.comp_def] using h

theorem decodeDictInv_initial : DecodeDictInv initialDd 256 where
  codes := by simp [initialDd, Function.comp_def]
  nonempty := by
    rintro ⟨k, q⟩ h
    rw [(mem_initialDd.mp h).2]
    simp
  symbols := by
    intro c
    simp [ddFind_initialDd, c.isLt]

/-- DD_BIND keeps DD's invariant (41_dictionary.md R130, R131). -/
theorem DecodeDictInv.bind {dd : DecodeDict} {next : Nat} (h : DecodeDictInv dd next) {q : Sequence} (hq : q ≠ []) :
    DecodeDictInv (ddSet dd next q) (next + 1) := by
  have habs : next ∉ dd.map Prod.fst := by simp [h.codes]
  refine ⟨?_, ?_, ?_⟩
  · simp [ddSet_of_absent q habs, h.codes, List.range_succ]
  · intro p hp
    rw [ddSet_of_absent q habs] at hp
    rcases List.mem_append.mp hp with hp | hp
    · exact h.nonempty p hp
    · simp at hp; simp [hp, hq]
  · intro c
    rw [ddFind_ddSet]
    split
    · rename_i e
      exact absurd (ddFind_isSome_iff.mp (by rw [h.symbols c]; rfl)) (e ▸ habs)
    · exact h.symbols c

end Sys2Proof.Machine
end

