-- ==== Sys2Proof/Laws/Ops.lean ====
section
/-! SUPPORT. One lemma per shared operation that says everything it can do: completing, aborting, appending to
the destination buffers, and the big-endian bytes of a code. -/

namespace Sys2Proof.Machine

/-! ### Completing and aborting -/

theorem spoilResults_unspoiled {s : State} (h : s.spoiled = false) : spoilResults s = s := by
  cases s; simp_all [spoilResults]

/-- COMPLETE() of a command no forbidden write hit (46_host_commands.md R240). -/
theorem complete_unspoiled {s : State} (h : s.spoiled = false) :
    complete s = { s with phase := Phase.idle, busy := false } := by
  rw [complete, spoilResults_unspoiled h]

/-- The abort of a command no forbidden write hit (60_exceptions.md R262). -/
theorem abort_unspoiled {half : FailingHalf} {e : ErrorKind} {s : State} (h : s.spoiled = false) :
    abort half e s = discardInternal (recordError half e s) := by
  rw [abort, spoilResults_unspoiled (by simpa using h)]

/-- Whatever a command's end or abort does, BUSY is 0 and PHASE is IDLE after it (46_host_commands.md R240,
60_exceptions.md R262). -/
theorem abort_ends (half : FailingHalf) (e : ErrorKind) (s : State) :
    (abort half e s).busy = false ∧ (abort half e s).phase = Phase.idle ∧ (abort half e s).spoiled = false :=
  ⟨rfl, rfl, rfl⟩

/-- The abort of a command no forbidden write hit leaves the host exactly this (60_exceptions.md R262). -/
theorem aborted_abort {half : FailingHalf} {e : ErrorKind} {s : State} (h : s.spoiled = false) :
    Aborted half e s (abort half e s) := by
  rw [abort_unspoiled h]
  constructor <;> simp +contextual

/-! ### EMIT and OUTPUT -/

/-- What EMIT can do (42_encoder.md R143). -/
theorem emit_eq_some {k : Nat} {s t : State} :
    emit k s = some t ↔ s.codePos.toNat < s.codeSize.toNat ∧ t = pushCode (BitVec.ofNat 16 k) s := by
  unfold emit
  split
  · simp; omega
  · simp [eq_comm]; omega

theorem emit_eq_none {k : Nat} {s : State} : emit k s = none ↔ s.codeSize.toNat ≤ s.codePos.toNat := by
  unfold emit
  split <;> simp <;> omega

/-- What OUTPUT can do (43_decoder.md R166). -/
theorem output_eq_some {bs : List Byte} {s t : State} :
    output bs s = some t ↔ s.outPos.toNat + bs.length ≤ s.outSize.toNat ∧ t = pushOut bs s := by
  unfold output
  split
  · simp; omega
  · simp [eq_comm]; omega

theorem output_eq_none {bs : List Byte} {s : State} :
    output bs s = none ↔ s.outSize.toNat < s.outPos.toNat + bs.length := by
  unfold output
  split <;> simp <;> omega

/-- A position that moves on inside a buffer does not wrap (00_scope.md R13). -/
theorem add_one_toNat {p size : Word} (h : p.toNat < size.toNat) : (p + 1).toNat = p.toNat + 1 := by
  have := size.isLt
  rw [BitVec.toNat_add]
  simp
  omega

theorem ofNat_toNat_of_le {n : Nat} {size : Word} (h : n ≤ size.toNat) : (BitVec.ofNat 32 n).toNat = n := by
  have := size.isLt
  simp
  omega

theorem elementCode_pushCode (k : CodeEntry) (s : State) (i : Nat) :
    elementCode (pushCode k s) i = if s.codePos.toNat = i then k else elementCode s i := by
  simp [elementCode, bufGet_bufSet]

theorem elementOut_pushOut_inside (bs : List Byte) (s : State) (j : Nat) (h : j < bs.length) :
    elementOut (pushOut bs s) (s.outPos.toNat + j) = bs[j] := by
  simp [elementOut, bufGet_bufSetRun_inside _ _ _ _ _ h]

theorem elementOut_pushOut_outside (bs : List Byte) (s : State) (i : Nat)
    (h : i < s.outPos.toNat ∨ s.outPos.toNat + bs.length ≤ i) : elementOut (pushOut bs s) i = elementOut s i := by
  simp [elementOut, bufGet_bufSetRun_outside _ _ _ _ _ h]

/-! ### Reading -/

@[simp] theorem elementsIn_length (s : State) (i n : Nat) : (elementsIn s i n).length = n := by
  simp [elementsIn]

@[simp] theorem elementsIn_getElem (s : State) (i n j : Nat) (h : j < (elementsIn s i n).length) :
    (elementsIn s i n)[j] = elementIn s (i + j) := by
  simp [elementsIn]

@[simp] theorem firstSymbol_cons (first : Byte) (rest : Sequence) : firstSymbol (first :: rest) = first := rfl

/-! ### Big-endian bytes (00_scope.md R15) -/

theorem bigEndian_length (n v : Nat) : (bigEndian n v).length = n := by
  induction n with
  | zero => rfl
  | succ n ih => simp [bigEndian, ih]

theorem bigEndian_getElem (n v j : Nat) (h : j < n) :
    (bigEndian n v)[j]'(by rw [bigEndian_length]; exact h) = BitVec.ofNat 8 (v / 256 ^ (n - 1 - j)) := by
  induction n generalizing j with
  | zero => omega
  | succ n ih =>
    cases j with
    | zero => simp [bigEndian]
    | succ j =>
      have := ih j (by omega)
      simp only [bigEndian, List.getElem_cons_succ, this]
      congr 3
      omega

/-- The join undoes the split (45_stream_codec.md R209). -/
theorem ofBigEndian_bigEndian (n v : Nat) : ofBigEndian (bigEndian n v) = v % 256 ^ n := by
  induction n with
  | zero => simp [bigEndian, ofBigEndian, Nat.mod_one]
  | succ n ih =>
    simp only [bigEndian, ofBigEndian, bigEndian_length, ih, BitVec.toNat_ofNat]
    have h := Nat.mod_mul (x := v) (a := 256 ^ n) (b := 256)
    rw [← Nat.pow_succ] at h
    rw [h, Nat.add_comm, Nat.mul_comm]

end Sys2Proof.Machine
end

