-- ==== Sys2Proof/Laws/Meanings.lean ====
section
/-! SUPPORT. What each meaning, and the step, can do: if it answers next `t`, one of the listed cases holds.
Later proofs cite these and do not unfold the meanings again. -/

namespace Sys2Proof.Machine

variable {s t : State}

/-! ### Commands -/

theorem execConfigure_cases {v : Variant} {m : Nat} (h : execConfigure v m s = .next t) :
    ((m < 9 ∨ 16 < m) ∧ t = abort .dispatch .configurationError s) ∨
      (9 ≤ m ∧ m ≤ 16 ∧ t = complete { s with maxBits := BitVec.ofNat 8 m, var := v }) := by
  unfold execConfigure at h
  split at h
  · rename_i hm; cases h; exact .inl ⟨hm, rfl⟩
  · rename_i hm
    simp only [Config.leastMaxBits, Config.greatestMaxBits] at hm
    cases h; exact .inr ⟨by omega, by omega, rfl⟩

/-- DISPATCH raises IllegalCommand or runs the decoded command. -/
theorem execDispatch_cases (h : execDispatch s = .next t) :
    t = abort .dispatch .illegalCommand s ∨ execNop s = .next t ∨ (∃ v m, execConfigure v m s = .next t) ∨
      execEncode s = .next t ∨ execSerialize s = .next t ∨ execDeserialize s = .next t ∨ execDecode s = .next t ∨
      execCompress s = .next t ∨ execDecompress s = .next t := by
  unfold execDispatch at h
  split at h
  · cases h; exact .inl rfl
  · exact .inr (.inl h)
  · exact .inr (.inr (.inl ⟨_, _, h⟩))
  · simp [h]
  · simp [h]
  · simp [h]
  · simp [h]
  · simp [h]
  · simp [h]
  all_goals (cases h; exact .inl rfl)

/-! ### Encoder -/

theorem execEncInit_cases (h : execEncInit s = .next t) :
    (s.inSize.toNat < s.inLen.toNat ∧ t = abort .toCode .bufferOverflow s) ∨
      (s.inLen.toNat ≤ s.inSize.toNat ∧ t = encStart s) := by
  unfold execEncInit at h
  split at h
  · rename_i hl; cases h; exact .inl ⟨hl, rfl⟩
  · rename_i hl; cases h; exact .inr ⟨by omega, rfl⟩

/-- ENC_SYMBOL for the Symbol `c`. -/
theorem encSymbolWith_cases {c : Byte} (h : encSymbolWith c s = .next t) :
    ((edLookup s.ed (s.cur ++ [c])).isSome ∧ t = encExtend (s.cur ++ [c]) s) ∨
      (edLookup s.ed (s.cur ++ [c]) = none ∧ edLookup s.ed s.cur = none ∧
        t = abort .toCode .invariantViolation s) ∨
      (∃ k, edLookup s.ed (s.cur ++ [c]) = none ∧ edLookup s.ed s.cur = some k ∧
        s.codeSize.toNat ≤ s.codePos.toNat ∧ t = abort .toCode .bufferOverflow s) ∨
      (∃ k, edLookup s.ed (s.cur ++ [c]) = none ∧ edLookup s.ed s.cur = some k ∧
        s.codePos.toNat < s.codeSize.toNat ∧
        t = encRestart (s.cur ++ [c]) c (pushCode (BitVec.ofNat 16 k) s)) := by
  unfold encSymbolWith at h
  split at h
  · rename_i hf; cases h; exact .inl ⟨hf, rfl⟩
  · rename_i hf
    have hf : edLookup s.ed (s.cur ++ [c]) = none := by simpa using hf
    split at h
    · rename_i hk; cases h; exact .inr (.inl ⟨hf, hk, rfl⟩)
    · rename_i k hk
      split at h
      · rename_i he; cases h; exact .inr (.inr (.inl ⟨k, hf, hk, emit_eq_none.mp he, rfl⟩))
      · rename_i u he
        obtain ⟨hp, rfl⟩ := emit_eq_some.mp he
        cases h; exact .inr (.inr (.inr ⟨k, hf, hk, hp, rfl⟩))

theorem execEncEnd_cases (h : execEncEnd s = .next t) :
    (s.cur = [] ∧ t = encFinish s) ∨
      (s.cur ≠ [] ∧ edLookup s.ed s.cur = none ∧ t = abort .toCode .invariantViolation s) ∨
      (∃ k, s.cur ≠ [] ∧ edLookup s.ed s.cur = some k ∧ s.codeSize.toNat ≤ s.codePos.toNat ∧
        t = abort .toCode .bufferOverflow s) ∨
      (∃ k, s.cur ≠ [] ∧ edLookup s.ed s.cur = some k ∧ s.codePos.toNat < s.codeSize.toNat ∧
        t = encFinish (pushCode (BitVec.ofNat 16 k) s)) := by
  unfold execEncEnd at h
  split at h
  · rename_i hc; cases h; exact .inl ⟨hc, rfl⟩
  · rename_i hc
    split at h
    · rename_i hk; cases h; exact .inr (.inl ⟨hc, hk, rfl⟩)
    · rename_i k hk
      split at h
      · rename_i he; cases h; exact .inr (.inr (.inl ⟨k, hc, hk, emit_eq_none.mp he, rfl⟩))
      · rename_i u he
        obtain ⟨hp, rfl⟩ := emit_eq_some.mp he
        cases h; exact .inr (.inr (.inr ⟨k, hc, hk, hp, rfl⟩))

/-! ### Stream codec -/

theorem widthLegal_iff {w : Byte} : widthLegal w s = true ↔ 9 ≤ w.toNat ∧ w.toNat ≤ s.maxBits.toNat := by
  simp [widthLegal, Config.leastMaxBits]

theorem widthLegal_false_iff {w : Byte} :
    widthLegal w s = false ↔ w.toNat < 9 ∨ s.maxBits.toNat < w.toNat := by
  rw [← Bool.not_eq_true, widthLegal_iff]; omega

theorem execSerInit_cases (h : execSerInit s = .next t) :
    (s.codeSize.toNat < s.codeLen.toNat ∧ t = abort .toOut .bufferOverflow s) ∨
      (s.codeLen.toNat ≤ s.codeSize.toNat ∧ s.var = .static ∧ t = serStartStatic s) ∨
      (s.codeLen.toNat ≤ s.codeSize.toNat ∧ s.var = .dynamic ∧ widthLegal s.width s = false ∧
        t = abort .toOut .configurationError s) ∨
      (s.codeLen.toNat ≤ s.codeSize.toNat ∧ s.var = .dynamic ∧ widthLegal s.width s = true ∧
        s.outSize.toNat < 1 ∧ t = abort .toOut .bufferOverflow s) ∨
      (s.codeLen.toNat ≤ s.codeSize.toNat ∧ s.var = .dynamic ∧ widthLegal s.width s = true ∧
        1 ≤ s.outSize.toNat ∧ t = serStartDynamic s) := by
  unfold execSerInit at h
  split at h
  · rename_i hl; cases h; exact .inl ⟨hl, rfl⟩
  · rename_i hl
    have hl : s.codeLen.toNat ≤ s.codeSize.toNat := by omega
    split at h
    · rename_i hv; cases h; exact .inr (.inl ⟨hl, hv, rfl⟩)
    · rename_i hv
      split at h
      · rename_i hw
        split at h
        · rename_i ho; cases h; exact .inr (.inr (.inr (.inl ⟨hl, hv, hw, ho, rfl⟩)))
        · rename_i ho; cases h; exact .inr (.inr (.inr (.inr ⟨hl, hv, hw, by omega, rfl⟩)))
      · rename_i hw; cases h; exact .inr (.inr (.inl ⟨hl, hv, by simpa using hw, rfl⟩))

theorem execSerCode_cases (h : execSerCode s = .next t) :
    (s.outSize.toNat < s.outPos.toNat + s.serB.toNat ∧ t = abort .toOut .bufferOverflow s) ∨
      (s.outPos.toNat + s.serB.toNat ≤ s.outSize.toNat ∧
        t = serAdvance (pushOut (bigEndian s.serB.toNat (elementCode s s.codePos.toNat).toNat) s)) := by
  unfold execSerCode serCodeWith at h
  split at h
  · rename_i ho; cases h; exact .inl ⟨by simpa [bigEndian_length] using output_eq_none.mp ho, rfl⟩
  · rename_i u ho
    obtain ⟨hp, rfl⟩ := output_eq_some.mp ho
    cases h; exact .inr ⟨by simpa [bigEndian_length] using hp, rfl⟩

theorem execDesInit_cases (h : execDesInit s = .next t) :
    (s.inSize.toNat < s.inLen.toNat ∧ t = abort .toCode .bufferOverflow s) ∨
      (s.inLen.toNat ≤ s.inSize.toNat ∧ s.var = .static ∧ s.inLen.toNat % 2 = 0 ∧ t = desStartStatic s) ∨
      (s.inLen.toNat ≤ s.inSize.toNat ∧ s.var = .static ∧ s.inLen.toNat % 2 ≠ 0 ∧
        t = abort .toCode .invalidCode s) ∨
      (s.inLen.toNat ≤ s.inSize.toNat ∧ s.var = .dynamic ∧ s.inLen ≠ 0 ∧ widthLegal (elementIn s 0) s = true ∧
        (s.inLen.toNat - 1) % bytesPerCode (elementIn s 0).toNat = 0 ∧ t = desStartDynamic (elementIn s 0) s) ∨
      (s.inLen.toNat ≤ s.inSize.toNat ∧ s.var = .dynamic ∧
        (s.inLen = 0 ∨ widthLegal (elementIn s 0) s = false ∨
          (s.inLen.toNat - 1) % bytesPerCode (elementIn s 0).toNat ≠ 0) ∧
        t = abort .toCode .invalidCode s) := by
  unfold execDesInit at h
  split at h
  · rename_i hl; cases h; exact .inl ⟨hl, rfl⟩
  · rename_i hl
    have hl : s.inLen.toNat ≤ s.inSize.toNat := by omega
    split at h
    · rename_i hv
      unfold desInitStatic at h
      split at h
      · rename_i he; cases h; exact .inr (.inl ⟨hl, hv, he, rfl⟩)
      · rename_i he; cases h; exact .inr (.inr (.inl ⟨hl, hv, he, rfl⟩))
    · rename_i hv
      unfold desInitDynamic at h
      split at h
      · rename_i h0; cases h; exact .inr (.inr (.inr (.inr ⟨hl, hv, .inl h0, rfl⟩)))
      · rename_i h0
        split at h
        · rename_i hw
          split at h
          · rename_i hm; cases h; exact .inr (.inr (.inr (.inl ⟨hl, hv, h0, hw, hm, rfl⟩)))
          · rename_i hm; cases h; exact .inr (.inr (.inr (.inr ⟨hl, hv, .inr (.inr hm), rfl⟩)))
        · rename_i hw; cases h; exact .inr (.inr (.inr (.inr ⟨hl, hv, .inr (.inl (by simpa using hw)), rfl⟩)))

theorem execDesCode_cases (h : execDesCode s = .next t) :
    (s.codeSize.toNat ≤ s.codePos.toNat ∧ t = abort .toCode .bufferOverflow s) ∨
      (s.codePos.toNat < s.codeSize.toNat ∧ t = desStore (elementsIn s s.inPos.toNat s.serB.toNat) s) := by
  unfold execDesCode at h
  split at h
  · rename_i hl; cases h; exact .inl ⟨hl, rfl⟩
  · rename_i hl; cases h; exact .inr ⟨by omega, rfl⟩

/-! ### Decoder -/

theorem execDecInit_cases (h : execDecInit s = .next t) :
    (s.codeSize.toNat < s.codeLen.toNat ∧ t = abort .toOut .bufferOverflow s) ∨
      (s.codeLen.toNat ≤ s.codeSize.toNat ∧ t = decStart s) := by
  unfold execDecInit at h
  split at h
  · rename_i hl; cases h; exact .inl ⟨hl, rfl⟩
  · rename_i hl; cases h; exact .inr ⟨by omega, rfl⟩

/-- DEC_FIRST's entry where DD binds the code. -/
theorem firstEntry_of_bound {k : Nat} {entry : Sequence} (h : ddGet s k = some entry) : firstEntry k s = entry := by
  simp [firstEntry, h]

/-- DEC_FIRST for the code `k`. -/
theorem decFirstWith_cases {k : Nat} (h : decFirstWith k s = .next t) :
    (255 < k ∧ t = abort .toOut .invalidCode s) ∨
      (k ≤ 255 ∧ s.outSize.toNat < s.outPos.toNat + (firstEntry k s).length ∧ t = abort .toOut .bufferOverflow s) ∨
      (k ≤ 255 ∧ s.outPos.toNat + (firstEntry k s).length ≤ s.outSize.toNat ∧
        t = decAdvance (firstEntry k s) (pushOut (firstEntry k s) s)) := by
  unfold decFirstWith at h
  split at h
  · rename_i hb; cases h; exact .inl ⟨hb, rfl⟩
  · rename_i hb
    split at h
    · rename_i ho; cases h; exact .inr (.inl ⟨by omega, output_eq_none.mp ho, rfl⟩)
    · rename_i u ho
      obtain ⟨hp, rfl⟩ := output_eq_some.mp ho
      cases h; exact .inr (.inr ⟨by omega, hp, rfl⟩)

/-- DEC_NEXT's entry for the code `k` (43_decoder.md R163, R164). -/
def NextEntry (s : State) (k : Nat) (entry : Sequence) : Prop :=
  ddGet s k = some entry ∨ (ddGet s k = none ∧ k = s.nextCode.toNat ∧ entry = s.prev ++ [firstSymbol s.prev])

theorem decEntry_cases {entry : Sequence} (h : decEntry entry s = .next t) :
    (s.outSize.toNat < s.outPos.toNat + entry.length ∧ t = abort .toOut .bufferOverflow s) ∨
      (s.outPos.toNat + entry.length ≤ s.outSize.toNat ∧
        t = decAdvance entry (decBind (firstSymbol entry) (pushOut entry s))) := by
  unfold decEntry at h
  split at h
  · rename_i ho; cases h; exact .inl ⟨output_eq_none.mp ho, rfl⟩
  · rename_i u ho
    obtain ⟨hp, rfl⟩ := output_eq_some.mp ho
    cases h; exact .inr ⟨hp, rfl⟩

/-- DEC_NEXT for the code `k`. -/
theorem decNextWith_cases {k : Nat} (h : decNextWith k s = .next t) :
    (ddGet s k = none ∧ k ≠ s.nextCode.toNat ∧ t = abort .toOut .invalidCode s) ∨
      (∃ entry, NextEntry s k entry ∧ s.outSize.toNat < s.outPos.toNat + entry.length ∧
        t = abort .toOut .bufferOverflow s) ∨
      (∃ entry, NextEntry s k entry ∧ s.outPos.toNat + entry.length ≤ s.outSize.toNat ∧
        t = decAdvance entry (decBind (firstSymbol entry) (pushOut entry s))) := by
  have out : ∀ entry, NextEntry s k entry → decEntry entry s = .next t →
      (∃ entry, NextEntry s k entry ∧ s.outSize.toNat < s.outPos.toNat + entry.length ∧
        t = abort .toOut .bufferOverflow s) ∨
      (∃ entry, NextEntry s k entry ∧ s.outPos.toNat + entry.length ≤ s.outSize.toNat ∧
        t = decAdvance entry (decBind (firstSymbol entry) (pushOut entry s))) := by
    intro entry he hd
    rcases decEntry_cases hd with ⟨ho, rfl⟩ | ⟨ho, rfl⟩
    · exact .inl ⟨entry, he, ho, rfl⟩
    · exact .inr ⟨entry, he, ho, rfl⟩
  unfold decNextWith at h
  split at h
  · rename_i entry he; exact .inr (out entry (.inl he) h)
  · rename_i he
    split at h
    · rename_i hn; exact .inr (out _ (.inr ⟨he, hn, rfl⟩) h)
    · rename_i hn; cases h; exact .inl ⟨he, hn, rfl⟩

/-! ### The step -/

/-- A step is the host's turn, an engine turn without a micro-operation, or a micro-operation. -/
theorem step_cases (h : step s = .next t) :
    (mover s = .host ∧ hostTurn (tick s) = .next t) ∨
      (mover s = .engine ∧ fetch (tick s) = .ok none ∧ t = tick s) ∨
      (∃ i, mover s = .engine ∧ fetch (tick s) = .ok (some i) ∧ exec i (tick s) = .next t) := by
  unfold step at h
  split at h
  · rename_i hm; exact .inl ⟨hm, h⟩
  · rename_i hm
    split at h
    · cases h
    · rename_i hf; cases h; exact .inr (.inl ⟨hm, hf, rfl⟩)
    · rename_i i hf; exact .inr (.inr ⟨i, hm, hf, h⟩)

/-- The host's turn is idle or one access, with the program moved on. -/
theorem hostTurn_cases (h : hostTurn s = .next t) :
    (s.program = [] ∧ t = s) ∨
      (∃ op rest, s.program = op :: rest ∧
        hostAccess op { s with program := programAfter op rest s } = .next t) := by
  unfold hostTurn at h
  split at h
  · rename_i hp; cases h; exact .inl ⟨hp, rfl⟩
  · rename_i op rest hp; exact .inr ⟨op, rest, hp, h⟩

/-- A POLL that reads BUSY = 1 stays (30_encoding.md R103). -/
theorem programAfter_poll_busy {rest : List HostOp} (h : s.busy = true) :
    programAfter .poll rest s = .poll :: rest := by
  simp [programAfter, h]

/-- Every other access moves the program on. -/
theorem programAfter_moves {op : HostOp} {rest : List HostOp} (h : op ≠ .poll ∨ s.busy = false) :
    programAfter op rest s = rest := by
  unfold programAfter
  rw [if_neg]
  rintro ⟨rfl, hb⟩
  simp_all

/-- The host's turn runs the head of its program and moves the program on. -/
theorem hostTurn_access {op : HostOp} {rest : List HostOp} (hp : s.program = op :: rest)
    (h : op ≠ .poll ∨ s.busy = false) : hostTurn s = hostAccess op { s with program := rest } := by
  unfold hostTurn
  rw [hp]
  simp only [programAfter_moves h]

/-- A POLL's STATUS read: its value is STATUS, and it is the poll of a command's end exactly if BUSY = 0. -/
theorem hostAccess_poll : hostAccess .poll s =
    .next { s with rdata := statusWord s, unpolled := s.unpolled && s.busy } := by
  simp [hostAccess, hostReadReg, drawnWhileBusy, registerValue]

/-- A host access that the block takes. -/
theorem hostAccess_cases {op : HostOp} (h : hostAccess op s = .next t) :
    (∃ bits off, op = .readReg bits off ∧ registerShape bits off = true ∧ t = hostReadReg off s) ∨
      (∃ bits off v, op = .writeReg bits off v ∧ registerShape bits off = true ∧ t = hostWriteReg off v s) ∨
      (∃ b i, op = .readBuf b i ∧ i < bufferSize b s ∧ t = hostReadBuf b i s) ∨
      (∃ b i v, op = .writeBuf b i v ∧ i < bufferSize b s ∧ t = hostWriteBuf b i v s) ∨
      (op = .poll ∧ t = hostReadReg Offset.status s) ∨ (op = .reset ∧ t = resetEvent s) := by
  cases op with
  | readReg bits off =>
    simp only [hostAccess] at h
    split at h
    · rename_i hs; cases h; exact .inl ⟨_, _, rfl, hs, rfl⟩
    · cases h
  | writeReg bits off v =>
    simp only [hostAccess] at h
    split at h
    · rename_i hs; cases h; exact .inr (.inl ⟨_, _, _, rfl, hs, rfl⟩)
    · cases h
  | readBuf b i =>
    simp only [hostAccess] at h
    split at h
    · rename_i hs; cases h; exact .inr (.inr (.inl ⟨_, _, rfl, hs, rfl⟩))
    · cases h
  | writeBuf b i v =>
    simp only [hostAccess] at h
    split at h
    · rename_i hs; cases h; exact .inr (.inr (.inr (.inl ⟨_, _, _, rfl, hs, rfl⟩)))
    · cases h
  | poll => cases h; exact .inr (.inr (.inr (.inr (.inl ⟨rfl, rfl⟩))))
  | reset => cases h; exact .inr (.inr (.inr (.inr (.inr ⟨rfl, rfl⟩))))

end Sys2Proof.Machine
end

