-- ==== Sys2Proof/Laws/Fetch.lean ====
section
/-! SUPPORT. What the fetch selects, PHASE by PHASE (30_encoding.md R101). -/

namespace Sys2Proof.Machine

/-- A PHASE without a condition selects its one row. -/
theorem fetch_straight {s : State} {p : BitVec 4} (hb : s.busy = true) (hp : s.phase = p)
    (h3 : p ≠ 3) (h5 : p ≠ 5) (h7 : p ≠ 7) (h9 : p ≠ 9) :
    fetch s = match decodeSelection (p.setWidth 8) with
      | .ok i => .ok (some i)
      | .error .idlePhase => .ok none
      | .error _ => .error .unreachablePhase := by
  subst hp
  simp only [fetch, hb, if_true, selectionByte, Phase.encLoop, Phase.serLoop, Phase.desLoop, Phase.decLoop, h3, h5,
    h7, h9, if_false]
  generalize decodeSelection (BitVec.setWidth 8 s.phase) = d
  rcases d with e | i
  · cases e <;> rfl
  · rfl

/-- A loop's two rows: below its length, and from it on. -/
def loopFetch (pos len : Word) (below atEnd : Instr) : Except Fault (Option Instr) :=
  .ok (some (if pos.toNat < len.toNat then below else atEnd))

theorem fetch_encLoop {s : State} (hb : s.busy = true) (hp : s.phase = 3) :
    fetch s = loopFetch s.inPos s.inLen .encSymbol .encEnd := by
  simp only [fetch, hb, if_true, selectionByte, Phase.encLoop, hp, loopSelection, loopFetch]
  by_cases h1 : s.inPos.toNat < s.inLen.toNat
  · simp only [h1, if_true]; rfl
  · simp only [h1, if_false]; rfl

theorem fetch_serLoop {s : State} (hb : s.busy = true) (hp : s.phase = 5) :
    fetch s = loopFetch s.codePos s.codeLen .serCode .serEnd := by
  simp only [fetch, hb, if_true, selectionByte, Phase.encLoop, Phase.serLoop, hp, loopSelection, loopFetch]
  rw [if_neg (by decide)]
  by_cases h1 : s.codePos.toNat < s.codeLen.toNat
  · simp only [h1, if_true]; rfl
  · simp only [h1, if_false]; rfl

theorem fetch_desLoop {s : State} (hb : s.busy = true) (hp : s.phase = 7) :
    fetch s = loopFetch s.codePos s.desN .desCode .desEnd := by
  simp only [fetch, hb, if_true, selectionByte, Phase.encLoop, Phase.serLoop, Phase.desLoop, hp, loopSelection,
    loopFetch]
  rw [if_neg (by decide), if_neg (by decide)]
  by_cases h1 : s.codePos.toNat < s.desN.toNat
  · simp only [h1, if_true]; rfl
  · simp only [h1, if_false]; rfl

theorem fetch_decLoop {s : State} (hb : s.busy = true) (hp : s.phase = 9) :
    fetch s = loopFetch s.codePos s.codeLen (if s.prevValid then .decNext else .decFirst) .decEnd := by
  simp only [fetch, hb, if_true, selectionByte, Phase.encLoop, Phase.serLoop, Phase.desLoop, Phase.decLoop, hp,
    loopSelection, loopFetch, prevValidBit]
  rw [if_neg (by decide), if_neg (by decide), if_neg (by decide)]
  by_cases h1 : s.codePos.toNat < s.codeLen.toNat
  · simp only [h1, if_true]; cases s.prevValid <;> rfl
  · simp only [h1, if_false]; rfl

theorem loopFetch_some {pos len : Word} {a b i : Instr} : loopFetch pos len a b = .ok (some i) ↔
    (pos.toNat < len.toNat ∧ i = a) ∨ (len.toNat ≤ pos.toNat ∧ i = b) := by
  unfold loopFetch
  split
  · rename_i h; simp [h, eq_comm]
  · rename_i h; simp [h, Nat.not_lt.mp h, eq_comm]

end Sys2Proof.Machine
end

