-- ==== Sys2Proof/Laws/Invariants.lean ====
section
/-! SUPPORT. Each micro-operation of a loop keeps that loop's invariant, and each INIT establishes it. -/

namespace Sys2Proof.Machine

variable {s : State}

/-! ### The Encoder -/

theorem encodeLoopInv_encStart (hc : CfgLegal s) (hl : s.inLen.toNat ≤ s.inSize.toNat) :
    EncodeLoopInv (encStart s) where
  width := (widthInv_cwInit (s := edInit s) hc rfl).congr rfl rfl rfl rfl rfl
  dict := encodeDictInv_initial
  pos_le := Nat.zero_le _
  len_le := hl
  code_le := Nat.zero_le _
  cur_empty := by simp [encStart]
  cur_bound := by simp [encStart]
  emitted_le := Nat.zero_le _

theorem EncodeLoopInv.extend (h : EncodeLoopInv s) (hp : s.inPos.toNat < s.inLen.toNat) {c : Byte}
    (hk : (edLookup s.ed (s.cur ++ [c])).isSome) : EncodeLoopInv (encExtend (s.cur ++ [c]) s) := by
  have hpos : (s.inPos + 1).toNat = s.inPos.toNat + 1 := add_one_toNat hp
  have hem := h.emitted_le
  refine ⟨h.width.congr rfl rfl rfl rfl rfl, h.dict, ?_, h.len_le, h.code_le, ?_, ?_, ?_⟩
  · simp only [encExtend, hpos]; omega
  · simp only [encExtend, hpos]; simp
  · intro _; exact hk
  · simp only [encExtend, hpos]; omega

/-- What `encRestart` leaves of the registers it does not bind in. -/
theorem encRestart_spec (cand : Sequence) (c : Byte) (s : State) :
    ∃ (ed : EncodeDict) (n : BitVec 17) (cb : BitVec 5) (mc : BitVec 17),
      encRestart cand c s =
        { s with ed := ed, nextCode := n, curBits := cb, maxCode := mc, cur := [c], inPos := s.inPos + 1 } := by
  unfold encRestart
  by_cases h : hasCapacity s = true
  · simp only [h, if_true]
    exact ⟨_, _, _, _, rfl⟩
  · simp only [h]
    exact ⟨s.ed, s.nextCode, s.curBits, s.maxCode, rfl⟩

theorem EncodeLoopInv.restart (h : EncodeLoopInv s) (hc : CfgLegal s) (hp : s.inPos.toNat < s.inLen.toNat) {c : Byte}
    {k : Nat} (habs : edLookup s.ed (s.cur ++ [c]) = none) (hk : edLookup s.ed s.cur = some k)
    (hs : s.codePos.toNat < s.codeSize.toNat) :
    EncodeLoopInv (encRestart (s.cur ++ [c]) c (pushCode (BitVec.ofNat 16 k) s)) := by
  have hpos : (s.inPos + 1).toNat = s.inPos.toNat + 1 := add_one_toNat hp
  have hcode : (s.codePos + 1).toNat = s.codePos.toNat + 1 := add_one_toNat hs
  have hne : s.cur ≠ [] := fun e => by rw [e, edLookup_nil] at hk; cases hk
  have hin : s.inPos.toNat ≠ 0 := fun e => hne (h.cur_empty.mpr e)
  have hem := h.emitted_le
  have hcap : hasCapacity (pushCode (BitVec.ofNat 16 k) s) = hasCapacity s := rfl
  have hrest : ∀ t : State, WidthInv t → EncodeDictInv t.ed t.nextCode.toNat → t.inPos = s.inPos + 1 →
      t.inLen = s.inLen → t.inSize = s.inSize → t.codePos = s.codePos + 1 → t.codeSize = s.codeSize →
      t.cur = [c] → EncodeLoopInv t := by
    intro t hw hd h1 h2 h3 h4 h5 h6
    refine ⟨hw, hd, ?_, ?_, ?_, ?_, ?_, ?_⟩
    · rw [h1, h2, hpos]; omega
    · rw [h2, h3]; exact h.len_le
    · rw [h4, h5, hcode]; omega
    · rw [h6, h1, hpos]; simp
    · rw [h6, hd.symbols c]; simp
    · rw [h4, h1, hpos, hcode]; omega
  unfold encRestart
  simp only [hcap]
  by_cases hcp : hasCapacity s = true
  · simp only [hcp, if_true]
    refine hrest _ ?_ ?_ rfl rfl rfl rfl rfl rfl
    · exact (h.width.grow hc hcp (t := edInsert (s.cur ++ [c]) (pushCode (BitVec.ofNat 16 k) s)) rfl rfl rfl rfl
        rfl).congr rfl rfl rfl rfl rfl
    · have hn : (s.nextCode + 1).toNat = s.nextCode.toNat + 1 := by
        have := (h.width.capacity_iff hc).mp hcp
        have : 2 ^ s.maxBits.toNat ≤ 2 ^ 16 := Nat.pow_le_pow_right (by omega) hc.2
        rw [BitVec.toNat_add]; simp; omega
      have hd := h.dict.insert habs (fun _ => by rw [hk]; rfl)
      simp only [cwGrow_ed, cwGrow_nextCode, edInsert_ed, edInsert_nextCode, pushCode_ed, pushCode_nextCode, habs, hn]
      exact hd
  · simp only [hcp]
    exact hrest _ (h.width.congr rfl rfl rfl rfl rfl) h.dict rfl rfl rfl rfl rfl rfl

/-! ### The stream codec -/

/-- Every legal width takes two bytes a code (45_stream_codec.md R207). -/
theorem bytesPerCode_eq_two {w : Nat} (h9 : 9 ≤ w) (h16 : w ≤ 16) : bytesPerCode w = 2 := by
  unfold bytesPerCode; omega

theorem serializeLoopInv_serStartStatic (hl : s.codeLen.toNat ≤ s.codeSize.toNat) (hv : s.var = .static) :
    SerializeLoopInv (serStartStatic s) :=
  ⟨Nat.zero_le _, hl, rfl, by simp [serStartStatic, headerBytes, hv], Nat.zero_le _⟩

theorem serializeLoopInv_serStartDynamic (hc : CfgLegal s) (hl : s.codeLen.toNat ≤ s.codeSize.toNat)
    (hv : s.var = .dynamic) (hw : widthLegal s.width s = true) (ho : 1 ≤ s.outSize.toNat) :
    SerializeLoopInv (serStartDynamic s) := by
  rw [widthLegal_iff] at hw
  refine ⟨Nat.zero_le _, hl, ?_, by simp [serStartDynamic, headerBytes, hv], ho⟩
  simp [serStartDynamic, bytesPerCode_eq_two hw.1 (Nat.le_trans hw.2 hc.2)]

theorem SerializeLoopInv.code (h : SerializeLoopInv s) (hp : s.codePos.toNat < s.codeLen.toNat) (k : Nat)
    (ho : s.outPos.toNat + s.serB.toNat ≤ s.outSize.toNat) :
    SerializeLoopInv (serAdvance (pushOut (bigEndian s.serB.toNat k) s)) := by
  have hpos : (s.codePos + 1).toNat = s.codePos.toNat + 1 := add_one_toNat hp
  have hb : s.serB.toNat = 2 := by rw [h.bytes_two]; rfl
  have hout := ofNat_toNat_of_le ho
  have heq := h.out_eq
  rw [hb] at ho hout
  refine ⟨?_, h.len_le, h.bytes_two, ?_, ?_⟩
  · simp only [serAdvance, pushOut, hpos]; omega
  · simp only [serAdvance, pushOut, hpos, bigEndian_length, hb, hout]
    simp only [headerBytes] at heq ⊢; omega
  · simp only [serAdvance, pushOut, bigEndian_length, hb, hout]; omega

theorem deserializeLoopInv_desStartStatic (hc : CfgLegal s) (hl : s.inLen.toNat ≤ s.inSize.toNat)
    (hv : s.var = .static) (he : s.inLen.toNat % 2 = 0) : DeserializeLoopInv (desStartStatic s) := by
  have hn : (BitVec.ofNat 32 (s.inLen.toNat / 2)).toNat = s.inLen.toNat / 2 :=
    ofNat_toNat_of_le (Nat.le_trans (Nat.div_le_self _ _) hl)
  refine ⟨Nat.zero_le _, hl, Nat.zero_le _, rfl, by simp [desStartStatic, headerBytes, hv], ?_, hc.1, Nat.le_refl _⟩
  simp only [desStartStatic, headerBytes, hv, hn]; omega

theorem deserializeLoopInv_desStartDynamic (hc : CfgLegal s) (hl : s.inLen.toNat ≤ s.inSize.toNat)
    (hv : s.var = .dynamic) (h0 : s.inLen ≠ 0) {h : Byte} (hw : widthLegal h s = true)
    (he : (s.inLen.toNat - 1) % bytesPerCode h.toNat = 0) : DeserializeLoopInv (desStartDynamic h s) := by
  rw [widthLegal_iff] at hw
  have hb := bytesPerCode_eq_two hw.1 (Nat.le_trans hw.2 hc.2)
  have h1 : s.inLen.toNat ≠ 0 := fun e => h0 (BitVec.eq_of_toNat_eq e)
  rw [hb] at he
  have hn : (BitVec.ofNat 32 ((s.inLen.toNat - 1) / 2)).toNat = (s.inLen.toNat - 1) / 2 :=
    ofNat_toNat_of_le (size := s.inSize) (by omega)
  refine ⟨Nat.zero_le _, hl, Nat.zero_le _, by simp [desStartDynamic, hb],
    by simp [desStartDynamic, headerBytes, hv], ?_, hw.1, hw.2⟩
  simp only [desStartDynamic, headerBytes, hv, hb, hn]; omega

theorem DeserializeLoopInv.code (h : DeserializeLoopInv s) (hp : s.codePos.toNat < s.desN.toNat) (bs : List Byte)
    (hs : s.codePos.toNat < s.codeSize.toNat) : DeserializeLoopInv (desStore bs s) := by
  have hpos : (s.codePos + 1).toNat = s.codePos.toNat + 1 := add_one_toNat hp
  have hb : s.serB.toNat = 2 := by rw [h.bytes_two]; rfl
  have hin := h.in_eq
  have hfr := h.frame_eq
  have hle := h.len_le
  have hn : (BitVec.ofNat 32 (s.inPos.toNat + 2)).toNat = s.inPos.toNat + 2 :=
    ofNat_toNat_of_le (size := s.inSize) (by omega)
  refine ⟨?_, h.len_le, ?_, h.bytes_two, ?_, h.frame_eq, h.header_ge, h.header_le⟩
  · simp only [desStore, pushCode, hpos]; omega
  · simp only [desStore, pushCode, hpos]; omega
  · simp only [desStore, pushCode, hpos, hb, hn]
    simp only [headerBytes] at hin ⊢; omega

/-- The two bytes DES_CODE reads lie inside IN (20_memory.md R69). -/
theorem DeserializeLoopInv.run_le (h : DeserializeLoopInv s) (hp : s.codePos.toNat < s.desN.toNat) :
    s.inPos.toNat + s.serB.toNat ≤ s.inSize.toNat := by
  have hb : s.serB.toNat = 2 := by rw [h.bytes_two]; rfl
  have := h.in_eq
  have := h.frame_eq
  have := h.len_le
  omega

/-! ### The Decoder -/

theorem decodeLoopInv_decStart (hc : CfgLegal s) (hl : s.codeLen.toNat ≤ s.codeSize.toNat) :
    DecodeLoopInv (decStart s) where
  width := (widthInv_cwInit (s := ddInit s) hc rfl).congr rfl rfl rfl rfl rfl
  dict := decodeDictInv_initial
  pos_le := Nat.zero_le _
  len_le := hl
  out_le := Nat.zero_le _
  prev_nonempty := by simp [decStart]

/-- DD_GET answers a bound, non-empty Sequence exactly below NEXT_CODE (41_dictionary.md R129, R131). -/
theorem DecodeDictInv.get (h : DecodeDictInv s.dd s.nextCode.toNat) (k : Nat) :
    (k < s.nextCode.toNat ∧ ∃ q, ddGet s k = some q ∧ q ≠ []) ∨ (s.nextCode.toNat ≤ k ∧ ddGet s k = none) := by
  unfold ddGet
  by_cases hk : k < s.nextCode.toNat
  · obtain ⟨q, hq, hne⟩ := h.bound hk
    exact .inl ⟨hk, q, by rw [if_pos hk, hq], hne⟩
  · exact .inr ⟨by omega, by rw [if_neg hk]⟩

theorem DecodeLoopInv.first (h : DecodeLoopInv s) (hp : s.codePos.toNat < s.codeLen.toNat) {entry : Sequence}
    (hne : entry ≠ []) (ho : s.outPos.toNat + entry.length ≤ s.outSize.toNat) :
    DecodeLoopInv (decAdvance entry (pushOut entry s)) := by
  have hpos : (s.codePos + 1).toNat = s.codePos.toNat + 1 := add_one_toNat hp
  refine ⟨h.width.congr rfl rfl rfl rfl rfl, h.dict, ?_, h.len_le, ?_, fun _ => hne⟩
  · simp only [decAdvance, pushOut, hpos]; omega
  · simp only [decAdvance, pushOut, ofNat_toNat_of_le ho]; exact ho

/-- What `decBind` leaves of the registers it does not bind in. -/
theorem decBind_spec (first : Byte) (s : State) :
    ∃ (dd : DecodeDict) (n : BitVec 17) (cb : BitVec 5) (mc : BitVec 17),
      decBind first s = { s with dd := dd, nextCode := n, curBits := cb, maxCode := mc } := by
  unfold decBind
  by_cases h : hasCapacity s = true
  · simp only [h, if_true]
    exact ⟨_, _, _, _, rfl⟩
  · simp only [h]
    exact ⟨s.dd, s.nextCode, s.curBits, s.maxCode, rfl⟩

/-- The binding of DEC_NEXT keeps the width controller's and the dictionary's invariants. -/
theorem decBind_inv (hw : WidthInv s) (hd : DecodeDictInv s.dd s.nextCode.toNat) (hc : CfgLegal s) (first : Byte) :
    WidthInv (decBind first s) ∧ DecodeDictInv (decBind first s).dd (decBind first s).nextCode.toNat := by
  unfold decBind
  by_cases hcp : hasCapacity s = true
  · simp only [hcp, if_true]
    refine ⟨hw.grow hc hcp (t := ddBind (s.prev ++ [first]) s) rfl rfl rfl rfl rfl, ?_⟩
    have hn : (s.nextCode + 1).toNat = s.nextCode.toNat + 1 := by
      have := (hw.capacity_iff hc).mp hcp
      have : 2 ^ s.maxBits.toNat ≤ 2 ^ 16 := Nat.pow_le_pow_right (by omega) hc.2
      rw [BitVec.toNat_add]; simp; omega
    have := hd.bind (q := s.prev ++ [first]) (by simp)
    simp only [cwGrow_dd, cwGrow_nextCode, ddBind_dd, ddBind_nextCode, hn]
    exact this
  · simp only [hcp]
    exact ⟨hw, hd⟩

theorem DecodeLoopInv.next (h : DecodeLoopInv s) (hc : CfgLegal s) (hp : s.codePos.toNat < s.codeLen.toNat)
    {entry : Sequence} (first : Byte) (hne : entry ≠ [])
    (ho : s.outPos.toNat + entry.length ≤ s.outSize.toNat) :
    DecodeLoopInv (decAdvance entry (decBind first (pushOut entry s))) := by
  have hpos : (s.codePos + 1).toNat = s.codePos.toNat + 1 := add_one_toNat hp
  obtain ⟨hw, hd⟩ := decBind_inv (s := pushOut entry s) (h.width.congr rfl rfl rfl rfl rfl) h.dict hc first
  obtain ⟨dd, n, cb, mc, he⟩ := decBind_spec first (pushOut entry s)
  rw [he] at hw hd ⊢
  refine ⟨hw.congr rfl rfl rfl rfl rfl, hd, ?_, h.len_le, ?_, fun _ => hne⟩
  · simp only [decAdvance, pushOut, hpos]; omega
  · simp only [decAdvance, pushOut, ofNat_toNat_of_le ho]; exact ho

end Sys2Proof.Machine
end

