-- ==== Sys2Proof/Laws/PerInstr.lean ====
section
/-! SUPPORT. One family of statements made per instruction: the encoding of a well-formed instruction fits its
row of the opcode table (30_encoding.md R91, R101). -/

namespace Sys2Proof.Laws.MatchesTable

/-- The bits of an encoding as one number, numbered as the opcode table numbers them. -/
def number : Encoding → Nat
  | .command w => w.toNat
  | .selection b => b.toNat

/-- The mask of an instruction's row: CONFIGURE's leaves MAXB and VARB open, a micro-operation's is PHASE. -/
def mask : Instr → Nat
  | .nop | .encode | .serialize | .deserialize | .decode | .compress | .decompress => 0xFFFFFFFF
  | .configure _ _ => 0xFFFE00FF
  | .dispatch | .encInit | .encSymbol | .encEnd | .serInit | .serCode | .serEnd | .desInit | .desCode | .desEnd
  | .decInit | .decFirst | .decNext | .decEnd => 0xF

/-- The match of an instruction's row. -/
def pattern : Instr → Nat
  | .nop => 0
  | .configure _ _ => 1
  | .encode => 2
  | .serialize => 3
  | .deserialize => 4
  | .decode => 5
  | .compress => 6
  | .decompress => 7
  | .dispatch => 1
  | .encInit => 2
  | .encSymbol => 3
  | .encEnd => 3
  | .serInit => 4
  | .serCode => 5
  | .serEnd => 5
  | .desInit => 6
  | .desCode => 7
  | .desEnd => 7
  | .decInit => 8
  | .decFirst => 9
  | .decNext => 9
  | .decEnd => 9

def Statement (i : Instr) : Prop := i.wellFormed = true → number (encode i) &&& mask i = pattern i

theorem nop : Statement .nop := fun _ => rfl

theorem configure (v : Variant) (m : Nat) : Statement (.configure v m) := by
  intro h
  have hm : m < 256 := by simpa [Instr.wellFormed] using h
  have table : ∀ k : Fin 256, ((if v = .dynamic then 65536 else 0) + k.val * 256 + 1) &&& 0xFFFE00FF = 1 := by
    cases v <;> decide +kernel
  simpa [number, mask, pattern, encode, configureWord_toNat v hm] using table ⟨m, hm⟩

theorem encode : Statement .encode := fun _ => rfl

theorem serialize : Statement .serialize := fun _ => rfl

theorem deserialize : Statement .deserialize := fun _ => rfl

theorem decode : Statement .decode := fun _ => rfl

theorem compress : Statement .compress := fun _ => rfl

theorem decompress : Statement .decompress := fun _ => rfl

theorem dispatch : Statement .dispatch := fun _ => rfl

theorem encInit : Statement .encInit := fun _ => rfl

theorem encSymbol : Statement .encSymbol := fun _ => rfl

theorem encEnd : Statement .encEnd := fun _ => rfl

theorem serInit : Statement .serInit := fun _ => rfl

theorem serCode : Statement .serCode := fun _ => rfl

theorem serEnd : Statement .serEnd := fun _ => rfl

theorem desInit : Statement .desInit := fun _ => rfl

theorem desCode : Statement .desCode := fun _ => rfl

theorem desEnd : Statement .desEnd := fun _ => rfl

theorem decInit : Statement .decInit := fun _ => rfl

theorem decFirst : Statement .decFirst := fun _ => rfl

theorem decNext : Statement .decNext := fun _ => rfl

theorem decEnd : Statement .decEnd := fun _ => rfl

end Sys2Proof.Laws.MatchesTable
end

