-- ==== Sys2Proof/Tests/Slice0.lean ====
section
/-! SUPPORT. The model's own tests: every constructor's encoding from the tables of 30_encoding.md R91 and
R101, one or two single steps per instruction with the results of 95_test_vectors.md or of the rule's own
example, and the witnesses of the obligations' hypotheses. -/

open Sys2Proof Sys2Proof.Machine

namespace Sys2Proof.Tests

/-! ### Well-formedness -/

/-- MAXB has eight bits (30_encoding.md R90, R92). -/
theorem test_wellFormed_refuses_maxb_of_nine_bits : (Instr.configure .static 256).wellFormed = false := by decide

theorem test_wellFormed_accepts_every_byte : (Instr.configure .dynamic 255).wellFormed = true := by decide

/-! ### Decoding: the patterns of R91 and the table of R101, written out -/

theorem test_decode_commands :
    decode (.command 0b00000000000000000000000000000000) = .ok .nop ∧
    decode (.command 0b00000000000000010000110000000001) = .ok (.configure .dynamic 12) ∧
    decode (.command 0b00000000000000001111111100000001) = .ok (.configure .static 255) ∧
    decode (.command 0b00000000000000000000000000000010) = .ok .encode ∧
    decode (.command 0b00000000000000000000000000000011) = .ok .serialize ∧
    decode (.command 0b00000000000000000000000000000100) = .ok .deserialize ∧
    decode (.command 0b00000000000000000000000000000101) = .ok .decode ∧
    decode (.command 0b00000000000000000000000000000110) = .ok .compress ∧
    decode (.command 0b00000000000000000000000000000111) = .ok .decompress := by decide

/-- V-CMD-10 to V-CMD-16. -/
theorem test_decode_illegal_commands :
    decode (.command 0x00000008) = .error .illegalCommand ∧ decode (.command 0x000000FF) = .error .illegalCommand ∧
    decode (.command 0x00000108) = .error .illegalCommand ∧ decode (.command 0x00000102) = .error .illegalCommand ∧
    decode (.command 0x00010002) = .error .illegalCommand ∧ decode (.command 0x00020002) = .error .illegalCommand ∧
    decode (.command 0x00021101) = .error .illegalCommand ∧ decode (.command 0xFFFFFFFF) = .error .illegalCommand := by
  decide

/-- PHASE in bits [3:0]; bit 4: the loop's position equals its length; bit 5: PREV_VALID. -/
theorem test_decode_microOperations :
    decode (.selection 0b000001) = .ok .dispatch ∧ decode (.selection 0b000010) = .ok .encInit ∧
    decode (.selection 0b000011) = .ok .encSymbol ∧ decode (.selection 0b010011) = .ok .encEnd ∧
    decode (.selection 0b000100) = .ok .serInit ∧ decode (.selection 0b000101) = .ok .serCode ∧
    decode (.selection 0b010101) = .ok .serEnd ∧ decode (.selection 0b000110) = .ok .desInit ∧
    decode (.selection 0b000111) = .ok .desCode ∧ decode (.selection 0b010111) = .ok .desEnd ∧
    decode (.selection 0b001000) = .ok .decInit ∧ decode (.selection 0b001001) = .ok .decFirst ∧
    decode (.selection 0b101001) = .ok .decNext ∧ decode (.selection 0b011001) = .ok .decEnd ∧
    decode (.selection 0b000000) = .error .idlePhase ∧ decode (.selection 0b001010) = .error .unreachablePhase := by
  decide

theorem test_decodeTableWord :
    decodeTableWord 32 0x00010C01 = some (.configure .dynamic 12) ∧ decodeTableWord 32 0x00000108 = none ∧
    decodeTableWord 8 0x2 = some .encInit ∧ decodeTableWord 8 0x0 = none := by decide

/-! ### Single steps -/

/-- A field of the next state. -/
def after {α : Type} (o : Host.Outcome State Fault Refusal) (f : State → α) : Option α :=
  match o with
  | .next t => some (f t)
  | .fault _ => none
  | .refused _ => none

/-- A block with sixteen-element buffers, running a command. -/
def small : State :=
  { State.reset with inSize := 16, outSize := 16, codeSize := 16, busy := true, phase := Phase.dispatch, unpolled := true }

/-- A buffer whose elements from 0 on are listed. -/
def filled {w : Nat} (vs : List (BitVec w)) : Buffer w := bufSetRun ⟨0, []⟩ 0 vs

/-- V-CMD-17: NOP after an error leaves STATUS = 0. -/
theorem test_nop : after (exec .dispatch (accept 0 { State.reset with err := 3 })) statusWord = some 0 := by decide

/-- V-CMD-3. -/
theorem test_configure_static_nine :
    after (exec (.configure .static 9) small) (fun t => (statusWord t, cfgWord t)) = some (0, 0x00000900) := by decide

/-- V-CMD-8. -/
theorem test_configure_refuses_seventeen :
    after (exec (.configure .static 17) small) (fun t => (statusWord t, cfgWord t)) = some (0x00000300, 0x00010C00) := by
  decide

/-- V-CMD-16: IllegalCommand before ConfigurationError (60_exceptions.md R264). -/
theorem test_dispatch_illegal_before_configuration :
    after (exec .dispatch { small with opc := 0x00021101 }) (fun t => (statusWord t, cfgWord t)) =
      some (0x00000400, 0x00010C00) := by decide

/-- 46_host_commands.md R231, R234–R239: PHASE and CHAIN after each command's dispatch. -/
theorem test_dispatch_starts_the_halves :
    (List.map (fun w : Word => after (exec .dispatch { small with opc := w }) fun t => (t.phase, t.chain)) [2, 3, 4, 5, 6, 7]) =
      [some (2, false), some (4, false), some (6, false), some (8, false), some (2, true), some (6, true)] := by decide

theorem test_commands_start_as_dispatch_does :
    after (exec .encode small) (fun t => t.phase) = some 2 ∧ after (exec .serialize small) (fun t => t.phase) = some 4 ∧
    after (exec .deserialize small) (fun t => t.phase) = some 6 ∧ after (exec .decode small) (fun t => t.phase) = some 8 ∧
    after (exec .compress small) (fun t => (t.phase, t.chain)) = some (2, true) ∧
    after (exec .decompress small) (fun t => (t.phase, t.chain)) = some (6, true) := by decide

/-- 42_encoder.md R141, its example. -/
theorem test_encInit :
    after (exec .encInit { small with inLen := 7 }) (fun t => (t.nextCode, t.curBits, t.maxCode, t.cur, t.phase)) =
      some (256, 9, 511, [], 3) := by decide

/-- V-ENC-E2. -/
theorem test_encInit_overflow :
    after (exec .encInit { small with inLen := 17, codeLen := 4 }) (fun t => (statusWord t, t.codeLen)) =
      some (0x00000500, 0) := by decide

/-- The Encoder with a fresh dictionary in front of the byte 0x42, 0x41 consumed. -/
def encoding : State :=
  { encStart { small with inLen := 2, inBuf := filled [0x41, 0x42] } with cur := [0x41], inPos := 1 }

/-- 42_encoder.md R142, its example. -/
theorem test_encSymbol_binds :
    after (exec .encSymbol encoding) (fun t => (t.nextCode, t.cur, elementCode t 0, t.codePos, edLookup t.ed [0x41, 0x42])) =
      some (257, [0x42], 65, 1, some 256) := by decide +kernel

/-- V-CW-3: the binding of code 511 under DYNAMIC/12. -/
theorem test_encSymbol_grows :
    after (exec .encSymbol { encoding with nextCode := 511 }) (fun t => (t.nextCode, t.curBits, t.maxCode)) =
      some (512, 10, 1023) := by decide +kernel

/-- 42_encoder.md R144, its example: input "A". -/
theorem test_encEnd :
    after (exec .encEnd encoding) (fun t => (elementCode t 0, t.codeLen, t.width, statusWord t)) = some (65, 1, 9, 0) := by
  decide +kernel

/-- V-ENC-E1: CODE_SIZE = 1. -/
theorem test_encEnd_overflow :
    after (exec .encEnd { encoding with codeSize := 1, codePos := 1, width := 7 }) (fun t => (statusWord t, t.codeLen, t.width)) =
      some (0x00000500, 0, 7) := by decide +kernel

/-- 45_stream_codec.md R201, its example. -/
theorem test_serInit :
    after (exec .serInit { small with width := 9 }) (fun t => (elementOut t 0, t.outPos, t.serB)) = some (9, 1, 2) := by
  decide

/-- V-SER-9. -/
theorem test_serInit_width_after_reset :
    after (exec .serInit small) (fun t => (statusWord t, t.outLen)) = some (0x00000300, 0) := by decide

/-- 45_stream_codec.md R202, its example. -/
theorem test_serCode :
    after (exec .serCode { small with codeBuf := filled [258], codeLen := 1, outPos := 7, serB := 2 })
      (fun t => (elementOut t 7, elementOut t 8, t.outPos)) = some (1, 2, 9) := by decide

/-- V-SER-14. -/
theorem test_serCode_overflow :
    after (exec .serCode { small with codeBuf := filled [65], codeLen := 1, outPos := 1, serB := 2, outSize := 2 })
      (fun t => (statusWord t, t.outLen)) = some (0x00000500, 0) := by decide

/-- 45_stream_codec.md R203, its example. -/
theorem test_serEnd : after (exec .serEnd { small with outPos := 3 }) (fun t => (t.outLen, statusWord t)) = some (3, 0) := by
  decide

/-- 45_stream_codec.md R204, its example. -/
theorem test_desInit :
    after (exec .desInit { small with inBuf := filled [9, 0, 0x41, 0, 0x42], inLen := 5 })
      (fun t => (t.desH, t.serB, t.desN, t.inPos)) = some (9, 2, 2, 1) := by decide

/-- V-DES-12: a dynamic frame read under STATIC has an odd length. -/
theorem test_desInit_odd_length :
    after (exec .desInit { small with var := .static, inBuf := filled [9, 0, 0x41], inLen := 3 }) statusWord =
      some 0x00000200 := by decide

/-- 45_stream_codec.md R205, its example. -/
theorem test_desCode :
    after (exec .desCode { small with inBuf := filled [9, 1, 2], inPos := 1, serB := 2, desN := 1 })
      (fun t => (elementCode t 0, t.inPos, t.codePos)) = some (258, 3, 1) := by decide

/-- V-DES-14. -/
theorem test_desCode_overflow :
    after (exec .desCode { small with inBuf := filled [9, 0, 0x41], inPos := 1, serB := 2, desN := 1, codeSize := 0 })
      statusWord = some 0x00000500 := by decide

/-- 45_stream_codec.md R206, its example, and its chained form. -/
theorem test_desEnd :
    after (exec .desEnd { small with codePos := 1, desH := 9 }) (fun t => (t.codeLen, t.width, statusWord t)) =
      some (1, 9, 0) ∧
    after (exec .desEnd { small with codePos := 1, desH := 9, chain := true }) (fun t => (t.phase, t.chain, t.busy)) =
      some (8, false, true) := by decide

/-- 43_decoder.md R161, its example. -/
theorem test_decInit :
    after (exec .decInit { small with codeLen := 4, prevValid := true }) (fun t => (t.nextCode, t.prevValid, t.phase)) =
      some (256, false, 9) := by decide

/-- 43_decoder.md R162, its example. -/
theorem test_decFirst :
    after (exec .decFirst (decStart { small with codeLen := 1, codeBuf := filled [65] }))
      (fun t => (elementOut t 0, t.prev, t.outPos)) = some (0x41, [0x41], 1) := by decide +kernel

/-- V-DEC-16: InvalidCode before the overflow. -/
theorem test_decFirst_invalid_before_overflow :
    after (exec .decFirst (decStart { small with codeLen := 1, codeBuf := filled [300], outSize := 0 })) statusWord =
      some 0x00000200 := by decide +kernel

/-- 43_decoder.md R164, its example: code 258 with PREV = "AB". -/
theorem test_decNext_kwkwk :
    after (exec .decNext { decStart { small with codeLen := 1, codeBuf := filled [258] } with
      nextCode := 258, prev := [0x41, 0x42], prevValid := true })
      (fun t => (elementOut t 0, elementOut t 1, elementOut t 2, ddFind t.dd 258, t.nextCode)) =
      some (0x41, 0x42, 0x41, some [0x41, 0x42, 0x41], 259) := by decide +kernel

/-- 43_decoder.md R165, its example: MAX_BITS = 9 and NEXT_CODE = 512. -/
theorem test_decNext_full_table :
    after (exec .decNext { decStart { small with var := .static, maxBits := 9, codeLen := 1, codeBuf := filled [512] } with
      nextCode := 512, prev := [0], prevValid := true })
      (fun t => (elementOut t 0, elementOut t 1, t.outPos, t.nextCode, t.err)) = some (0, 0, 2, 512, 0) := by
  decide +kernel

/-- 43_decoder.md R167. -/
theorem test_decEnd : after (exec .decEnd { small with outPos := 7, width := 9 }) (fun t => (t.outLen, t.width, statusWord t)) =
    some (7, 9, 0) := by decide

/-! ### Host accesses (V-HS-1, V-HS-4, V-HS-5, V-HS-8, V-HS-10 to V-HS-12) -/

theorem test_host_cmd_while_busy :
    after (hostAccess (opWR Offset.cmd 6) small) (fun t => (statusWord t, t.opc)) = some (3, 0) := by decide

theorem test_host_status_write_zero_keeps_drop :
    after (hostAccess (opWR Offset.status 1) { State.reset with drop := true }) statusWord = some 2 := by decide

theorem test_host_hazard :
    after (hostAccess (opWR Offset.inLen 5) small) (fun t => (t.hazard, t.inLen)) = some (true, 5) := by decide

theorem test_host_reset :
    after (hostAccess .reset small)
      (fun t => (statusWord t, cfgWord t, t.inLen, t.outLen, t.codeLen, t.width, t.phase)) =
      some (0, 0x00010C00, 0, 0, 0, 0, 0) := by decide

theorem test_host_registers :
    after (hostAccess (opRD Offset.cmd) State.reset) (fun t => t.rdata) = some 0 ∧
    after (hostAccess (opRD 0x1C) State.reset) (fun t => t.rdata) = some 0 ∧
    after (hostAccess (opWR Offset.cfg 0x00000900) State.reset) cfgWord = some 0x00010C00 ∧
    after (hostAccess (opWR Offset.width 0x1234) State.reset) (fun t => t.width) = some 0x34 ∧
    hostAccess (.readReg 8 0) State.reset = .refused .registerAccessShape := by
  refine ⟨?_, ?_, ?_, ?_, ?_⟩ <;> rfl

/-- 10_state.md R21–R30: each offset reads its own register, here with a value of its own. -/
theorem test_host_reads_each_register :
    [0x00, 0x04, 0x08, 0x0C, 0x10, 0x14, 0x18, 0x1C, 0x3C].map (fun off =>
      after (hostAccess (opRD off)
        { State.reset with drop := true, err := 5, var := .static, maxBits := 9, inLen := 3, outLen := 4, codeLen := 6,
                           width := 10, opc := 7 }) (fun t => t.rdata)) =
      [some 0, some 0x502, some 0x900, some 3, some 4, some 6, some 10, some 0, some 0] := by decide

/-- CONFIGURE's expansion of 30_encoding.md R103, accepted and run by two steps of the machine. -/
theorem test_step_accepts_then_dispatches :
    opCommand (.configure .dynamic 16) = some (opWR Offset.cmd 0x00011001) ∧
    after (step { State.reset with program := [opWR Offset.cmd 0x00011001] }) statusWord = some 1 ∧
    after (step (State.reset.withFetchWord 32 0x00011001)) (fun t => (statusWord t, cfgWord t)) = some (0, 0x00011000) := by
  decide

/-! ### Witnesses: each obligation's hypotheses are met together, clause by clause -/

/-- The outcome is a next state, whatever it is. -/
def completes (o : Host.Outcome State Fault Refusal) : Bool := (after o fun _ => ()).isSome

theorem of_completes {o : Host.Outcome State Fault Refusal} (h : completes o = true) : ∃ t, o = .next t := by
  cases o with
  | next t => exact ⟨t, rfl⟩
  | fault f => cases h
  | refused r => cases h

/-- An idle block with "A" in IN, the code 65 in CODE and WIDTH = 9. -/
def waiting : State :=
  { State.reset with
    inSize := 16, outSize := 16, codeSize := 16, inLen := 1, inBuf := filled [0x41], codeLen := 1,
    codeBuf := filled [65], width := 9 }

theorem waiting_waits : Waiting waiting := by
  refine ⟨rfl, rfl, rfl, rfl⟩

theorem loopInv_of_no_loop {s : State} (h : s.phase ≠ 3 ∧ s.phase ≠ 5 ∧ s.phase ≠ 7 ∧ s.phase ≠ 9) : LoopInv s :=
  ⟨fun e => absurd e h.1, fun e => absurd e h.2.1, fun e => absurd e h.2.2.1, fun e => absurd e h.2.2.2⟩

theorem waiting_inv : BlockInv waiting :=
  ⟨by decide, by decide, by decide, fun _ => rfl, fun _ h => absurd h (by decide), fun _ => loopInv_of_no_loop (by decide),
    fun h => absurd h (by decide)⟩

/-- `waiting`, with ENCODE accepted and past its dispatch. -/
def accepted : State := { accept 2 waiting with phase := Phase.encInit }

/-- The Encoder's loop in front of its first byte, and the Decoder's in front of its first code. -/
def encodingLoop : State := encStart accepted
def decodingLoop : State := decStart accepted

theorem encodingLoop_inv : EncodeLoopInv encodingLoop := encodeLoopInv_encStart (by decide) (by decide)

theorem encodingLoop_blockInv : BlockInv encodingLoop :=
  ⟨by decide, by decide, by decide, fun _ => rfl, fun _ _ => rfl,
    fun _ => ⟨fun _ => encodingLoop_inv, fun h => absurd h (by decide), fun h => absurd h (by decide),
      fun h => absurd h (by decide)⟩, fun _ => rfl⟩

/-- The Encoder's loop past its only byte. -/
def encodingEnd : State := encExtend (encodingLoop.cur ++ [0x41]) encodingLoop

theorem encodingEnd_blockInv : BlockInv encodingEnd :=
  ⟨by decide, by decide, by decide, fun _ => rfl, fun _ _ => rfl,
    fun _ => ⟨fun _ => encodingLoop_inv.extend (by decide) (by decide +kernel), fun h => absurd h (by decide),
      fun h => absurd h (by decide), fun h => absurd h (by decide)⟩, fun _ => rfl⟩

/-- A command that ends well in `n` steps. -/
def endsWell (n : Nat) (s : State) : Bool := after (run n s) (fun t => (t.busy, t.err)) == some (false, 0)

theorem of_endsWell {n : Nat} {s : State} (h : endsWell n s = true) : ∃ t, EndsWell n s t := by
  unfold endsWell after at h
  unfold EndsWell
  cases hr : run n s with
  | next t => simp [hr] at h; exact ⟨t, rfl, h.1, h.2⟩
  | fault f => simp [hr] at h
  | refused r => simp [hr] at h

theorem witness_encodings :
    (Instr.configure .dynamic 255).wellFormed = true ∧ decode (.selection 0x29) = .ok .decNext ∧
    decode (.command 0x0001FF01) = .ok (.configure .dynamic 255) := by decide

theorem witness_illegalWord : small.spoiled = false ∧ IllegalWord 0x00000108 ∧ IllegalWord 0x00020000 ∧ IllegalWord 8 ∧
    ¬ IllegalWord 7 ∧ ¬ IllegalWord 0x0001FF01 := by decide

theorem witness_fetch : small.busy = true ∧ PositionsLegal small ∧ PositionsLegal encoding ∧ small.phase.toNat ≤ 9 ∧ small.phase ≠ Phase.idle ∧
    (10 ≤ ({ small with phase := 10 } : State).phase.toNat) ∧ State.reset.busy = false ∧
    (encoding.phase = 3 ∧ encoding.inPos.toNat < encoding.inLen.toNat) ∧
    (encodingEnd.phase = 3 ∧ encodingEnd.inPos.toNat = encodingEnd.inLen.toNat) := by decide

/-- An idle block whose host moves next, with a program and no poll yet. -/
def hostRuns (program : List HostOp) : State :=
  { State.reset with schedule := [.host], program := program, unpolled := true }

theorem witness_step :
    (mover small = .engine ∧ fetch (tick small) = .ok (some .dispatch)) ∧
    (mover { State.reset with schedule := [.engine] } = .engine ∧
      fetch (tick { State.reset with schedule := [.engine] }) = .ok none) ∧
    (mover State.reset = .host ∧ State.reset.program = []) ∧ mover (hostRuns [.poll]) = .host ∧
    (mover { hostRuns [.poll, .reset] with busy := true } = .host ∧
      ({ hostRuns [.poll, .reset] with busy := true } : State).program = .poll :: [.reset]) ∧
    ((hostRuns [opRD 0, .poll]).program = opRD 0 :: [.poll] ∧ opRD 0 ≠ .poll) := by
  refine ⟨⟨?_, ?_⟩, ⟨?_, ?_⟩, ⟨?_, ?_⟩, ?_, ⟨?_, ?_⟩, ?_, ?_⟩
  case refine_11 => decide
  all_goals rfl

/-- 30_encoding.md R103: a POLL stays at the head while BUSY = 1, and the program moves on once it reads BUSY = 0. -/
theorem test_poll_stays_while_busy :
    after (step { hostRuns [.poll, .reset] with busy := true }) (fun t => (t.program, t.rdata)) =
      some ([.poll, .reset], 1) ∧
    after (step (hostRuns [.poll, .reset])) (fun t => (t.program, t.rdata)) = some ([.reset], 0) := by decide

/-- DISPATCH of each command: the latched word is legal, and OPC is the command's. -/
theorem witness_dispatch :
    decode (.command ({ small with opc := 7 } : State).opc) = .ok .decompress ∧
    (∀ w : Word, w = 0 ∨ w = 0x00010C01 ∨ w = 2 ∨ w = 3 ∨ w = 4 ∨ w = 5 ∨ w = 6 ∨ w = 7 → ¬ IllegalWord w) ∧
    completes (exec .dispatch { small with opc := 0x00000108 }) = true := by
  refine ⟨by decide, ?_, by decide⟩
  rintro w (rfl | rfl | rfl | rfl | rfl | rfl | rfl | rfl) <;> decide

theorem witness_commands :
    (State.reset.busy = false ∧ State.reset.drop = false ∧ State.reset.phase = Phase.idle) ∧ small.busy = true ∧
    small.spoiled = false := by decide

/-- `IN_LEN = IN_SIZE` and `IN_LEN = IN_SIZE + 1`, at ENC_INIT and DES_INIT. -/
theorem witness_init_lengths :
    CfgLegal small ∧ ({ small with inLen := 16 } : State).inLen.toNat ≤ small.inSize.toNat ∧
    small.inSize.toNat < ({ small with inLen := 17 } : State).inLen.toNat ∧
    ({ small with codeLen := 16 } : State).codeLen.toNat ≤ small.codeSize.toNat ∧
    small.codeSize.toNat < ({ small with codeLen := 17 } : State).codeLen.toNat := by decide

/-- The four cases of ENC_SYMBOL, for the byte 0x42 in front of `encoding`. -/
theorem witness_encSymbol :
    CfgLegal encoding ∧ encoding.inPos.toNat < encoding.inSize.toNat ∧ elementIn encoding encoding.inPos.toNat = 0x42 ∧
    edLookup encoding.ed [0x42] = some 66 ∧
    (edLookup encoding.ed [0x41, 0x42] = none ∧ edLookup encoding.ed [0x41] = some 65) ∧
    (edLookup encoding.ed [0x41, 0x43, 0x42] = none ∧ edLookup encoding.ed [0x41, 0x43] = none) ∧
    encoding.codePos.toNat < encoding.codeSize.toNat ∧
    ({ encoding with codeSize := 1 } : State).codeSize.toNat ≤ ({ encoding with codePos := 1 } : State).codePos.toNat := by
  decide +kernel

theorem witness_encEnd :
    encoding.spoiled = false ∧ encoding.chain = false ∧ encodingLoop.cur = [] ∧ encoding.cur ≠ [] ∧
    edLookup encoding.ed encoding.cur = some 65 ∧ edLookup [] encoding.cur = none ∧
    encoding.codePos.toNat < encoding.codeSize.toNat := by decide +kernel

/-- SER_INIT: WIDTH at 8, 9, MAX_BITS and MAX_BITS + 1; OUT_SIZE at 0 and 1. -/
theorem witness_serInit :
    small.codeLen.toNat ≤ small.codeSize.toNat ∧ small.var = .dynamic ∧ (8 : Byte).toNat < 9 ∧ 9 ≤ (9 : Byte).toNat ∧
    (12 : Byte).toNat ≤ small.maxBits.toNat ∧ small.maxBits.toNat < (13 : Byte).toNat ∧
    ({ small with outSize := 0 } : State).outSize.toNat < 1 ∧ 1 ≤ ({ small with outSize := 1 } : State).outSize.toNat := by
  decide

/-- SER_CODE with the last two bytes of OUT free, and with one. -/
theorem witness_serCode :
    waiting.codePos.toNat < waiting.codeSize.toNat ∧ (elementCode waiting waiting.codePos.toNat).toNat = 65 ∧
    (14 : Word).toNat + (2 : BitVec 2).toNat ≤ waiting.outSize.toNat ∧
    waiting.outSize.toNat < (15 : Word).toNat + (2 : BitVec 2).toNat := by decide

/-- DES_INIT: the frames of V-DES-1, V-DES-4 to V-DES-7 and V-DES-10, V-DES-11. -/
theorem witness_desInit :
    small.inLen.toNat ≤ small.inSize.toNat ∧ small.inLen.toNat = 0 ∧ (1 : Word).toNat % 2 ≠ 0 ∧
    elementIn { small with inBuf := filled [9] } 0 = 9 ∧ elementIn { small with inBuf := filled [13] } 0 = 13 ∧
    small.maxBits.toNat < (13 : Byte).toNat ∧ ((2 : Word).toNat - 1) % (((9 : Byte).toNat + 7) / 8) ≠ 0 ∧
    ((9 : Word).toNat - 1) % (((9 : Byte).toNat + 7) / 8) = 0 := by decide

theorem witness_desCode :
    waiting.codePos.toNat < waiting.codeSize.toNat ∧ (14 : Word).toNat + (2 : BitVec 2).toNat ≤ waiting.inSize.toNat ∧
    ({ waiting with codeSize := 0 } : State).codeSize.toNat ≤ waiting.codePos.toNat := by decide

theorem witness_decFirst :
    DecodeDictInv decodingLoop.dd decodingLoop.nextCode.toNat ∧ 256 ≤ decodingLoop.nextCode.toNat ∧
    decodingLoop.codePos.toNat < decodingLoop.codeSize.toNat ∧
    (elementCode decodingLoop decodingLoop.codePos.toNat).toNat = 65 ∧
    decodingLoop.outPos.toNat + 1 ≤ decodingLoop.outSize.toNat ∧
    (elementCode { decodingLoop with codeBuf := filled [256] } 0).toNat = 256 := by
  refine ⟨decodeDictInv_initial, ?_⟩
  decide

/-- DEC_NEXT: a bound code, the KwKwK code, and one beyond it. -/
theorem witness_decNext :
    CfgLegal decodingLoop ∧ ddGet decodingLoop 65 = some [0x41] ∧ ddGet decodingLoop 256 = none ∧
    256 = decodingLoop.nextCode.toNat ∧ ddFind decodingLoop.dd 256 = none ∧ ddGet decodingLoop 257 = none ∧
    257 ≠ decodingLoop.nextCode.toNat ∧ ({ decodingLoop with prev := [0x41] } : State).prev = 0x41 :: [] ∧
    (elementCode { decodingLoop with codeBuf := filled [256] } 0).toNat = decodingLoop.nextCode.toNat ∧
    decodingLoop.outPos.toNat + ([0x41].length + 1) ≤ decodingLoop.outSize.toNat := by decide +kernel

/-- MAX_BITS = 9 and NEXT_CODE = 512, as in V-DEC-13. -/
def fullTable : State :=
  { decodingLoop with
    maxBits := 9, var := .static, curBits := 9, maxCode := 511, nextCode := 512, codeBuf := filled [512], prev := [0] }

theorem witness_fullTable :
    CfgLegal fullTable ∧ WidthInv fullTable ∧ fullTable.nextCode.toNat = 2 ^ fullTable.maxBits.toNat ∧
    fullTable.codePos.toNat < fullTable.codeSize.toNat ∧
    (elementCode fullTable fullTable.codePos.toNat).toNat = fullTable.nextCode.toNat ∧ fullTable.prev = 0 :: [] ∧
    fullTable.outPos.toNat + (fullTable.prev.length + 1) ≤ fullTable.outSize.toNat := by
  refine ⟨by decide, ⟨by decide, by decide, by decide, fun _ => rfl, fun h => by cases h⟩, ?_⟩
  decide

/-- A step of each agent that answers a next state, for the statements about every step. -/
theorem witness_steps :
    (small.err.toNat ≤ 5 ∧ ∃ t, step small = .next t) ∧
    (State.reset.busy = false ∧ ∃ t, step { State.reset with program := [opWR Offset.cmd 0] } = .next t) ∧
    (Memory.wf waiting = true ∧ ∃ t, step { waiting with program := [.writeBuf .IN 15 0] } = .next t) :=
  ⟨⟨by decide, of_completes (by decide)⟩, ⟨rfl, of_completes (by decide)⟩, rfl, of_completes (by decide)⟩

/-- A write of R293 while a command runs sets HAZARD. -/
theorem witness_hazard :
    after (step { small with schedule := [.host], program := [.writeBuf .CODE 15 0] }) (fun t => t.hazard) = some true ∧
    after (step { State.reset with unpolled := true, program := [opWR Offset.width 0] }) (fun t => t.hazard) = some true ∧
    small.hazard = false := by decide

/-- Each error's row, met by a step that raises it. -/
theorem witness_errors :
    small.err = 0 ∧ small.spoiled = false ∧ DecodeDictInv decodingLoop.dd decodingLoop.nextCode.toNat ∧
    after (exec .dispatch { small with opc := 8 }) (fun t => t.err) = some 4 ∧
    after (exec (.configure .static 8) small) (fun t => t.err) = some 3 ∧
    after (exec .encSymbol { encoding with cur := [0x41, 0x43] }) (fun t => t.err) = some 1 ∧
    after (exec .decNext { decodingLoop with codeBuf := filled [257], prev := [0x41] }) (fun t => t.err) = some 2 ∧
    after (exec .desCode { small with codeSize := 0 }) (fun t => t.err) = some 5 := by
  refine ⟨rfl, rfl, decodeDictInv_initial, ?_⟩
  decide +kernel

theorem witness_reset : (∃ t, hostAccess .reset small = .next t) ∧ State.reset = State.reset := ⟨⟨_, rfl⟩, rfl⟩

/-- The first and the last register offset, and the offsets just outside the window. -/
theorem witness_registers :
    (0x00 % 4 = 0 ∧ 0x00 < 0x40) ∧ (0x3C % 4 = 0 ∧ 0x3C < 0x40 ∧ 0x1C ≤ 0x3C) ∧ (0x02 % 4 ≠ 0) ∧ 0x40 ≤ 0x40 ∧ (8 ≠ 32) ∧
    State.reset.unpolled = false ∧
    ((hostRuns []).busy = false ∧ (hostRuns []).unpolled = true) ∧ small.busy = true := by decide

/-- 10_state.md R26 and 70_reset_and_hazards.md R293: between a command's end and its poll IN_LEN stores the value,
with HAZARD. -/
theorem test_write_before_the_poll_stores :
    after (hostAccess (opWR Offset.inLen 7) (hostRuns [])) (fun t => (t.inLen, t.hazard)) = some (7, true) := by decide

/-- The last element of each buffer, and the first index beyond it. -/
theorem witness_buffers :
    15 < waiting.inSize.toNat ∧ 15 < waiting.outSize.toNat ∧ 15 < waiting.codeSize.toNat ∧ waiting.inSize.toNat ≤ 16 ∧
    waiting.outSize.toNat ≤ 16 ∧ waiting.codeSize.toNat ≤ 16 ∧ waiting.busy = false ∧ waiting.unpolled = false := by decide

theorem witness_dictionaries : EncodeDictInv initialEd 256 ∧ edLookup initialEd [0x41] = some 65 ∧ ([0x41] : Sequence) ≠ [] :=
  ⟨encodeDictInv_initial, edLookup_initialEd_symbol 0x41, by simp⟩

theorem witness_loops :
    BlockInv encodingLoop ∧ encodingLoop.hazard = false ∧ encodingLoop.phase = Phase.encLoop ∧
    after (step encodingLoop) (fun t => (t.hazard, t.phase)) = some (false, Phase.encLoop) ∧
    mover encodingLoop = .engine ∧ encodingLoop.busy = true ∧ encodingLoop.err ≠ 1 :=
  ⟨encodingLoop_blockInv, rfl, rfl, by decide +kernel, rfl, rfl, by decide⟩

/-- Past its length each loop of the engine has a state, as after a forbidden write of IN_LEN or CODE_LEN. -/
def pastLength (phase : BitVec 4) : State := { small with phase := phase, inPos := 1, codePos := 1 }

theorem witness_pastLength :
    (pastLength 3).busy = true ∧ (pastLength 3).inLen.toNat < (pastLength 3).inPos.toNat ∧
    (pastLength 5).codeLen.toNat < (pastLength 5).codePos.toNat ∧
    (pastLength 7).desN.toNat < (pastLength 7).codePos.toNat ∧
    (pastLength 9).codeLen.toNat < (pastLength 9).codePos.toNat ∧ mover (pastLength 9) = .engine := by decide

/-- 60_exceptions.md R274 (e): a host that cuts IN_LEN below IN_POS while ENCODE runs does not stop the engine. -/
theorem test_encode_ends_past_its_length :
    after (step (pastLength 3)) (fun t => (t.busy, t.phase)) = some (false, Phase.idle) := by decide

/-- Nor does one that moves DES_CODE's bytes or DEC_FIRST's code beyond the buffer; DEC_FIRST's entry is [k]. -/
theorem test_engine_reads_run_outside_the_buffer :
    after (exec .desCode { small with inSize := 0, serB := 2 }) (fun t => (t.codePos, t.inPos)) = some (1, 2) ∧
    after (exec .serCode { small with serB := 2, codePos := 16 }) (fun t => (t.codePos, t.outPos)) = some (17, 2) ∧
    after (exec .decFirst { small with codeBuf := filled [65] }) (fun t => t.prev) = some [0x41] := by decide

/-- ENC_END emits the code of "A". -/
theorem witness_emission :
    BlockInv encodingEnd ∧ encodingEnd.hazard = false ∧ fetch encodingEnd = .ok (some .encEnd) ∧
    after (exec .encEnd encodingEnd) (fun t => (t.err, t.codePos)) = some (0, encodingEnd.codePos + 1) :=
  ⟨encodingEnd_blockInv, rfl, by decide, by decide +kernel⟩

/-- CONFIGURE changes CFG; a successful SER_INIT writes OUT[0] alone. -/
theorem witness_writes :
    after (exec (.configure .static 16) small) cfgWord = some 0x00001000 ∧ cfgWord small ≠ 0x00001000 ∧
    small.spoiled = false ∧ small.err = 0 ∧ after (exec .serInit { small with width := 12 }) (fun t => t.err) = some 0 := by
  decide

/-- ENCODE of "A", alone, DYNAMIC and STATIC. -/
theorem witness_encode :
    BlockInv waiting ∧ waiting.hazard = false ∧ Waiting waiting ∧ waiting.inLen.toNat ≤ waiting.outSize.toNat ∧
    (∃ t, EndsWell 4 (accept 2 waiting) t) ∧ (∃ t, EndsWell 4 (accept 2 { waiting with var := .static }) t) ∧
    ∃ t, EndsWell 4 (accept 2 { waiting with var := .dynamic }) t :=
  ⟨waiting_inv, rfl, waiting_waits, by decide, of_endsWell (by decide +kernel), of_endsWell (by decide +kernel),
    of_endsWell (by decide +kernel)⟩

/-- The block that reads back the frame 09 00 41. -/
def reading : State := { waiting with inLen := 3, inBuf := filled [9, 0, 0x41] }

theorem reading_inv : BlockInv reading :=
  ⟨by decide, by decide, by decide, fun _ => rfl, fun _ h => absurd h (by decide), fun _ => loopInv_of_no_loop (by decide),
    fun h => absurd h (by decide)⟩

/-- SERIALIZE of the code 65 under DYNAMIC/12, WIDTH = 9 (V-SER-3), and its frame in another block's IN. -/
theorem witness_serialize :
    BlockInv waiting ∧ waiting.hazard = false ∧ Waiting waiting ∧ (∃ t, EndsWell 4 (accept 3 waiting) t) ∧
    BlockInv reading ∧ reading.hazard = false ∧ Waiting reading ∧ reading.var = waiting.var ∧
    reading.maxBits = waiting.maxBits ∧ reading.inLen.toNat ≤ reading.inSize.toNat ∧
    waiting.codeLen.toNat ≤ reading.codeSize.toNat ∧
    after (run 4 (accept 3 waiting)) (fun t => (t.outLen, elementOut t 0, elementOut t 1, elementOut t 2)) =
      some (reading.inLen, elementIn reading 0, elementIn reading 1, elementIn reading 2) := by
  refine ⟨waiting_inv, rfl, waiting_waits, of_endsWell (by decide +kernel), reading_inv, rfl, ⟨rfl, rfl, rfl, rfl⟩, rfl,
    rfl, by decide, by decide, by decide +kernel⟩

end Sys2Proof.Tests
end

section
/-! The host's register and buffer accesses (20_memory.md R64, R65, R68): what each one answers, and the
obligations that follow. -/

namespace Sys2Proof.Machine

variable {s : State}

/-! ### The shape of a register access (20_memory.md R64) -/

theorem registerShape_iff {bits off : Nat} :
    registerShape bits off = true ↔ bits = 32 ∧ off % 4 = 0 ∧ off < 0x40 := by
  simp [registerShape]

theorem hostAccess_readReg_of_shape {bits off : Nat} (h : registerShape bits off = true) :
    hostAccess (.readReg bits off) s = .next (hostReadReg off s) := if_pos h

theorem hostAccess_writeReg_of_shape {bits off : Nat} (v : Word) (h : registerShape bits off = true) :
    hostAccess (.writeReg bits off v) s = .next (hostWriteReg off v s) := if_pos h

theorem hostAccess_readReg_of_misshapen {bits off : Nat} (h : ¬ registerShape bits off = true) :
    hostAccess (.readReg bits off) s = .refused .registerAccessShape := if_neg h

theorem hostAccess_writeReg_of_misshapen {bits off : Nat} (v : Word) (h : ¬ registerShape bits off = true) :
    hostAccess (.writeReg bits off v) s = .refused .registerAccessShape := if_neg h

/-- Settles O38: both kinds of access are guarded by `registerShape`, and off ≤ 0x3C is off < 0x40 at the
multiples of 4. -/
theorem misshapenRegisterAccessesAreRefused : Obligations.MisshapenRegisterAccessesAreRefused := by
  intro s bits off v
  refine ⟨fun hbad => ?_, fun hbits halign hoff => ?_⟩
  · have hshape : ¬ registerShape bits off = true := by
      rw [registerShape_iff]
      omega
    exact ⟨hostAccess_readReg_of_misshapen hshape, hostAccess_writeReg_of_misshapen v hshape⟩
  · have hshape : registerShape bits off = true := registerShape_iff.2 ⟨hbits, halign, by omega⟩
    exact ⟨⟨_, hostAccess_readReg_of_shape hshape⟩, ⟨_, hostAccess_writeReg_of_shape v hshape⟩⟩

/-! ### Register reads (20_memory.md R65) -/

theorem drawnWhileBusy_iff {off : Nat} :
    drawnWhileBusy off = true ↔ off = Offset.outLen ∨ off = Offset.codeLen ∨ off = Offset.width := by
  simp [drawnWhileBusy]

theorem hostReadReg_of_drawn {off : Nat} (hbusy : s.busy = true) (hdrawn : drawnWhileBusy off = true) :
    hostReadReg off s = readDraw (Config.freeBits 32 .registerRead s.draws) s := by
  simp [hostReadReg, hbusy, hdrawn]

theorem hostReadReg_of_exact {off : Nat} (h : ¬ (s.busy = true ∧ drawnWhileBusy off = true)) :
    hostReadReg off s =
      { s with rdata := registerValue off s, unpolled := s.unpolled && (s.busy || !decide (off = Offset.status)) } :=
  if_neg (by simpa using h)

theorem registerValue_width (s : State) : registerValue Offset.width s = (0 : BitVec 24) ++ s.width := by
  have hval : registerValue Offset.width s = s.width.setWidth 32 := rfl
  rw [hval, BitVec.setWidth_eq_append (by decide : 8 ≤ 32)]
  rfl

theorem registerValue_of_reserved (s : State) {off : Nat} (h : 0x1C ≤ off) : registerValue off s = 0 := by
  have hne (k : Nat) (hk : k < 0x1C) : off ≠ k := by omega
  unfold registerValue
  iterate 6 rw [if_neg (hne _ (by decide))]

/-- Settles O33: a draw exactly if BUSY = 1 and the offset is one of the three drawn ones, the exact value
otherwise; then the register map offset by offset. -/
theorem registerReadsHaveNoSideEffect : Obligations.RegisterReadsHaveNoSideEffect := by
  refine ⟨fun s off halign hoff => ?_, fun s => ?_⟩
  · have hread : hostAccess (opRD off) s = .next (hostReadReg off s) :=
      hostAccess_readReg_of_shape (registerShape_iff.2 ⟨rfl, halign, hoff⟩)
    by_cases hdraw : s.busy = true ∧ drawnWhileBusy off = true
    · obtain ⟨hbusy, hdrawn⟩ := hdraw
      rw [hread, hostReadReg_of_drawn hbusy hdrawn]
      refine ⟨_, _, s.unpolled, rfl, ?_⟩
      rintro (hidle | hoffset)
      · simp [hbusy] at hidle
      · exact absurd (drawnWhileBusy_iff.1 hdrawn) (by simpa only [not_or] using hoffset)
    · rw [hread, hostReadReg_of_exact hdraw]
      exact ⟨_, s.draws, _, rfl, fun _ => ⟨rfl, rfl⟩⟩
  · exact ⟨rfl, rfl, rfl, rfl, rfl, rfl, registerValue_width s, fun _ _ h _ => registerValue_of_reserved s h⟩

/-! ### Buffer writes (20_memory.md R68) -/

theorem hostAccess_writeBuf_inside {b : BufferName} {i : Nat} (v : Word) (h : i < bufferSize b s) :
    hostAccess (.writeBuf b i v) s = .next (hostWriteBuf b i v s) := if_pos h

theorem hostAccess_writeBuf_beyond {b : BufferName} {i : Nat} (v : Word) (h : bufferSize b s ≤ i) :
    hostAccess (.writeBuf b i v) s = .refused .bufferIndexBeyondSize := if_neg (Nat.not_lt.2 h)

theorem markHazard_hazard_of_busy (h : s.busy = true) : (markHazard s).hazard = true := by
  simp [h]

/-- With no command running and the last one's end polled, a write leaves both marks. -/
theorem markHazard_marks_of_polled (hbusy : s.busy = false) (hpolled : s.unpolled = false) :
    (markHazard s).hazard = s.hazard ∧ (markHazard s).spoiled = s.spoiled := by
  simp [hbusy, hpolled]

/-- After a write at `i`, element `j` is the written value if it is the one at `i`, and as before if not. -/
theorem bufGet_bufSet_at {w : Nat} (name : BufferName) (b : Buffer w) (i : Nat) (v : BitVec w) (j : Nat) :
    bufGet name (bufSet b i v) j = if j = i then v else bufGet name b j := by
  simp only [bufGet_bufSet, eq_comm]

/-- Settles O37: inside the buffer IN and CODE store by `bufSet` and mark the hazard, OUT keeps the state;
beyond the size the access is refused. -/
theorem bufferWritesStoreOneElement : Obligations.BufferWritesStoreOneElement := by
  intro s i v
  refine ⟨fun hi => ?_, fun hi => ?_, fun hi => hostAccess_writeBuf_inside v hi,
    fun hi => hostAccess_writeBuf_beyond v hi, fun hi => hostAccess_writeBuf_beyond v hi,
    fun hi => hostAccess_writeBuf_beyond v hi⟩
  · exact ⟨bufSet s.inBuf i (v.setWidth 8), (markHazard s).hazard, (markHazard s).spoiled,
      hostAccess_writeBuf_inside v hi, bufGet_bufSet_at .IN s.inBuf i _, markHazard_hazard_of_busy,
      markHazard_marks_of_polled⟩
  · exact ⟨bufSet s.codeBuf i (v.setWidth 16), (markHazard s).hazard, (markHazard s).spoiled,
      hostAccess_writeBuf_inside v hi, bufGet_bufSet_at .CODE s.codeBuf i _, markHazard_hazard_of_busy,
      markHazard_marks_of_polled⟩

end Sys2Proof.Machine
end

section
/-! The command words (30_encoding.md R91, R93): what `decodeCommand` answers for a word of each row and for an
illegal word, and the obligations that follow. -/

namespace Sys2Proof.Machine

/-! ### The rows of R91 -/

/-- A word is its fields side by side (30_encoding.md R90), the operands taken as one. -/
theorem word_eq_append_fields (w : Word) : w = fieldRsv w ++ w.extractLsb' 8 9 ++ fieldOpc w := by
  unfold fieldRsv fieldOpc
  rw [BitVec.extractLsb'_append_extractLsb'_eq_extractLsb' (start₁ := 8) (len₁ := 9) rfl]
  exact (BitVec.extractLsb'_append_extractLsb' (w := 24) (len := 8)).symm

/-- CONFIGURE's mask keeps RSV and OPC and clears the operands between them. -/
theorem and_configureMask (w : Word) : w &&& 0xFFFE00FF = fieldRsv w ++ (0 : BitVec 9) ++ fieldOpc w := by
  have hmask : (0xFFFE00FF : Word) = BitVec.allOnes 15 ++ (0 : BitVec 9) ++ BitVec.allOnes 8 := rfl
  calc w &&& 0xFFFE00FF
      = (fieldRsv w ++ w.extractLsb' 8 9 ++ fieldOpc w) &&&
          (BitVec.allOnes 15 ++ (0 : BitVec 9) ++ BitVec.allOnes 8) :=
        congrArg₂ (· &&& ·) (word_eq_append_fields w) hmask
    _ = fieldRsv w ++ (0 : BitVec 9) ++ fieldOpc w := by
        rw [BitVec.and_append, BitVec.and_append, BitVec.and_allOnes, BitVec.and_allOnes]
        simp

theorem configureRow_iff {w : Word} : w &&& 0xFFFE00FF = 1 ↔ fieldRsv w = 0 ∧ fieldOpc w = 1 := by
  rw [and_configureMask]
  constructor
  · intro h
    have hhigh : fieldRsv w ++ (0 : BitVec 9) = 0 :=
      BitVec.extractLsb'_append_eq_left.symm.trans (congrArg (BitVec.extractLsb' 8 24) h)
    exact ⟨BitVec.extractLsb'_append_eq_left.symm.trans (congrArg (BitVec.extractLsb' 9 15) hhigh),
      BitVec.extractLsb'_append_eq_right.symm.trans (congrArg (BitVec.extractLsb' 0 8) h)⟩
  · rintro ⟨hrsv, hopc⟩
    rw [hrsv, hopc]
    rfl

/-- The mask of every row but CONFIGURE's leaves no bit open. -/
theorem and_fullMask (w : Word) : w &&& 0xFFFFFFFF = w := BitVec.and_allOnes

theorem variantOfBit_fieldVarb (w : Word) :
    variantOfBit (fieldVarb w) = if w.getLsbD 16 then .dynamic else .static := by
  have hbit : fieldVarb w = 1 ↔ w.getLsbD 16 = true := by
    rw [← BitVec.toNat_inj, fieldVarb_toNat, BitVec.getLsbD, Nat.testBit_eq_decide_div_mod_eq]
    simp
  simp only [variantOfBit, hbit]

/-- A word of CONFIGURE's row decodes to CONFIGURE, with VARB at bit 16 and MAXB at bits [15:8]. -/
theorem decodeCommand_of_configureRow {w : Word} (h : w &&& 0xFFFE00FF = 1) :
    decodeCommand w = .ok (.configure (if w.getLsbD 16 then .dynamic else .static) (w.toNat / 256 % 256)) := by
  obtain ⟨hrsv, hopc⟩ := configureRow_iff.1 h
  rw [← variantOfBit_fieldVarb, ← fieldMaxb_toNat]
  simp [decodeCommand, hrsv, hopc]

/-! ### The illegal words of R93 -/

/-- The conditions of R93 in the fields of the word. -/
theorem illegalWord_iff {w : Word} :
    IllegalWord w ↔ 7 < (fieldOpc w).toNat ∨ fieldRsv w ≠ 0 ∨
      (fieldOpc w ≠ 1 ∧ (fieldMaxb w ≠ 0 ∨ fieldVarb w ≠ 0)) := by
  simp only [IllegalWord, ne_eq, ← BitVec.toNat_inj, fieldOpc_toNat, fieldRsv_toNat, fieldMaxb_toNat,
    fieldVarb_toNat, BitVec.ofNat_eq_ofNat, BitVec.toNat_ofNat]
  omega

theorem decodeCommand_of_illegalWord {w : Word} (h : IllegalWord w) :
    decodeCommand w = .error .illegalCommand := by
  unfold decodeCommand
  split_ifs with hrsv hoperands
  · rfl
  · rfl
  · have hopc : 7 < (fieldOpc w).toNat := by
      rcases illegalWord_iff.1 h with hopc | hbad | hbad
      · exact hopc
      · exact absurd hbad hrsv
      · exact absurd hbad hoperands
    split
    case h_9 => rfl
    all_goals omega

/-- A word R93 does not reject is of CONFIGURE's row, or is one of the seven words whose number is their OPC. -/
theorem legalWord_cases {w : Word} (h : ¬ IllegalWord w) :
    w &&& 0xFFFE00FF = 1 ∨ w = 0 ∨ w = 2 ∨ w = 3 ∨ w = 4 ∨ w = 5 ∨ w = 6 ∨ w = 7 := by
  by_cases hopc : fieldOpc w = 1
  · have hrsv : fieldRsv w = 0 := by
      by_contra hrsv
      exact h (illegalWord_iff.2 (.inr (.inl hrsv)))
    exact .inl (configureRow_iff.2 ⟨hrsv, hopc⟩)
  · right
    simp only [← BitVec.toNat_inj, fieldOpc_toNat, BitVec.ofNat_eq_ofNat, BitVec.toNat_ofNat] at hopc ⊢
    omega

/-- Settles O3: a decoded word is not illegal, so it is of one of the rows; and each row's words decode to its
command. -/
theorem commandWordsMatchTheirRows : Obligations.CommandWordsMatchTheirRows := by
  intro w i
  simp only [and_fullMask]
  constructor
  · intro hdec
    have hlegal : ¬ IllegalWord w := fun hbad => by simp [decodeCommand_of_illegalWord hbad] at hdec
    rcases legalWord_cases hlegal with hrow | rfl | rfl | rfl | rfl | rfl | rfl | rfl
    case inl =>
      rw [decodeCommand_of_configureRow hrow] at hdec
      cases hdec
      exact .inr (.inl ⟨hrow, rfl⟩)
    all_goals
      cases hdec
      decide
  · rintro (⟨rfl, rfl⟩ | ⟨hrow, rfl⟩ | ⟨rfl, rfl⟩ | ⟨rfl, rfl⟩ | ⟨rfl, rfl⟩ | ⟨rfl, rfl⟩ | ⟨rfl, rfl⟩ | ⟨rfl, rfl⟩)
    case inr.inl => exact decodeCommand_of_configureRow hrow
    all_goals rfl

/-! ### DISPATCH of an illegal word -/

theorem exec_dispatch (s : State) : exec .dispatch s = execDispatch s := rfl

theorem exec_dispatch_of_illegalWord {s : State} (h : IllegalWord s.opc) :
    exec .dispatch s = .next (abort .dispatch .illegalCommand s) := by
  rw [exec_dispatch, execDispatch, decodeCommand_of_illegalWord h, raise]

/-- Settles O4: a word R93 does not reject is of a row, and so decodes; of a word it rejects, DISPATCH is the abort with
IllegalCommand, whose host-visible effect `aborted_abort` states. -/
theorem illegalWordsChangeOnlyStatus : Obligations.IllegalWordsChangeOnlyStatus := by
  refine ⟨fun w => ⟨fun hdec => ?_, decodeCommand_of_illegalWord⟩, fun s hspoiled hword => ?_⟩
  · by_contra hlegal
    rcases legalWord_cases hlegal with hrow | rfl | rfl | rfl | rfl | rfl | rfl | rfl
    case inl => simp [decodeCommand_of_configureRow hrow] at hdec
    all_goals cases hdec
  · have haborted := aborted_abort (half := .dispatch) (e := .illegalCommand) hspoiled
    exact ⟨_, exec_dispatch_of_illegalWord hword, haborted, haborted.err⟩

end Sys2Proof.Machine
end

section
/-! The dictionary operations ED_INSERT and DD_BIND (41_dictionary.md R123, R130): what each one leaves the maps
binding, and the obligation that follows. -/

namespace Sys2Proof.Machine

variable {q : Sequence} {s : State}

theorem edInsert_ed_of_bound {k : Nat} (h : edLookup s.ed q = some k) : (edInsert q s).ed = s.ed := by
  simp [h]

/-- ED_INSERT of an absent, non-empty Sequence binds it to NEXT_CODE and keeps every other binding. -/
theorem edLookup_edInsert_of_absent (hq : q ≠ []) (habs : edLookup s.ed q = none) (r : Sequence) :
    edLookup (edInsert q s).ed r = if r = q then some s.nextCode.toNat else edLookup s.ed r := by
  have hed : (edInsert q s).ed = s.ed ++ [(q, s.nextCode.toNat)] := by simp [habs]
  rw [hed]
  exact edLookup_append s.ed q r _ hq habs

/-- DD_BIND binds NEXT_CODE and keeps every other binding. -/
theorem ddFind_ddBind (q : Sequence) (s : State) (k : Nat) :
    ddFind (ddBind q s).dd k = if k = s.nextCode.toNat then some q else ddFind s.dd k :=
  ddFind_ddSet s.dd s.nextCode.toNat k q

/-- Settles O40: the new maps are those of `edInsert` and `ddBind`, whose updates touch one map and NEXT_CODE only;
an existing binding keeps ED, and an absent Sequence and NEXT_CODE receive their binding by the lookup rules. -/
theorem bindingsReceiveNextCode : Obligations.BindingsReceiveNextCode := by
  refine ⟨fun q s hq => ?_, fun s k => rfl, fun q s => ?_⟩
  · exact ⟨(edInsert q s).ed, rfl, fun _ hbound => edInsert_ed_of_bound hbound,
      edLookup_edInsert_of_absent hq⟩
  · exact ⟨(ddBind q s).dd, rfl, ddFind_ddBind q s⟩

end Sys2Proof.Machine
end

section
/-! The Encoder's micro-operations (42_encoder.md R141–R144): what each one answers under each of its conditions, and
the obligations that follow. -/

namespace Sys2Proof.Machine

variable {s : State} {c : Byte} {k : Nat}

/-! ### ENC_INIT (42_encoder.md R141) -/

theorem exec_encInit_of_fits (h : s.inLen.toNat ≤ s.inSize.toNat) : exec .encInit s = .next (encStart s) :=
  if_neg (Nat.not_lt.2 h)

theorem exec_encInit_of_tooLong (h : s.inSize.toNat < s.inLen.toNat) :
    exec .encInit s = .next (abort .toCode .bufferOverflow s) := if_pos h

/-- Settles O14: past the length check ED is `initialEd` and the width controller is as CW_INIT leaves it, MAX_CODE
by the invariant that CW_INIT establishes. -/
theorem encInitStartsAFreshDictionary : Obligations.EncInitStartsAFreshDictionary := by
  refine fun s hcfg => ⟨fun hfits => ?_, exec_encInit_of_tooLong⟩
  exact ⟨initialEd, initialBits s, maxCodeOf (initialBits s).toNat, exec_encInit_of_fits hfits, edLookup_initialEd,
    initialBits_toNat hcfg, (encodeLoopInv_encStart hcfg hfits).width.maxCode_eq⟩

/-! ### ENC_SYMBOL (42_encoder.md R142) -/

theorem exec_encSymbol (h : elementIn s s.inPos.toNat = c) : exec .encSymbol s = encSymbolWith c s :=
  congrArg (encSymbolWith · s) h

theorem encSymbolWith_of_found (h : (edLookup s.ed (s.cur ++ [c])).isSome) :
    encSymbolWith c s = .next (encExtend (s.cur ++ [c]) s) := if_pos h

theorem encSymbolWith_of_unbound (habs : edLookup s.ed (s.cur ++ [c]) = none) (hcur : edLookup s.ed s.cur = none) :
    encSymbolWith c s = .next (abort .toCode .invariantViolation s) := by
  simp [encSymbolWith, habs, hcur, raise]

theorem encSymbolWith_of_codeFull (habs : edLookup s.ed (s.cur ++ [c]) = none) (hcur : edLookup s.ed s.cur = some k)
    (hfull : s.codeSize.toNat ≤ s.codePos.toNat) :
    encSymbolWith c s = .next (abort .toCode .bufferOverflow s) := by
  simp [encSymbolWith, habs, hcur, emit_eq_none.2 hfull, raise]

theorem encSymbolWith_of_emitted (habs : edLookup s.ed (s.cur ++ [c]) = none) (hcur : edLookup s.ed s.cur = some k)
    (hroom : s.codePos.toNat < s.codeSize.toNat) :
    encSymbolWith c s = .next (encRestart (s.cur ++ [c]) c (pushCode (BitVec.ofNat 16 k) s)) := by
  simp [encSymbolWith, habs, hcur, emit_eq_some.2 ⟨hroom, rfl⟩]

theorem encRestart_of_capacity (q : Sequence) (c : Byte) (h : s.nextCode.toNat ≤ s.maxCode.toNat) :
    encRestart q c s = { cwGrow (edInsert q s) with cur := [c], inPos := s.inPos + 1 } := by
  simp [encRestart, hasCapacity, h]

theorem encRestart_of_exhausted (q : Sequence) (c : Byte) (h : ¬ s.nextCode.toNat ≤ s.maxCode.toNat) :
    encRestart q c s = { s with cur := [c], inPos := s.inPos + 1 } := by
  simp [encRestart, hasCapacity, h]

theorem growthDue_iff :
    growthDue s = true ↔
      s.var = .dynamic ∧ s.maxCode.toNat < s.nextCode.toNat ∧ s.curBits.toNat < s.maxBits.toNat := by
  simp [growthDue]

/-- CW_GROW under a legal CFG (44_code_width.md R183): one more bit and its greatest code if growth is due, the
registers as they were if not. -/
theorem cwGrow_spec (hcfg : CfgLegal s) :
    if s.var = .dynamic ∧ s.maxCode.toNat < s.nextCode.toNat ∧ s.curBits.toNat < s.maxBits.toNat then
      (cwGrow s).curBits = s.curBits + 1 ∧ (cwGrow s).maxCode.toNat = 2 ^ (cwGrow s).curBits.toNat - 1
    else (cwGrow s).curBits = s.curBits ∧ (cwGrow s).maxCode = s.maxCode := by
  split
  case isTrue hdue =>
    have ⟨_, _, hlt⟩ := hdue
    have hbits : (s.curBits + 1).toNat ≤ 16 := by
      rw [BitVec.toNat_add]
      exact (Nat.mod_le _ _).trans (hlt.trans_le hcfg.2)
    simpa [growthDue_iff.2 hdue] using maxCodeOf_toNat hbits
  case isFalse hdue => simp [mt growthDue_iff.1 hdue]

/-- Settles O15: one equation of `encSymbolWith` per case; after an emission the candidate is bound and the width
grown if capacity remains, and nothing is bound if not. -/
theorem encSymbolFollowsItsRule : Obligations.EncSymbolFollowsItsRule := by
  intro s c hcfg _ hc
  rw [exec_encSymbol hc]
  refine ⟨encSymbolWith_of_found, encSymbolWith_of_unbound, fun k => encSymbolWith_of_codeFull,
    fun k habs hcur hroom => ?_⟩
  have hexec := encSymbolWith_of_emitted habs hcur hroom
  have hcode := bufGet_bufSet_at .CODE s.codeBuf s.codePos.toNat (BitVec.ofNat 16 k)
  by_cases hcap : s.nextCode.toNat ≤ s.maxCode.toNat
  · let bound := edInsert (s.cur ++ [c]) (pushCode (BitVec.ofNat 16 k) s)
    rw [encRestart_of_capacity (s := pushCode _ s) _ _ hcap] at hexec
    refine ⟨bound.ed, s.nextCode + 1, (cwGrow bound).curBits, (cwGrow bound).maxCode, _, hexec, hcode, ?_⟩
    rw [if_pos hcap]
    exact ⟨rfl, edLookup_edInsert_of_absent (by simp) habs, cwGrow_spec (s := bound) hcfg⟩
  · rw [encRestart_of_exhausted (s := pushCode _ s) _ _ hcap] at hexec
    refine ⟨s.ed, s.nextCode, s.curBits, s.maxCode, _, hexec, hcode, ?_⟩
    rw [if_neg hcap]
    exact ⟨rfl, rfl, rfl, rfl⟩

/-! ### ENC_END (42_encoder.md R144) -/

theorem exec_encEnd_of_empty (h : s.cur = []) : exec .encEnd s = .next (encFinish s) := if_pos h

theorem exec_encEnd_of_unbound (hne : s.cur ≠ []) (hcur : edLookup s.ed s.cur = none) :
    exec .encEnd s = .next (abort .toCode .invariantViolation s) := by
  simp [exec, execEncEnd, hne, hcur, raise]

theorem exec_encEnd_of_codeFull (hne : s.cur ≠ []) (hcur : edLookup s.ed s.cur = some k)
    (hfull : s.codeSize.toNat ≤ s.codePos.toNat) :
    exec .encEnd s = .next (abort .toCode .bufferOverflow s) := by
  simp [exec, execEncEnd, hne, hcur, emit_eq_none.2 hfull, raise]

theorem exec_encEnd_of_emitted (hne : s.cur ≠ []) (hcur : edLookup s.ed s.cur = some k)
    (hroom : s.codePos.toNat < s.codeSize.toNat) :
    exec .encEnd s = .next (encFinish (pushCode (BitVec.ofNat 16 k) s)) := by
  simp [exec, execEncEnd, hne, hcur, emit_eq_some.2 ⟨hroom, rfl⟩]

theorem encFinish_of_chained (h : s.chain = true) :
    encFinish s = { s with
      codeLen := s.codePos, width := s.curBits.setWidth 8, chain := false, phase := Phase.serInit } := if_pos h

/-- The end of an ENCODE that is no half of COMPRESS and that no forbidden write hit. -/
theorem encFinish_of_unchained (hspoiled : s.spoiled = false) (h : s.chain = false) :
    encFinish s = { s with
      codeLen := s.codePos, width := s.curBits.setWidth 8, phase := Phase.idle, busy := false } := by
  rw [encFinish, if_neg (by simp [h])]
  exact complete_unspoiled hspoiled

/-- Settles O16: with CUR empty the results are those of the state itself, after an emission those of the state with
the code appended, and the two forms of `encFinish` say what is written. -/
theorem encEndWritesTheResults : Obligations.EncEndWritesTheResults := by
  intro s hspoiled
  refine ⟨fun hempty hchain => ?_, fun hempty hchain => ?_, exec_encEnd_of_unbound,
    fun k => exec_encEnd_of_codeFull, fun k hne hcur hroom => ?_⟩
  · rw [exec_encEnd_of_empty hempty, encFinish_of_unchained hspoiled hchain]
  · rw [exec_encEnd_of_empty hempty, encFinish_of_chained hchain]
  · refine ⟨_, bufGet_bufSet_at .CODE s.codeBuf s.codePos.toNat (BitVec.ofNat 16 k), fun hchain => ?_,
      fun hchain => ?_⟩
    · rw [exec_encEnd_of_emitted hne hcur hroom, encFinish_of_unchained (s := pushCode _ s) hspoiled hchain]
      rfl
    · rw [exec_encEnd_of_emitted hne hcur hroom, encFinish_of_chained (s := pushCode _ s) hchain]
      rfl

end Sys2Proof.Machine
end

section
/-! The Decoder's micro-operations (43_decoder.md R161–R166): what each one answers under each of its conditions, and
the obligations that follow. -/

namespace Sys2Proof.Machine

variable {s : State} {k : Nat} {entry : Sequence} {p₀ : Byte} {ps : Sequence}

/-! ### DEC_INIT (43_decoder.md R161) -/

theorem exec_decInit_of_fits (h : s.codeLen.toNat ≤ s.codeSize.toNat) : exec .decInit s = .next (decStart s) :=
  if_neg (Nat.not_lt.2 h)

theorem exec_decInit_of_tooLong (h : s.codeSize.toNat < s.codeLen.toNat) :
    exec .decInit s = .next (abort .toOut .bufferOverflow s) := if_pos h

/-- Settles O23: past the length check DD is `initialDd` and the width controller is as CW_INIT leaves it, MAX_CODE
by the invariant that CW_INIT establishes. -/
theorem decInitStartsAFreshDictionary : Obligations.DecInitStartsAFreshDictionary := by
  refine fun s hcfg => ⟨fun hfits => ?_, exec_decInit_of_tooLong⟩
  exact ⟨initialDd, initialBits s, maxCodeOf (initialBits s).toNat, exec_decInit_of_fits hfits, ddFind_initialDd,
    initialBits_toNat hcfg, (decodeLoopInv_decStart hcfg hfits).width.maxCode_eq⟩

/-! ### DEC_FIRST (43_decoder.md R162) -/

theorem exec_decFirst (h : (elementCode s s.codePos.toNat).toNat = k) : exec .decFirst s = decFirstWith k s :=
  congrArg (decFirstWith · s) h

theorem decFirstWith_of_invalid (h : 255 < k) : decFirstWith k s = .next (abort .toOut .invalidCode s) := if_pos h

theorem decFirstWith_of_outFull (hk : k ≤ 255) (hfull : s.outSize.toNat < s.outPos.toNat + (firstEntry k s).length) :
    decFirstWith k s = .next (abort .toOut .bufferOverflow s) := by
  simp [decFirstWith, Nat.not_lt.2 hk, output_eq_none.2 hfull, raise]

theorem decFirstWith_of_room (hk : k ≤ 255) (hroom : s.outPos.toNat + (firstEntry k s).length ≤ s.outSize.toNat) :
    decFirstWith k s = .next (decAdvance (firstEntry k s) (pushOut (firstEntry k s) s)) := by
  simp [decFirstWith, Nat.not_lt.2 hk, output_eq_some.2 ⟨hroom, rfl⟩]

/-- The entry of a single-byte code is that byte, by DD's invariant (41_dictionary.md R131). -/
theorem DecodeDictInv.firstEntry_symbol (h : DecodeDictInv s.dd s.nextCode.toNat) (hnext : 256 ≤ s.nextCode.toNat)
    (hk : k ≤ 255) : firstEntry k s = [BitVec.ofNat 8 k] := by
  have hbyte : (BitVec.ofNat 8 k).toNat = k := by
    rw [BitVec.toNat_ofNat]
    omega
  have hfind : ddFind s.dd k = some [BitVec.ofNat 8 k] := by simpa only [hbyte] using h.symbols (BitVec.ofNat 8 k)
  exact firstEntry_of_bound ((if_pos (by omega)).trans hfind)

/-- Settles O24: the entry is the one byte `k`, and a run of one byte stores like a single element. -/
theorem decFirstResolvesDirectly : Obligations.DecFirstResolvesDirectly := by
  intro s k hdict hnext _ hk
  rw [exec_decFirst hk]
  refine ⟨decFirstWith_of_invalid, fun hbyte hfull => ?_, fun hbyte hroom => ?_⟩
  all_goals have hentry := hdict.firstEntry_symbol hnext hbyte
  · exact decFirstWith_of_outFull hbyte (by simpa [hentry] using hfull)
  · have hexec := decFirstWith_of_room (s := s) hbyte (by simpa [hentry] using hroom)
    rw [hentry] at hexec
    exact ⟨_, hexec, bufGet_bufSet_at .OUT s.outBuf s.outPos.toNat (BitVec.ofNat 8 k)⟩

/-! ### DEC_NEXT (43_decoder.md R163) -/

theorem exec_decNext (h : (elementCode s s.codePos.toNat).toNat = k) : exec .decNext s = decNextWith k s :=
  congrArg (decNextWith · s) h

theorem decNextWith_of_invalid (habs : ddGet s k = none) (hk : k ≠ s.nextCode.toNat) :
    decNextWith k s = .next (abort .toOut .invalidCode s) := by
  simp [decNextWith, habs, hk, raise]

/-- DEC_NEXT past its check of the code: both kinds of entry are output and bound in the same way. -/
theorem decNextWith_of_entry (h : NextEntry s k entry) : decNextWith k s = decEntry entry s := by
  rcases h with hbound | ⟨habs, hk, rfl⟩
  · simp [decNextWith, hbound]
  · simp [decNextWith, habs, ← hk]

theorem decEntry_of_outFull (h : s.outSize.toNat < s.outPos.toNat + entry.length) :
    decEntry entry s = .next (abort .toOut .bufferOverflow s) := by
  simp [decEntry, output_eq_none.2 h, raise]

theorem decEntry_of_room (h : s.outPos.toNat + entry.length ≤ s.outSize.toNat) :
    decEntry entry s = .next (decAdvance entry (decBind (firstSymbol entry) (pushOut entry s))) := by
  simp [decEntry, output_eq_some.2 ⟨h, rfl⟩]

theorem decBind_of_capacity (first : Byte) (h : s.nextCode.toNat ≤ s.maxCode.toNat) :
    decBind first s = cwGrow (ddBind (s.prev ++ [first]) s) := if_pos (decide_eq_true h)

theorem decBind_of_exhausted (first : Byte) (h : ¬ s.nextCode.toNat ≤ s.maxCode.toNat) : decBind first s = s :=
  if_neg (mt of_decide_eq_true h)

/-- Settles O25: the code is refused, or has an entry; past OUTPUT the entry's first Symbol is bound behind PREV and
the width grown if capacity remains, and nothing is bound if not. -/
theorem decNextFollowsItsRule : Obligations.DecNextFollowsItsRule := by
  intro s k hcfg _ hk
  rw [exec_decNext hk]
  refine ⟨decNextWith_of_invalid, ?_⟩
  rintro entry e₀ rest rfl hentry
  have hnext : NextEntry s k (e₀ :: rest) := by
    refine hentry.imp_right ?_
    rintro ⟨habs, hcode, p₀, ps, hprev, heq⟩
    exact ⟨habs, hcode, by rw [heq, hprev, firstSymbol_cons]⟩
  rw [decNextWith_of_entry hnext]
  refine ⟨decEntry_of_outFull, fun hroom => ?_⟩
  have hexec := decEntry_of_room hroom
  have hinside := elementOut_pushOut_inside (e₀ :: rest) s
  have houtside := elementOut_pushOut_outside (e₀ :: rest) s
  by_cases hcap : s.nextCode.toNat ≤ s.maxCode.toNat
  · let bound := ddBind (s.prev ++ [e₀]) (pushOut (e₀ :: rest) s)
    rw [decBind_of_capacity (s := pushOut _ s) _ hcap] at hexec
    refine ⟨bound.dd, s.nextCode + 1, (cwGrow bound).curBits, (cwGrow bound).maxCode, _, hexec, hinside, houtside, ?_⟩
    rw [if_pos hcap]
    exact ⟨rfl, ddFind_ddBind (s.prev ++ [e₀]) s, cwGrow_spec (s := bound) hcfg⟩
  · rw [decBind_of_exhausted (s := pushOut _ s) _ hcap] at hexec
    refine ⟨s.dd, s.nextCode, s.curBits, s.maxCode, _, hexec, hinside, houtside, ?_⟩
    rw [if_neg hcap]
    exact ⟨rfl, rfl, rfl, rfl⟩

/-! ### The code NEXT_CODE (43_decoder.md R164, R165) -/

/-- DD_GET never answers at NEXT_CODE itself (41_dictionary.md R129). -/
theorem ddGet_nextCode (s : State) : ddGet s s.nextCode.toNat = none := if_neg (Nat.lt_irrefl _)

/-- DEC_NEXT for the code NEXT_CODE, with room in OUT: the entry is PREV with its own first Symbol behind it, and that
Symbol is the one `decBind` binds behind PREV. -/
theorem exec_decNext_kwkwk (hk : (elementCode s s.codePos.toNat).toNat = s.nextCode.toNat) (hprev : s.prev = p₀ :: ps)
    (hroom : s.outPos.toNat + (s.prev.length + 1) ≤ s.outSize.toNat) :
    exec .decNext s = .next (decAdvance (s.prev ++ [p₀]) (decBind p₀ (pushOut (s.prev ++ [p₀]) s))) := by
  have hnext : NextEntry s s.nextCode.toNat (s.prev ++ [p₀]) :=
    .inr ⟨ddGet_nextCode s, rfl, by rw [hprev, firstSymbol_cons]⟩
  have hfirst : firstSymbol (s.prev ++ [p₀]) = p₀ := by rw [hprev, List.cons_append, firstSymbol_cons]
  rw [exec_decNext hk, decNextWith_of_entry hnext, decEntry_of_room (by simpa using hroom), hfirst]

/-- Settles O26: the Sequence bound to NEXT_CODE is PREV with the entry's first Symbol behind it, which here is the
entry itself. -/
theorem kwKwKCodeIsBoundToTheEntryOutput : Obligations.KwKwKCodeIsBoundToTheEntryOutput := by
  intro s p₀ ps _ hk _ hprev hroom
  obtain ⟨dd, n, cb, mc, hbind⟩ := decBind_spec p₀ (pushOut (s.prev ++ [p₀]) s)
  refine ⟨_, exec_decNext_kwkwk hk hprev hroom, rfl, by rw [hbind]; rfl, by rw [hbind]; rfl, ?_,
    fun hcap => ?_⟩
  · rw [hbind]
    exact elementOut_pushOut_inside (s.prev ++ [p₀]) s
  · rw [decBind_of_capacity (s := pushOut _ s) _ (of_decide_eq_true hcap)]
    exact (ddFind_ddBind (s.prev ++ [p₀]) s _).trans (if_pos rfl)

/-- Settles O27: a NEXT_CODE of 2^MAX_BITS has no capacity left, so that the KwKwK branch outputs and binds nothing. -/
theorem fullTableCodeIsOutputAndNotBound : Obligations.FullTableCodeIsOutputAndNotBound := by
  intro s p₀ ps hcfg hwidth hfull _ hk hprev hroom
  have hnone : ¬ hasCapacity s = true := (hwidth.capacity_iff hcfg).not.2 (by omega)
  have hcap : ¬ s.nextCode.toNat ≤ s.maxCode.toNat := mt decide_eq_true hnone
  have hexec := exec_decNext_kwkwk hk hprev hroom
  rw [decBind_of_exhausted (s := pushOut _ s) _ hcap] at hexec
  have hlength : s.prev.length + 1 = (s.prev ++ [p₀]).length := by simp
  rw [hlength]
  exact ⟨_, hexec, elementOut_pushOut_inside (s.prev ++ [p₀]) s, elementOut_pushOut_outside (s.prev ++ [p₀]) s⟩

end Sys2Proof.Machine
end

section
/-! The stream codec's micro-operations (45_stream_codec.md R201–R206): what each one answers under each of its
conditions, and the obligations that follow. -/

namespace Sys2Proof.Machine

variable {s : State} {k : Nat}

/-! ### SER_INIT (45_stream_codec.md R201) -/

theorem exec_serInit_of_tooLong (h : s.codeSize.toNat < s.codeLen.toNat) :
    exec .serInit s = .next (abort .toOut .bufferOverflow s) := if_pos h

theorem exec_serInit_of_static (hfits : s.codeLen.toNat ≤ s.codeSize.toNat) (hvar : s.var = .static) :
    exec .serInit s = .next (serStartStatic s) := by
  simp [exec, execSerInit, Nat.not_lt.2 hfits, hvar]

theorem exec_serInit_of_badWidth (hfits : s.codeLen.toNat ≤ s.codeSize.toNat) (hvar : s.var = .dynamic)
    (hwidth : s.width.toNat < 9 ∨ s.maxBits.toNat < s.width.toNat) :
    exec .serInit s = .next (abort .toOut .configurationError s) := by
  simp [exec, execSerInit, Nat.not_lt.2 hfits, hvar, widthLegal_false_iff.2 hwidth, raise]

theorem exec_serInit_of_noRoom (hfits : s.codeLen.toNat ≤ s.codeSize.toNat) (hvar : s.var = .dynamic)
    (hwidth : widthLegal s.width s = true) (hfull : s.outSize.toNat < 1) :
    exec .serInit s = .next (abort .toOut .bufferOverflow s) := by
  rw [exec, execSerInit, if_neg (Nat.not_lt.2 hfits), hvar]
  exact (if_pos hwidth).trans (if_pos hfull)

theorem exec_serInit_of_room (hfits : s.codeLen.toNat ≤ s.codeSize.toNat) (hvar : s.var = .dynamic)
    (hwidth : widthLegal s.width s = true) (hroom : 1 ≤ s.outSize.toNat) :
    exec .serInit s = .next (serStartDynamic s) := by
  rw [exec, execSerInit, if_neg (Nat.not_lt.2 hfits), hvar]
  exact (if_pos hwidth).trans (if_neg (Nat.not_lt.2 hroom))

/-- Settles O17: each clause is one of the five equations of SER_INIT, and the header is one write at index 0. -/
theorem serInitWritesTheHeader : Obligations.SerInitWritesTheHeader := by
  intro s
  refine ⟨exec_serInit_of_tooLong, exec_serInit_of_static, fun hfits hvar => ?_⟩
  refine ⟨exec_serInit_of_badWidth hfits hvar, fun hge hle => ?_⟩
  have hwidth : widthLegal s.width s = true := widthLegal_iff.2 ⟨hge, hle⟩
  refine ⟨exec_serInit_of_noRoom hfits hvar hwidth, fun hroom => ?_⟩
  exact ⟨_, exec_serInit_of_room hfits hvar hwidth hroom, bufGet_bufSet_at .OUT s.outBuf 0 s.width⟩

/-! ### SER_CODE (45_stream_codec.md R202) -/

theorem exec_serCode (h : (elementCode s s.codePos.toNat).toNat = k) : exec .serCode s = serCodeWith k s :=
  congrArg (serCodeWith · s) h

theorem serCodeWith_of_outFull (h : s.outSize.toNat < s.outPos.toNat + (bigEndian s.serB.toNat k).length) :
    serCodeWith k s = .next (abort .toOut .bufferOverflow s) := by
  simp [serCodeWith, output_eq_none.2 h, raise]

theorem serCodeWith_of_room (h : s.outPos.toNat + (bigEndian s.serB.toNat k).length ≤ s.outSize.toNat) :
    serCodeWith k s = .next (serAdvance (pushOut (bigEndian s.serB.toNat k) s)) := by
  simp [serCodeWith, output_eq_some.2 ⟨h, rfl⟩]

/-- Settles O18: OUTPUT stores the SER_B bytes of the code as one run at OUT_POS, and byte `j` of the run is the
code's `j`-th from the most significant. -/
theorem serCodeWritesBigEndianBytes : Obligations.SerCodeWritesBigEndianBytes := by
  intro s k _ hk
  have hlength : (bigEndian s.serB.toNat k).length = s.serB.toNat := bigEndian_length s.serB.toNat k
  rw [exec_serCode hk]
  refine ⟨fun hfull => serCodeWith_of_outFull (by rwa [hlength]), fun hroom => ?_⟩
  have hexec : serCodeWith k s = .next (serAdvance (pushOut (bigEndian s.serB.toNat k) s)) :=
    serCodeWith_of_room (by rwa [hlength])
  have hinside := elementOut_pushOut_inside (bigEndian s.serB.toNat k) s
  have houtside := elementOut_pushOut_outside (bigEndian s.serB.toNat k) s
  rw [pushOut, hlength] at hexec
  rw [hlength] at houtside
  refine ⟨_, hexec, fun j hj => ?_, houtside⟩
  exact (hinside j (by rwa [hlength])).trans (bigEndian_getElem _ _ _ hj)

/-! ### SER_END and DEC_END (45_stream_codec.md R203, 43_decoder.md R167) -/

/-- Settles O19: both are COMPLETE() after OUT_LEN takes OUT_POS, of a command no forbidden write hit. -/
theorem serEndAndDecEndReportOutLen : Obligations.SerEndAndDecEndReportOutLen := by
  intro s hspoiled
  have hcomplete := complete_unspoiled (s := { s with outLen := s.outPos }) hspoiled
  exact ⟨congrArg Host.Outcome.next hcomplete, congrArg Host.Outcome.next hcomplete⟩

/-! ### DES_INIT (45_stream_codec.md R204) -/

theorem exec_desInit_of_tooLong (h : s.inSize.toNat < s.inLen.toNat) :
    exec .desInit s = .next (abort .toCode .bufferOverflow s) := if_pos h

theorem exec_desInit_of_static (hfits : s.inLen.toNat ≤ s.inSize.toNat) (hvar : s.var = .static) :
    exec .desInit s = desInitStatic s := by
  simp [exec, execDesInit, Nat.not_lt.2 hfits, hvar]

theorem exec_desInit_of_dynamic (hfits : s.inLen.toNat ≤ s.inSize.toNat) (hvar : s.var = .dynamic) :
    exec .desInit s = desInitDynamic s := by
  simp [exec, execDesInit, Nat.not_lt.2 hfits, hvar]

theorem desInitStatic_of_odd (h : s.inLen.toNat % 2 ≠ 0) :
    desInitStatic s = .next (abort .toCode .invalidCode s) := if_neg h

theorem desInitStatic_of_even (h : s.inLen.toNat % 2 = 0) : desInitStatic s = .next (desStartStatic s) := if_pos h

theorem desInitDynamic_of_empty (h : s.inLen = 0) : desInitDynamic s = .next (abort .toCode .invalidCode s) := if_pos h

theorem desInitDynamic_of_badHeader (h : widthLegal (elementIn s 0) s = false) :
    desInitDynamic s = .next (abort .toCode .invalidCode s) := by
  simp [desInitDynamic, h, raise]

theorem desInitDynamic_of_badPayload (hlegal : widthLegal (elementIn s 0) s = true)
    (h : (s.inLen.toNat - 1) % bytesPerCode (elementIn s 0).toNat ≠ 0) :
    desInitDynamic s = .next (abort .toCode .invalidCode s) := by
  simp [desInitDynamic, hlegal, h, raise]

theorem desInitDynamic_of_frame (hne : s.inLen ≠ 0) (hlegal : widthLegal (elementIn s 0) s = true)
    (h : (s.inLen.toNat - 1) % bytesPerCode (elementIn s 0).toNat = 0) :
    desInitDynamic s = .next (desStartDynamic (elementIn s 0) s) := by
  rw [desInitDynamic, if_neg hne, if_pos hlegal, if_pos h]

/-- Settles O20: after the check of IN_LEN the two variants have their own checks, and the first one that fails
answers. -/
theorem desInitChecksTheFrame : Obligations.DesInitChecksTheFrame := by
  refine fun s => ⟨exec_desInit_of_tooLong, fun hfits hvar => ?_, fun hfits hvar => ?_⟩
  · rw [exec_desInit_of_static hfits hvar]
    exact ⟨desInitStatic_of_odd, desInitStatic_of_even⟩
  · rw [exec_desInit_of_dynamic hfits hvar]
    refine ⟨fun hempty => desInitDynamic_of_empty (BitVec.eq_of_toNat_eq hempty), ?_⟩
    rintro _ hlen rfl
    have hne : s.inLen ≠ 0 := fun h => hlen (congrArg BitVec.toNat h)
    refine ⟨fun hbad => desInitDynamic_of_badHeader (widthLegal_false_iff.2 hbad), fun hge hle => ?_⟩
    have hlegal : widthLegal (elementIn s 0) s = true := widthLegal_iff.2 ⟨hge, hle⟩
    exact ⟨desInitDynamic_of_badPayload hlegal, desInitDynamic_of_frame hne hlegal⟩

/-! ### DES_CODE (45_stream_codec.md R205) -/

theorem exec_desCode_of_codeFull (h : s.codeSize.toNat ≤ s.codePos.toNat) :
    exec .desCode s = .next (abort .toCode .bufferOverflow s) := if_pos h

theorem exec_desCode_of_room (h : s.codePos.toNat < s.codeSize.toNat) :
    exec .desCode s = .next (desStore (elementsIn s s.inPos.toNat s.serB.toNat) s) := if_neg (Nat.not_le.2 h)

/-- `unBE` in its closed form, the sum of 00_scope.md R15, for the bytes that `f` numbers. -/
theorem ofBigEndian_map_range (f : Nat → Byte) (n : Nat) :
    ofBigEndian ((List.range n).map f) = ((List.range n).map fun j => (f j).toNat * 256 ^ (n - 1 - j)).sum := by
  induction n generalizing f with
  | zero => rfl
  | succ n ih =>
    have htail := ih fun j => f (j + 1)
    simp only [List.range_succ_eq_map, List.map_cons, List.map_map, List.sum_cons, ofBigEndian, Function.comp_def,
      Nat.succ_eq_add_one, List.length_map, List.length_range, htail]
    congr 4
    funext j
    congr 2
    omega

theorem ofBigEndian_pair (b₀ b₁ : Byte) : ofBigEndian [b₀, b₁] = 256 * b₀.toNat + b₁.toNat := by
  simp [ofBigEndian, Nat.mul_comm]

/-- Two bytes make a number of 16 bits, which a CODE element holds. -/
theorem ofNat_ofBigEndian_pair (b₀ b₁ : Byte) :
    (BitVec.ofNat 16 (ofBigEndian [b₀, b₁])).toNat = 256 * b₀.toNat + b₁.toNat := by
  have := b₀.isLt
  have := b₁.isLt
  rw [ofBigEndian_pair, BitVec.toNat_ofNat]
  omega

/-- Settles O21: the code is `unBE` of the bytes read, and one write at CODE_POS stores it. -/
theorem desCodeAssemblesACode : Obligations.DesCodeAssemblesACode := by
  refine fun s => ⟨exec_desCode_of_codeFull, fun hroom _ => ?_⟩
  refine ⟨_, BitVec.ofNat 16 (ofBigEndian (elementsIn s s.inPos.toNat s.serB.toNat)), exec_desCode_of_room hroom,
    bufGet_bufSet_at .CODE s.codeBuf s.codePos.toNat _, ?_, fun htwo => ?_⟩
  · exact congrArg (BitVec.ofNat 16) (ofBigEndian_map_range (fun j => elementIn s (s.inPos.toNat + j)) s.serB.toNat)
  · rw [htwo]
    exact ofNat_ofBigEndian_pair (elementIn s s.inPos.toNat) (elementIn s (s.inPos.toNat + 1))

/-! ### DES_END (45_stream_codec.md R206) -/

theorem desFinish_of_chained (h : s.chain = true) :
    desFinish s = { s with codeLen := s.codePos, width := s.desH, chain := false, phase := Phase.decInit } := if_pos h

/-- The end of a DESERIALIZE that is no half of DECOMPRESS and that no forbidden write hit. -/
theorem desFinish_of_unchained (hspoiled : s.spoiled = false) (h : s.chain = false) :
    desFinish s = { s with codeLen := s.codePos, width := s.desH, phase := Phase.idle, busy := false } := by
  rw [desFinish, if_neg (by simp [h])]
  exact complete_unspoiled hspoiled

/-- Settles O22: DES_END is `desFinish`, whose two forms say what is written. -/
theorem desEndWritesTheResults : Obligations.DesEndWritesTheResults := fun _ hspoiled =>
  ⟨fun hchain => congrArg Host.Outcome.next (desFinish_of_unchained hspoiled hchain),
    fun hchain => congrArg Host.Outcome.next (desFinish_of_chained hchain)⟩

end Sys2Proof.Machine
end

section
/-! The host commands (46_host_commands.md R230–R233, R241): a CMD write, DISPATCH of a legal word, NOP and CONFIGURE,
and the obligations that follow. -/

namespace Sys2Proof.Machine

variable {s : State} {w : Word}

/-! ### A CMD write (R230, R241) -/

theorem hostAccess_cmd_of_idle (w : Word) (h : s.busy = false) :
    hostAccess (opWR Offset.cmd w) s = .next (accept w s) := by
  rw [opWR, hostAccess_writeReg_of_shape w rfl]
  simp [hostWriteReg, h]

theorem hostAccess_cmd_of_busy (w : Word) (h : s.busy = true) :
    hostAccess (opWR Offset.cmd w) s = .next (dropCommand s) := by
  rw [opWR, hostAccess_writeReg_of_shape w rfl]
  simp [hostWriteReg, h]

/-- With DROP = 0 the host reads BUSY and ERR, and nothing else, in STATUS. -/
theorem statusWord_of_undropped (h : s.drop = false) :
    statusWord s = (0 : BitVec 20) ++ s.err ++ (0 : BitVec 6) ++ (0 : BitVec 1) ++ bitOfBool s.busy := by
  rw [statusWord, h]
  rfl

/-- Settles O9: BUSY decides between `accept` and `dropCommand`, and STATUS of the accepted state is BUSY alone. -/
theorem cmdWriteIsAcceptedOrDropped : Obligations.CmdWriteIsAcceptedOrDropped := by
  refine ⟨fun s w hidle => ⟨⟨false, true, hostAccess_cmd_of_idle w hidle⟩, fun hdrop t ht => ?_⟩,
    fun s w hbusy => hostAccess_cmd_of_busy w hbusy⟩
  rw [hostAccess_cmd_of_idle w hidle] at ht
  cases ht
  rw [statusWord_of_undropped (s := accept w s) hdrop, accept_err, accept_busy]
  rfl

/-! ### DISPATCH of a decoded word (R231) -/

/-- A word decodes to nothing but the eight commands of R91, and each one's arm of DISPATCH is the command itself. -/
theorem exec_dispatch_of_decoded {i : Instr} (h : decodeCommand s.opc = .ok i) : exec .dispatch s = exec i s := by
  rcases (commandWordsMatchTheirRows s.opc i).1 h with
    ⟨_, rfl⟩ | ⟨_, rfl⟩ | ⟨_, rfl⟩ | ⟨_, rfl⟩ | ⟨_, rfl⟩ | ⟨_, rfl⟩ | ⟨_, rfl⟩ | ⟨_, rfl⟩
  all_goals
    rw [exec_dispatch, execDispatch, h]
    rfl

/-! ### NOP (R232) -/

theorem exec_nop (hspoiled : s.spoiled = false) :
    exec .nop s = .next { s with phase := Phase.idle, busy := false } :=
  congrArg Host.Outcome.next (complete_unspoiled hspoiled)

/-- Settles O11: NOP is COMPLETE(), which gives the PHASE and BUSY back that the acceptance in IDLE had changed. -/
theorem nopOnlyClearsErr : Obligations.NopOnlyClearsErr := by
  refine ⟨fun s => exec_nop, fun s hidle hphase => ⟨false, true, ?_⟩⟩
  have hdec : decodeCommand (accept 0 s).opc = .ok .nop := by
    rw [accept_opc]
    rfl
  rw [exec_dispatch_of_decoded hdec, exec_nop rfl, accept, ← hphase, ← hidle]

/-! ### CONFIGURE (R233) -/

theorem exec_configure_of_legal {m : Nat} (v : Variant) (hspoiled : s.spoiled = false) (hlo : 9 ≤ m) (hhi : m ≤ 16) :
    exec (.configure v m) s =
      .next { s with maxBits := BitVec.ofNat 8 m, var := v, phase := Phase.idle, busy := false } :=
  (if_neg (by omega : ¬ (m < 9 ∨ 16 < m))).trans
    (congrArg Host.Outcome.next (complete_unspoiled (s := { s with maxBits := BitVec.ofNat 8 m, var := v }) hspoiled))

theorem exec_configure_of_illegal {m : Nat} (v : Variant) (h : m < 9 ∨ 16 < m) :
    exec (.configure v m) s = .next (abort .dispatch .configurationError s) := if_pos h

/-- CFG as a number: VAR at bit 16 and MAX_BITS at bits [15:8] (10_state.md R25). -/
theorem cfgWord_toNat (s : State) :
    (cfgWord s).toNat = (if s.var = .dynamic then 65536 else 0) + s.maxBits.toNat * 256 := by
  rw [cfgWord, BitVec.toNat_append, BitVec.toNat_append, BitVec.toNat_append,
    ← Nat.shiftLeft_add_eq_or_of_lt (BitVec.isLt _), ← Nat.shiftLeft_add_eq_or_of_lt (BitVec.isLt _),
    ← Nat.shiftLeft_add_eq_or_of_lt (BitVec.isLt _)]
  simp only [Nat.shiftLeft_eq]
  cases s.var <;> simp [bitOfVariant]
  omega

theorem Aborted.cfgWord_eq {half : FailingHalf} {e : ErrorKind} {t : State} (h : Aborted half e s t) :
    cfgWord t = cfgWord s := by
  rw [cfgWord, cfgWord, h.var, h.maxBits]

/-- Settles O12: a legal MAXB is stored and read back at CFG's places; any other aborts from DISPATCH, and an abort
keeps CFG. -/
theorem configureSetsCfgOrRefuses : Obligations.ConfigureSetsCfgOrRefuses := by
  intro s v m hspoiled
  refine ⟨fun hlo hhi => ?_, fun hbad => ?_⟩
  · have hexec := exec_configure_of_legal v hspoiled hlo hhi
    refine ⟨hexec, fun t ht => ?_⟩
    rw [hexec] at ht
    cases ht
    apply word_eq_of_toNat
    rw [cfgWord_toNat, BitVec.toNat_ofNat, BitVec.toNat_ofNat, Nat.mod_eq_of_lt (by omega : m < 2 ^ 8)]
    split <;> omega
  · have haborted := aborted_abort (half := .dispatch) (e := .configurationError) hspoiled
    exact ⟨_, exec_configure_of_illegal v hbad, haborted, haborted.err, haborted.cfgWord_eq⟩

/-! ### DISPATCH of a legal word (R231) -/

/-- A legal word of another command than CONFIGURE is its OPC: all its other bits are 0. -/
theorem eq_ofNat_of_legalWord {n : Nat} (hlegal : ¬ IllegalWord w) (hopc : w.toNat % 256 = n) (hne : n ≠ 1) :
    w = BitVec.ofNat 32 n := by
  apply word_eq_of_toNat
  rw [BitVec.toNat_ofNat]
  omega

theorem configureRow_of_legalWord (hlegal : ¬ IllegalWord w) (hopc : w.toNat % 256 = 1) : w &&& 0xFFFE00FF = 1 := by
  rcases legalWord_cases hlegal with hrow | rfl | rfl | rfl | rfl | rfl | rfl | rfl
  case inl => exact hrow
  all_goals exact absurd hopc (by decide)

theorem exec_dispatch_of_opc {n : Nat} {i : Instr} (hlegal : ¬ IllegalWord s.opc) (hopc : s.opc.toNat % 256 = n)
    (hne : n ≠ 1) (hdec : decodeCommand (BitVec.ofNat 32 n) = .ok i) : exec .dispatch s = exec i s :=
  exec_dispatch_of_decoded (by rw [eq_ofNat_of_legalWord hlegal hopc hne, hdec])

/-- Settles O10: an illegal word is the abort; a legal word decodes to the command of its OPC, whose meaning DISPATCH
runs; and the example's word is illegal, its abort leaving ERR = 4 in STATUS. -/
theorem dispatchDecodesTheLatchedWord : Obligations.DispatchDecodesTheLatchedWord := by
  refine ⟨fun s hspoiled => ⟨exec_dispatch_of_illegalWord, fun hlegal => ?_⟩, fun s t hopc hspoiled hdrop ht => ?_⟩
  · refine ⟨fun hopc => ?nop, fun hopc => ?configure, ?_, ?_, ?_, ?_, ?_, ?_⟩
    case nop => rw [exec_dispatch_of_opc hlegal hopc (by decide) rfl, exec_nop hspoiled]
    case configure =>
      exact exec_dispatch_of_decoded (decodeCommand_of_configureRow (configureRow_of_legalWord hlegal hopc))
    all_goals exact fun hopc => exec_dispatch_of_opc hlegal hopc (by decide) rfl
  · have hillegal : IllegalWord s.opc := by
      rw [hopc]
      decide
    rw [exec_dispatch_of_illegalWord hillegal] at ht
    cases ht
    have haborted := aborted_abort (half := .dispatch) (e := .illegalCommand) hspoiled
    rw [statusWord_of_undropped (haborted.drop.trans hdrop), haborted.err, haborted.busy]
    rfl

end Sys2Proof.Machine
end

section
/-! Errors (60_exceptions.md R260–R262): what an abort leaves, which error each instruction raises and when, and the
obligations that follow. -/

namespace Sys2Proof.Machine

variable {s t : State} {i : Instr} {e : ErrorKind}

/-! ### An abort (R262) -/

/-- Settles O29: `raise` answers the aborted state, which `aborted_abort` describes. -/
theorem abortLeavesEverythingElse : Obligations.AbortLeavesEverythingElse := fun half e s hspoiled =>
  ⟨abort half e s, rfl, aborted_abort hspoiled⟩

theorem errorCode_injective : Function.Injective errorCode := by
  intro e e'
  cases e <;> cases e' <;> decide

theorem errorCode_ne_zero (e : ErrorKind) : errorCode e ≠ 0 := by
  cases e <;> decide

theorem errorCode_le_five (e : ErrorKind) : (errorCode e).toNat ≤ 5 := by
  cases e <;> decide

/-! ### The table of errors (R261) -/

/-- The table of R261: the instruction raises the error in the state. One constructor per row and micro-operation, with
the earlier checks of the same rule passed (R264). A row that reads DD is in the model's own terms, which need no
invariant: `raises_invalidCode_iff` and `raises_bufferOverflow_iff` give them in those of the spec. -/
inductive Raises (s : State) : Instr → ErrorKind → Prop where
  | illegalWord (hword : IllegalWord s.opc) : Raises s .dispatch .illegalCommand
  | configure {v : Variant} {m : Nat} (hm : m < 9 ∨ 16 < m) : Raises s (.configure v m) .configurationError
  | dispatchConfigure {v : Variant} {m : Nat} (hdec : decodeCommand s.opc = .ok (.configure v m))
      (hm : m < 9 ∨ 16 < m) : Raises s .dispatch .configurationError
  | serWidth (hfits : s.codeLen.toNat ≤ s.codeSize.toNat) (hvar : s.var = .dynamic)
      (hwidth : s.width.toNat < 9 ∨ s.maxBits.toNat < s.width.toNat) : Raises s .serInit .configurationError
  | encSymbolUnbound (habs : edLookup s.ed (s.cur ++ [elementIn s s.inPos.toNat]) = none)
      (hcur : edLookup s.ed s.cur = none) : Raises s .encSymbol .invariantViolation
  | encEndUnbound (hne : s.cur ≠ []) (hcur : edLookup s.ed s.cur = none) : Raises s .encEnd .invariantViolation
  | decFirstInvalid (hk : 255 < (elementCode s s.codePos.toNat).toNat) : Raises s .decFirst .invalidCode
  | decNextInvalid (habs : ddGet s (elementCode s s.codePos.toNat).toNat = none)
      (hk : (elementCode s s.codePos.toNat).toNat ≠ s.nextCode.toNat) : Raises s .decNext .invalidCode
  | desFrameStatic (hfits : s.inLen.toNat ≤ s.inSize.toNat) (hvar : s.var = .static)
      (hodd : s.inLen.toNat % 2 = 1) : Raises s .desInit .invalidCode
  | desFrameDynamic (hfits : s.inLen.toNat ≤ s.inSize.toNat) (hvar : s.var = .dynamic)
      (hframe : s.inLen.toNat = 0 ∨ (elementIn s 0).toNat < 9 ∨ s.maxBits.toNat < (elementIn s 0).toNat ∨
        (s.inLen.toNat - 1) % (((elementIn s 0).toNat + 7) / 8) ≠ 0) : Raises s .desInit .invalidCode
  | encInitLength (hlen : s.inSize.toNat < s.inLen.toNat) : Raises s .encInit .bufferOverflow
  | desInitLength (hlen : s.inSize.toNat < s.inLen.toNat) : Raises s .desInit .bufferOverflow
  | serInitLength (hlen : s.codeSize.toNat < s.codeLen.toNat) : Raises s .serInit .bufferOverflow
  | decInitLength (hlen : s.codeSize.toNat < s.codeLen.toNat) : Raises s .decInit .bufferOverflow
  | encSymbolFull (habs : edLookup s.ed (s.cur ++ [elementIn s s.inPos.toNat]) = none)
      (hcur : (edLookup s.ed s.cur).isSome) (hfull : s.codeSize.toNat ≤ s.codePos.toNat) :
      Raises s .encSymbol .bufferOverflow
  | encEndFull (hne : s.cur ≠ []) (hcur : (edLookup s.ed s.cur).isSome)
      (hfull : s.codeSize.toNat ≤ s.codePos.toNat) : Raises s .encEnd .bufferOverflow
  | desCodeFull (hfull : s.codeSize.toNat ≤ s.codePos.toNat) : Raises s .desCode .bufferOverflow
  | serHeaderFull (hfits : s.codeLen.toNat ≤ s.codeSize.toNat) (hvar : s.var = .dynamic) (hge : 9 ≤ s.width.toNat)
      (hle : s.width.toNat ≤ s.maxBits.toNat) (hfull : s.outSize.toNat < 1) : Raises s .serInit .bufferOverflow
  | serCodeFull (hfull : s.outSize.toNat < s.outPos.toNat + s.serB.toNat) : Raises s .serCode .bufferOverflow
  | decFirstFull (hk : (elementCode s s.codePos.toNat).toNat ≤ 255)
      (hfull : s.outSize.toNat <
        s.outPos.toNat + (firstEntry (elementCode s s.codePos.toNat).toNat s).length) :
      Raises s .decFirst .bufferOverflow
  | decNextFull {entry : Sequence} (hentry : NextEntry s (elementCode s s.codePos.toNat).toNat entry)
      (hfull : s.outSize.toNat < s.outPos.toNat + entry.length) : Raises s .decNext .bufferOverflow

/-! ### Every row raises its error -/

/-- A frame R204 refuses, in the words of its checks. -/
theorem desInitDynamic_of_badFrame
    (h : s.inLen.toNat = 0 ∨ (elementIn s 0).toNat < 9 ∨ s.maxBits.toNat < (elementIn s 0).toNat ∨
      (s.inLen.toNat - 1) % (((elementIn s 0).toNat + 7) / 8) ≠ 0) :
    desInitDynamic s = .next (abort .toCode .invalidCode s) := by
  by_cases hlegal : widthLegal (elementIn s 0) s = true
  · obtain ⟨hge, hle⟩ := widthLegal_iff.1 hlegal
    rcases h with hempty | hlt | hgt | hpayload
    · exact desInitDynamic_of_empty (BitVec.eq_of_toNat_eq hempty)
    · omega
    · omega
    · exact desInitDynamic_of_badPayload hlegal hpayload
  · exact desInitDynamic_of_badHeader (Bool.eq_false_of_not_eq_true hlegal)

/-- Where a row of the table holds, the instruction is the abort with the row's error. -/
theorem Raises.exec_eq_abort (h : Raises s i e) : ∃ half, exec i s = .next (abort half e s) := by
  cases h with
  | illegalWord hword => exact ⟨_, exec_dispatch_of_illegalWord hword⟩
  | configure hm => exact ⟨_, exec_configure_of_illegal _ hm⟩
  | dispatchConfigure hdec hm => exact ⟨_, (exec_dispatch_of_decoded hdec).trans (exec_configure_of_illegal _ hm)⟩
  | serWidth hfits hvar hwidth => exact ⟨_, exec_serInit_of_badWidth hfits hvar hwidth⟩
  | encSymbolUnbound habs hcur => exact ⟨_, (exec_encSymbol rfl).trans (encSymbolWith_of_unbound habs hcur)⟩
  | encEndUnbound hne hcur => exact ⟨_, exec_encEnd_of_unbound hne hcur⟩
  | decFirstInvalid hk => exact ⟨_, (exec_decFirst rfl).trans (decFirstWith_of_invalid hk)⟩
  | decNextInvalid habs hk => exact ⟨_, (exec_decNext rfl).trans (decNextWith_of_invalid habs hk)⟩
  | desFrameStatic hfits hvar hodd =>
    exact ⟨_, (exec_desInit_of_static hfits hvar).trans (desInitStatic_of_odd (by omega))⟩
  | desFrameDynamic hfits hvar hframe =>
    exact ⟨_, (exec_desInit_of_dynamic hfits hvar).trans (desInitDynamic_of_badFrame hframe)⟩
  | encInitLength hlen => exact ⟨_, exec_encInit_of_tooLong hlen⟩
  | desInitLength hlen => exact ⟨_, exec_desInit_of_tooLong hlen⟩
  | serInitLength hlen => exact ⟨_, exec_serInit_of_tooLong hlen⟩
  | decInitLength hlen => exact ⟨_, exec_decInit_of_tooLong hlen⟩
  | encSymbolFull habs hcur hfull =>
    obtain ⟨k, hk⟩ := Option.isSome_iff_exists.1 hcur
    exact ⟨_, (exec_encSymbol rfl).trans (encSymbolWith_of_codeFull habs hk hfull)⟩
  | encEndFull hne hcur hfull =>
    obtain ⟨k, hk⟩ := Option.isSome_iff_exists.1 hcur
    exact ⟨_, exec_encEnd_of_codeFull hne hk hfull⟩
  | desCodeFull hfull => exact ⟨_, exec_desCode_of_codeFull hfull⟩
  | serHeaderFull hfits hvar hge hle hfull =>
    exact ⟨_, exec_serInit_of_noRoom hfits hvar (widthLegal_iff.2 ⟨hge, hle⟩) hfull⟩
  | serCodeFull hfull =>
    exact ⟨_, (exec_serCode rfl).trans (serCodeWith_of_outFull (by rwa [bigEndian_length]))⟩
  | decFirstFull hk hfull => exact ⟨_, (exec_decFirst rfl).trans (decFirstWith_of_outFull hk hfull)⟩
  | decNextFull hentry hfull =>
    exact ⟨_, (exec_decNext rfl).trans ((decNextWith_of_entry hentry).trans (decEntry_of_outFull hfull))⟩

/-! ### No other instruction raises an error -/

/-- ERR after an instruction: kept, or the code of a row of the table. -/
def ErrFollowsTable (i : Instr) (s t : State) : Prop :=
  t.err = s.err ∨ ∃ e, Raises s i e ∧ t.err = errorCode e

theorem Raises.errFollowsTable {half : FailingHalf} (h : Raises s i e) (hspoiled : s.spoiled = false) :
    ErrFollowsTable i s (abort half e s) := .inr ⟨e, h, (aborted_abort hspoiled).err⟩

theorem complete_err_of_unspoiled (hspoiled : s.spoiled = false) : (complete s).err = s.err := by
  rw [complete_unspoiled hspoiled]

theorem encFinish_err (hspoiled : s.spoiled = false) : (encFinish s).err = s.err := by
  cases hchain : s.chain
  · rw [encFinish_of_unchained hspoiled hchain]
  · rw [encFinish_of_chained hchain]

theorem desFinish_err (hspoiled : s.spoiled = false) : (desFinish s).err = s.err := by
  cases hchain : s.chain
  · rw [desFinish_of_unchained hspoiled hchain]
  · rw [desFinish_of_chained hchain]

theorem encRestart_err (cand : Sequence) (c : Byte) (s : State) : (encRestart cand c s).err = s.err := by
  obtain ⟨ed, n, cb, mc, heq⟩ := encRestart_spec cand c s
  rw [heq]

theorem decBind_err (first : Byte) (s : State) : (decBind first s).err = s.err := by
  obtain ⟨dd, n, cb, mc, heq⟩ := decBind_spec first s
  rw [heq]

theorem configure_errFollowsTable {v : Variant} {m : Nat} (hspoiled : s.spoiled = false)
    (h : exec (.configure v m) s = .next t) : ErrFollowsTable (.configure v m) s t := by
  rcases execConfigure_cases h with ⟨hm, rfl⟩ | ⟨_, _, rfl⟩
  · exact (Raises.configure hm).errFollowsTable hspoiled
  · exact .inl (complete_err_of_unspoiled hspoiled)

/-- A word R93 does not reject decodes. -/
theorem exists_decodeCommand_of_legalWord {w : Word} (h : ¬ IllegalWord w) : ∃ i, decodeCommand w = .ok i := by
  rcases legalWord_cases h with hrow | rfl | rfl | rfl | rfl | rfl | rfl | rfl
  case inl => exact ⟨_, decodeCommand_of_configureRow hrow⟩
  all_goals exact ⟨_, rfl⟩

/-- DISPATCH raises IllegalCommand for a word of no row, and for a decoded word what its command raises: CONFIGURE is
the only one that does. -/
theorem dispatch_errFollowsTable (hspoiled : s.spoiled = false) (h : exec .dispatch s = .next t) :
    ErrFollowsTable .dispatch s t := by
  by_cases hword : IllegalWord s.opc
  · rw [exec_dispatch_of_illegalWord hword] at h
    cases h
    exact (Raises.illegalWord hword).errFollowsTable hspoiled
  · obtain ⟨i, hdec⟩ := exists_decodeCommand_of_legalWord hword
    rw [exec_dispatch_of_decoded hdec] at h
    rcases (commandWordsMatchTheirRows s.opc i).1 hdec with
      ⟨_, rfl⟩ | ⟨_, rfl⟩ | ⟨_, rfl⟩ | ⟨_, rfl⟩ | ⟨_, rfl⟩ | ⟨_, rfl⟩ | ⟨_, rfl⟩ | ⟨_, rfl⟩
    case inl => cases h; exact .inl (complete_err_of_unspoiled hspoiled)
    case inr.inl =>
      rcases execConfigure_cases h with ⟨hm, rfl⟩ | ⟨_, _, rfl⟩
      · exact (Raises.dispatchConfigure hdec hm).errFollowsTable hspoiled
      · exact .inl (complete_err_of_unspoiled hspoiled)
    all_goals cases h; exact .inl rfl

theorem encSymbol_errFollowsTable (hspoiled : s.spoiled = false) (h : exec .encSymbol s = .next t) :
    ErrFollowsTable .encSymbol s t := by
  rcases encSymbolWith_cases h with ⟨_, rfl⟩ | ⟨habs, hcur, rfl⟩ | ⟨k, habs, hcur, hfull, rfl⟩ | ⟨k, _, _, _, rfl⟩
  · exact .inl rfl
  · exact (Raises.encSymbolUnbound habs hcur).errFollowsTable hspoiled
  · exact (Raises.encSymbolFull habs (by simp [hcur]) hfull).errFollowsTable hspoiled
  · exact .inl (encRestart_err _ _ _)

theorem encEnd_errFollowsTable (hspoiled : s.spoiled = false) (h : exec .encEnd s = .next t) :
    ErrFollowsTable .encEnd s t := by
  rcases execEncEnd_cases h with ⟨_, rfl⟩ | ⟨hne, hcur, rfl⟩ | ⟨k, hne, hcur, hfull, rfl⟩ | ⟨k, _, _, _, rfl⟩
  · exact .inl (encFinish_err hspoiled)
  · exact (Raises.encEndUnbound hne hcur).errFollowsTable hspoiled
  · exact (Raises.encEndFull hne (by simp [hcur]) hfull).errFollowsTable hspoiled
  · exact .inl (encFinish_err (s := pushCode _ s) hspoiled)

theorem serInit_errFollowsTable (hspoiled : s.spoiled = false) (h : exec .serInit s = .next t) :
    ErrFollowsTable .serInit s t := by
  rcases execSerInit_cases h with ⟨hlen, rfl⟩ | ⟨_, _, rfl⟩ | ⟨hfits, hvar, hwidth, rfl⟩ |
    ⟨hfits, hvar, hwidth, hfull, rfl⟩ | ⟨_, _, _, _, rfl⟩
  · exact (Raises.serInitLength hlen).errFollowsTable hspoiled
  · exact .inl rfl
  · exact (Raises.serWidth hfits hvar (widthLegal_false_iff.1 hwidth)).errFollowsTable hspoiled
  · obtain ⟨hge, hle⟩ := widthLegal_iff.1 hwidth
    exact (Raises.serHeaderFull hfits hvar hge hle hfull).errFollowsTable hspoiled
  · exact .inl rfl

theorem desInit_errFollowsTable (hspoiled : s.spoiled = false) (h : exec .desInit s = .next t) :
    ErrFollowsTable .desInit s t := by
  rcases execDesInit_cases h with ⟨hlen, rfl⟩ | ⟨_, _, _, rfl⟩ | ⟨hfits, hvar, hodd, rfl⟩ | ⟨_, _, _, _, _, rfl⟩ |
    ⟨hfits, hvar, hframe, rfl⟩
  · exact (Raises.desInitLength hlen).errFollowsTable hspoiled
  · exact .inl rfl
  · exact (Raises.desFrameStatic hfits hvar (by omega)).errFollowsTable hspoiled
  · exact .inl rfl
  · rw [widthLegal_false_iff, or_assoc] at hframe
    exact (Raises.desFrameDynamic hfits hvar (hframe.imp_left (congrArg BitVec.toNat))).errFollowsTable hspoiled

theorem decFirst_errFollowsTable (hspoiled : s.spoiled = false) (h : exec .decFirst s = .next t) :
    ErrFollowsTable .decFirst s t := by
  rcases decFirstWith_cases h with ⟨hk, rfl⟩ | ⟨hk, hfull, rfl⟩ | ⟨_, _, rfl⟩
  · exact (Raises.decFirstInvalid hk).errFollowsTable hspoiled
  · exact (Raises.decFirstFull hk hfull).errFollowsTable hspoiled
  · exact .inl rfl

theorem decNext_errFollowsTable (hspoiled : s.spoiled = false) (h : exec .decNext s = .next t) :
    ErrFollowsTable .decNext s t := by
  rcases decNextWith_cases h with ⟨habs, hk, rfl⟩ | ⟨entry, hentry, hfull, rfl⟩ | ⟨entry, _, _, rfl⟩
  · exact (Raises.decNextInvalid habs hk).errFollowsTable hspoiled
  · exact (Raises.decNextFull hentry hfull).errFollowsTable hspoiled
  · exact .inl (decBind_err _ _)

/-- An instruction keeps ERR, or a row of the table holds and ERR is its code. -/
theorem exec_errFollowsTable (hspoiled : s.spoiled = false) (h : exec i s = .next t) : ErrFollowsTable i s t := by
  cases i with
  | nop => cases h; exact .inl (complete_err_of_unspoiled hspoiled)
  | configure v m => exact configure_errFollowsTable hspoiled h
  | encode | serialize | deserialize | decode | compress | decompress => cases h; exact .inl rfl
  | dispatch => exact dispatch_errFollowsTable hspoiled h
  | encInit =>
    rcases execEncInit_cases h with ⟨hlen, rfl⟩ | ⟨_, rfl⟩
    · exact (Raises.encInitLength hlen).errFollowsTable hspoiled
    · exact .inl rfl
  | encSymbol => exact encSymbol_errFollowsTable hspoiled h
  | encEnd => exact encEnd_errFollowsTable hspoiled h
  | serInit => exact serInit_errFollowsTable hspoiled h
  | serCode =>
    rcases execSerCode_cases h with ⟨hfull, rfl⟩ | ⟨_, rfl⟩
    · exact (Raises.serCodeFull hfull).errFollowsTable hspoiled
    · exact .inl rfl
  | desInit => exact desInit_errFollowsTable hspoiled h
  | desCode =>
    rcases execDesCode_cases h with ⟨hfull, rfl⟩ | ⟨_, rfl⟩
    · exact (Raises.desCodeFull hfull).errFollowsTable hspoiled
    · exact .inl rfl
  | desEnd => cases h; exact .inl (desFinish_err hspoiled)
  | decInit =>
    rcases execDecInit_cases h with ⟨hlen, rfl⟩ | ⟨_, rfl⟩
    · exact (Raises.decInitLength hlen).errFollowsTable hspoiled
    · exact .inl rfl
  | decFirst => exact decFirst_errFollowsTable hspoiled h
  | decNext => exact decNext_errFollowsTable hspoiled h
  | serEnd | decEnd => cases h; exact .inl (complete_err_of_unspoiled (s := { s with outLen := s.outPos }) hspoiled)

/-- From ERR = 0, an instruction leaves an error's code exactly where a row of the table raises that error. -/
theorem exec_err_eq_errorCode_iff (herr : s.err = 0) (hspoiled : s.spoiled = false) (h : exec i s = .next t) :
    t.err = errorCode e ↔ Raises s i e := by
  constructor
  · intro hcode
    rcases exec_errFollowsTable hspoiled h with hkept | ⟨e', hraises, hcode'⟩
    · exact absurd (hcode.symm.trans (hkept.trans herr)) (errorCode_ne_zero e)
    · rwa [errorCode_injective (hcode.symm.trans hcode')]
  · intro hraises
    obtain ⟨half, hexec⟩ := hraises.exec_eq_abort
    rw [hexec] at h
    cases h
    exact (aborted_abort hspoiled).err

/-! ### The rows, error by error -/

theorem raises_illegalCommand_iff : Raises s i .illegalCommand ↔ i = .dispatch ∧ IllegalWord s.opc := by
  constructor
  · rintro ⟨hword⟩
    exact ⟨rfl, hword⟩
  · rintro ⟨rfl, hword⟩
    exact .illegalWord hword

theorem raises_configurationError_iff :
    Raises s i .configurationError ↔
      (∃ v m, (i = .configure v m ∨ (i = .dispatch ∧ decodeCommand s.opc = .ok (.configure v m))) ∧
        (m < 9 ∨ 16 < m)) ∨
      (i = .serInit ∧ s.codeLen.toNat ≤ s.codeSize.toNat ∧ s.var = .dynamic ∧
        (s.width.toNat < 9 ∨ s.maxBits.toNat < s.width.toNat)) := by
  constructor
  · intro h
    cases h with
    | configure hm => exact .inl ⟨_, _, .inl rfl, hm⟩
    | dispatchConfigure hdec hm => exact .inl ⟨_, _, .inr ⟨rfl, hdec⟩, hm⟩
    | serWidth hfits hvar hwidth => exact .inr ⟨rfl, hfits, hvar, hwidth⟩
  · rintro (⟨v, m, rfl | ⟨rfl, hdec⟩, hm⟩ | ⟨rfl, hfits, hvar, hwidth⟩)
    · exact .configure hm
    · exact .dispatchConfigure hdec hm
    · exact .serWidth hfits hvar hwidth

theorem raises_invariantViolation_iff :
    Raises s i .invariantViolation ↔
      (i = .encSymbol ∧ edLookup s.ed (s.cur ++ [elementIn s s.inPos.toNat]) = none ∧ edLookup s.ed s.cur = none) ∨
      (i = .encEnd ∧ s.cur ≠ [] ∧ edLookup s.ed s.cur = none) := by
  constructor
  · intro h
    cases h with
    | encSymbolUnbound habs hcur => exact .inl ⟨rfl, habs, hcur⟩
    | encEndUnbound hne hcur => exact .inr ⟨rfl, hne, hcur⟩
  · rintro (⟨rfl, habs, hcur⟩ | ⟨rfl, hne, hcur⟩)
    · exact .encSymbolUnbound habs hcur
    · exact .encEndUnbound hne hcur

theorem ddGet_eq_none_of_le {k : Nat} (h : s.nextCode.toNat ≤ k) : ddGet s k = none := if_neg (Nat.not_lt.2 h)

/-- Under DD's invariant a code has no binding exactly from NEXT_CODE on (41_dictionary.md R129, R131). -/
theorem DecodeDictInv.ddGet_eq_none_iff (h : DecodeDictInv s.dd s.nextCode.toNat) {k : Nat} :
    ddGet s k = none ↔ s.nextCode.toNat ≤ k := by
  rcases h.get k with ⟨hlt, q, hq, _⟩ | ⟨hle, hnone⟩
  · simp [hq, hlt]
  · simp [hnone, hle]

theorem DecodeDictInv.next_ge {dd : DecodeDict} {next : Nat} (h : DecodeDictInv dd next) : 256 ≤ next := by
  have hbound : 255 ∈ dd.map Prod.fst := ddFind_isSome_iff.1 (congrArg Option.isSome (h.symbols 255))
  rw [h.codes, List.mem_range] at hbound
  exact hbound

/-- Under DD's invariant DEC_FIRST's entry is the Sequence DD binds the code to (43_decoder.md R162). -/
theorem DecodeDictInv.ddGet_eq_firstEntry (h : DecodeDictInv s.dd s.nextCode.toNat) {k : Nat} (hk : k ≤ 255) :
    ddGet s k = some (firstEntry k s) := by
  rcases h.get k with ⟨_, q, hq, _⟩ | ⟨hle, _⟩
  · rw [firstEntry_of_bound hq, hq]
  · have := h.next_ge
    omega

theorem raises_invalidCode_iff (hdict : i = .decFirst ∨ i = .decNext → DecodeDictInv s.dd s.nextCode.toNat) :
    Raises s i .invalidCode ↔
      (i = .decFirst ∧ 255 < (elementCode s s.codePos.toNat).toNat) ∨
      (i = .decNext ∧ s.nextCode.toNat < (elementCode s s.codePos.toNat).toNat) ∨
      (i = .desInit ∧ s.inLen.toNat ≤ s.inSize.toNat ∧ s.var = .static ∧ s.inLen.toNat % 2 = 1) ∨
      (i = .desInit ∧ s.inLen.toNat ≤ s.inSize.toNat ∧ s.var = .dynamic ∧
        (s.inLen.toNat = 0 ∨ (elementIn s 0).toNat < 9 ∨ s.maxBits.toNat < (elementIn s 0).toNat ∨
          (s.inLen.toNat - 1) % (((elementIn s 0).toNat + 7) / 8) ≠ 0)) := by
  constructor
  · intro h
    cases h with
    | decFirstInvalid hk => exact .inl ⟨rfl, hk⟩
    | decNextInvalid habs hk =>
      have hle := (hdict (.inr rfl)).ddGet_eq_none_iff.1 habs
      exact .inr (.inl ⟨rfl, by omega⟩)
    | desFrameStatic hfits hvar hodd => exact .inr (.inr (.inl ⟨rfl, hfits, hvar, hodd⟩))
    | desFrameDynamic hfits hvar hframe => exact .inr (.inr (.inr ⟨rfl, hfits, hvar, hframe⟩))
  · rintro (⟨rfl, hk⟩ | ⟨rfl, hk⟩ | ⟨rfl, hfits, hvar, hodd⟩ | ⟨rfl, hfits, hvar, hframe⟩)
    · exact .decFirstInvalid hk
    · exact .decNextInvalid (ddGet_eq_none_of_le hk.le) hk.ne'
    · exact .desFrameStatic hfits hvar hodd
    · exact .desFrameDynamic hfits hvar hframe

/-- An entry DEC_NEXT has no room for: of a bound code, or PREV and one Symbol more (43_decoder.md R163, R164). -/
theorem nextEntry_outFull_iff {k : Nat} :
    (∃ entry, NextEntry s k entry ∧ s.outSize.toNat < s.outPos.toNat + entry.length) ↔
      (∃ entry, ddGet s k = some entry ∧ s.outSize.toNat < s.outPos.toNat + entry.length) ∨
      (k = s.nextCode.toNat ∧ s.outSize.toNat < s.outPos.toNat + (s.prev.length + 1)) := by
  constructor
  · rintro ⟨entry, hbound | ⟨_, hk, rfl⟩, hfull⟩
    · exact .inl ⟨entry, hbound, hfull⟩
    · exact .inr ⟨hk, by simpa using hfull⟩
  · rintro (⟨entry, hbound, hfull⟩ | ⟨hk, hfull⟩)
    · exact ⟨entry, .inl hbound, hfull⟩
    · exact ⟨_, .inr ⟨ddGet_eq_none_of_le hk.ge, hk, rfl⟩, by simpa using hfull⟩

theorem raises_bufferOverflow_iff (hdict : i = .decFirst ∨ i = .decNext → DecodeDictInv s.dd s.nextCode.toNat) :
    Raises s i .bufferOverflow ↔
      ((i = .encInit ∨ i = .desInit) ∧ s.inSize.toNat < s.inLen.toNat) ∨
      ((i = .serInit ∨ i = .decInit) ∧ s.codeSize.toNat < s.codeLen.toNat) ∨
      (i = .encSymbol ∧ edLookup s.ed (s.cur ++ [elementIn s s.inPos.toNat]) = none ∧
        (edLookup s.ed s.cur).isSome ∧ s.codeSize.toNat ≤ s.codePos.toNat) ∨
      (i = .encEnd ∧ s.cur ≠ [] ∧ (edLookup s.ed s.cur).isSome ∧ s.codeSize.toNat ≤ s.codePos.toNat) ∨
      (i = .desCode ∧ s.codeSize.toNat ≤ s.codePos.toNat) ∨
      (i = .serInit ∧ s.codeLen.toNat ≤ s.codeSize.toNat ∧ s.var = .dynamic ∧ 9 ≤ s.width.toNat ∧
        s.width.toNat ≤ s.maxBits.toNat ∧ s.outSize.toNat < 1) ∨
      (i = .serCode ∧ s.outSize.toNat < s.outPos.toNat + s.serB.toNat) ∨
      (i = .decFirst ∧ ∃ entry, (elementCode s s.codePos.toNat).toNat ≤ 255 ∧
        ddGet s (elementCode s s.codePos.toNat).toNat = some entry ∧
        s.outSize.toNat < s.outPos.toNat + entry.length) ∨
      (i = .decNext ∧ ∃ entry, ddGet s (elementCode s s.codePos.toNat).toNat = some entry ∧
        s.outSize.toNat < s.outPos.toNat + entry.length) ∨
      (i = .decNext ∧ (elementCode s s.codePos.toNat).toNat = s.nextCode.toNat ∧
        s.outSize.toNat < s.outPos.toNat + (s.prev.length + 1)) := by
  constructor
  · intro h
    cases h with
    | decFirstFull hk hfull => simpa using ⟨hk, _, (hdict (.inl rfl)).ddGet_eq_firstEntry hk, hfull⟩
    | decNextFull hentry hfull => simpa using nextEntry_outFull_iff.1 ⟨_, hentry, hfull⟩
    | _ => simp [*]
  · rintro (⟨rfl | rfl, hlen⟩ | ⟨rfl | rfl, hlen⟩ | ⟨rfl, habs, hcur, hfull⟩ | ⟨rfl, hne, hcur, hfull⟩ |
      ⟨rfl, hfull⟩ | ⟨rfl, hfits, hvar, hge, hle, hfull⟩ | ⟨rfl, hfull⟩ | ⟨rfl, entry, hk, hbound, hfull⟩ |
      ⟨rfl, hbound⟩ | ⟨rfl, hkwkwk⟩)
    · exact .encInitLength hlen
    · exact .desInitLength hlen
    · exact .serInitLength hlen
    · exact .decInitLength hlen
    · exact .encSymbolFull habs hcur hfull
    · exact .encEndFull hne hcur hfull
    · exact .desCodeFull hfull
    · exact .serHeaderFull hfits hvar hge hle hfull
    · exact .serCodeFull hfull
    · exact .decFirstFull hk (by rwa [firstEntry_of_bound hbound])
    · obtain ⟨entry, hentry, hfull⟩ := nextEntry_outFull_iff.2 (.inl hbound)
      exact .decNextFull hentry hfull
    · obtain ⟨entry, hentry, hfull⟩ := nextEntry_outFull_iff.2 (.inr hkwkwk)
      exact .decNextFull hentry hfull

/-- Settles O30: ERR is an error's code exactly where the table raises the error, and the table is R261's, error by
error. -/
theorem errorsAreRaisedWhereTheTableSays : Obligations.ErrorsAreRaisedWhereTheTableSays := by
  intro i s t herr hspoiled hexec hdict
  have hcode (e : ErrorKind) : t.err = errorCode e ↔ Raises s i e := exec_err_eq_errorCode_iff herr hspoiled hexec
  exact ⟨(hcode .illegalCommand).trans raises_illegalCommand_iff,
    (hcode .configurationError).trans raises_configurationError_iff,
    (hcode .invariantViolation).trans raises_invariantViolation_iff,
    (hcode .invalidCode).trans (raises_invalidCode_iff hdict),
    (hcode .bufferOverflow).trans (raises_bufferOverflow_iff hdict)⟩

/-! ### The error codes (R260) -/

theorem hostReadReg_err (off : Nat) (s : State) : (hostReadReg off s).err = s.err := by
  unfold hostReadReg
  split <;> rfl

theorem hostWriteReg_err (off : Nat) (v : Word) (s : State) :
    (hostWriteReg off v s).err = s.err ∨ (hostWriteReg off v s).err = 0 := by
  unfold hostWriteReg
  split_ifs <;> simp

theorem hostReadBuf_err (b : BufferName) (i : Nat) (s : State) : (hostReadBuf b i s).err = s.err := by
  unfold hostReadBuf
  split
  · rfl
  · split <;> rfl
  · split <;> rfl

theorem hostWriteBuf_err (b : BufferName) (i : Nat) (v : Word) (s : State) : (hostWriteBuf b i v s).err = s.err := by
  cases b <;> rfl

/-- The host raises no error: an access keeps ERR, or it is an accepted CMD write or RESET, which clear it. -/
theorem hostAccess_err {op : HostOp} (h : hostAccess op s = .next t) : t.err = s.err ∨ t.err = 0 := by
  rcases hostAccess_cases h with ⟨_, off, _, _, rfl⟩ | ⟨_, off, v, _, _, rfl⟩ | ⟨b, i, _, _, rfl⟩ |
    ⟨b, i, v, _, _, rfl⟩ | ⟨_, rfl⟩ | ⟨_, rfl⟩
  · exact .inl (hostReadReg_err off s)
  · exact hostWriteReg_err off v s
  · exact .inl (hostReadBuf_err b i s)
  · exact .inl (hostWriteBuf_err b i v s)
  · exact .inl (hostReadReg_err Offset.status s)
  · exact .inr rfl

theorem hostTurn_err (h : hostTurn s = .next t) : t.err = s.err ∨ t.err = 0 := by
  rcases hostTurn_cases h with ⟨_, rfl⟩ | ⟨op, rest, _, haccess⟩
  · exact .inl rfl
  · exact hostAccess_err (s := { s with program := programAfter op rest s }) haccess

/-- A step of a run without a forbidden write keeps ERR, clears it, or sets it to the code of an error. -/
theorem step_err (hspoiled : s.spoiled = false) (h : step s = .next t) :
    t.err = s.err ∨ t.err = 0 ∨ ∃ e, t.err = errorCode e := by
  rcases step_cases h with ⟨_, hhost⟩ | ⟨_, _, rfl⟩ | ⟨i, _, _, hexec⟩
  · exact (hostTurn_err hhost).imp_right .inl
  · exact .inl rfl
  · exact (exec_errFollowsTable (s := tick s) hspoiled hexec).imp_right fun ⟨e, _, hcode⟩ => .inr ⟨e, hcode⟩

/-- Settles O28: the codes are `errorCode`'s values, and each of the three things a step can do to ERR leaves it
at 5 or below. -/
theorem errorCodesAreOneToFive : Obligations.ErrorCodesAreOneToFive := by
  refine ⟨rfl, rfl, rfl, rfl, rfl, rfl, fun s t hspoiled hle hstep => ?_⟩
  rcases step_err hspoiled hstep with hkept | hcleared | ⟨e, hcode⟩
  · rwa [hkept]
  · simp [hcleared]
  · rw [hcode]
    exact errorCode_le_five e

end Sys2Proof.Machine
end

section
/-! Reset (70_reset_and_hazards.md R290, R291): the table of R290 field by field, met by the state after reset and by
the event RESET, and what the host reads of it. -/

namespace Sys2Proof.Machine

variable {s t : State}

/-- The rows of R290's table that state a value, as fields of the state; the registers the host reads are composed of
them. -/
structure MeetsResetTable (s : State) : Prop where
  busy : s.busy = false
  drop : s.drop = false
  err : s.err = 0
  maxBits : s.maxBits = 12
  var : s.var = .dynamic
  inLen : s.inLen = 0
  outLen : s.outLen = 0
  codeLen : s.codeLen = 0
  width : s.width = 0
  phase : s.phase = Phase.idle

theorem meetsResetTable_reset : MeetsResetTable State.reset := by
  constructor <;> rfl

theorem meetsResetTable_resetEvent (s : State) : MeetsResetTable (resetEvent s) := by
  constructor <;> simp

theorem hostAccess_reset (s : State) : hostAccess .reset s = .next (resetEvent s) := rfl

theorem hostAccess_reset_eq_next_iff : hostAccess .reset s = .next t ↔ t = resetEvent s := by
  rw [hostAccess_reset, Host.Outcome.next.injEq, eq_comm]

/-! ### What the host reads (R21, R25) and what the engine runs (R101) -/

theorem MeetsResetTable.statusWord_eq (h : MeetsResetTable s) : statusWord s = 0x00000000 := by
  rw [statusWord, h.err, h.drop, h.busy]
  decide

theorem MeetsResetTable.cfgWord_eq (h : MeetsResetTable s) : cfgWord s = 0x00010C00 := by
  rw [cfgWord, h.var, h.maxBits]
  decide

theorem MeetsResetTable.registerValue_width_eq (h : MeetsResetTable s) : registerValue Offset.width s = 0 := by
  rw [registerValue_width, h.width]
  decide

/-- R101: while BUSY = 0 the engine has no step. -/
theorem fetch_of_not_busy (h : s.busy = false) : fetch s = .ok none := by
  simp [fetch, h]

/-- Settles O32: `State.reset` and RESET's next state both meet R290's table, the register values follow from the
table's fields, and RESET is `resetEvent`, which keeps HAZARD. -/
theorem resetLeavesTheStatedValues : Obligations.ResetLeavesTheStatedValues := by
  refine ⟨fun s hs => ?_, rfl, fun u => ⟨resetEvent u, hostAccess_reset u, resetEvent_hazard u⟩⟩
  have htable : MeetsResetTable s := by
    rcases hs with rfl | ⟨u, hreset⟩
    · exact meetsResetTable_reset
    · rw [hostAccess_reset_eq_next_iff.1 hreset]
      exact meetsResetTable_resetEvent u
  exact ⟨htable.statusWord_eq, htable.cfgWord_eq, htable.inLen, htable.outLen, htable.codeLen,
    htable.registerValue_width_eq, fun _ hoff => registerValue_of_reserved s hoff, htable.busy, htable.drop, htable.err,
    htable.maxBits, htable.var, htable.phase, fetch_of_not_busy htable.busy⟩

end Sys2Proof.Machine
end

section
/-! The encoder and the decoder are inverse (30_encoding.md R90–R93, R101), and the fields of STATUS and CFG
(10_state.md R23–R25). -/

namespace Sys2Proof.Machine

/-! ### Decoding after encoding -/

/-- CONFIGURE's word is of its row of R91: RSV is 0 and OPC is 1. -/
theorem configureWord_row (v : Variant) {m : Nat} (hm : m < 256) : configureWord v m &&& 0xFFFE00FF = 1 := by
  have hnum := configureWord_toNat v hm
  refine configureRow_iff.2 ⟨BitVec.eq_of_toNat_eq ?_, BitVec.eq_of_toNat_eq ?_⟩
  · rw [fieldRsv_toNat, hnum]
    split
    all_goals simp; omega
  · rw [fieldOpc_toNat, hnum]
    split <;> simp
    omega

/-- The operands come back from CONFIGURE's word: MAXB from bits [15:8], VARB from bit 16. -/
theorem decodeCommand_configureWord (v : Variant) {m : Nat} (hm : m < 256) :
    decodeCommand (configureWord v m) = .ok (.configure v m) := by
  have hnum := configureWord_toNat v hm
  have hmaxb : (configureWord v m).toNat / 256 % 256 = m := by
    rw [hnum]
    split <;> omega
  have hvarb : variantOfBit (fieldVarb (configureWord v m)) = v := by
    have hbit : fieldVarb (configureWord v m) = bitOfVariant v := by
      apply BitVec.eq_of_toNat_eq
      rw [fieldVarb_toNat, hnum]
      cases v <;> simp [bitOfVariant] <;> omega
    rw [hbit, variantOfBit_bitOfVariant]
  rw [decodeCommand_of_configureRow (configureWord_row v hm), ← variantOfBit_fieldVarb, hmaxb, hvarb]

/-- Settles O1: CONFIGURE's word gives its operands back, and every other encoding is one fixed word or byte. -/
theorem decodingUndoesEncoding : Obligations.DecodingUndoesEncoding := by
  intro i hwf
  cases i with
  | configure v m => exact decodeCommand_configureWord v (of_decide_eq_true hwf)
  | _ => rfl

/-! ### Encoding after decoding -/

/-- A word of CONFIGURE's row is the word of the operands it holds. -/
theorem configureWord_of_row {w : Word} (h : w &&& 0xFFFE00FF = 1) :
    configureWord (variantOfBit (fieldVarb w)) (w.toNat / 256 % 256) = w := by
  obtain ⟨hrsv, hopc⟩ := configureRow_iff.1 h
  rw [← BitVec.toNat_inj, fieldRsv_toNat] at hrsv
  rw [← BitVec.toNat_inj, fieldOpc_toNat] at hopc
  have hvarb : (if variantOfBit (fieldVarb w) = .dynamic then 65536 else 0) = w.toNat / 65536 % 2 * 65536 := by
    rw [← fieldVarb_toNat, variantOfBit]
    rcases BitVec.eq_zero_or_eq_one (fieldVarb w) with hbit | hbit <;> simp [hbit]
  apply word_eq_of_toNat
  rw [configureWord_toNat _ (Nat.mod_lt _ (by decide)), hvarb]
  simp at hrsv hopc
  omega

theorem encode_of_decodeCommand {w : Word} {i : Instr} (h : decodeCommand w = .ok i) :
    i.wellFormed = true ∧ encode i = .command w := by
  rcases (commandWordsMatchTheirRows w i).1 h with
    ⟨hw, rfl⟩ | ⟨hw, rfl⟩ | ⟨hw, rfl⟩ | ⟨hw, rfl⟩ | ⟨hw, rfl⟩ | ⟨hw, rfl⟩ | ⟨hw, rfl⟩ | ⟨hw, rfl⟩
  case inr.inl =>
    rw [← variantOfBit_fieldVarb]
    exact ⟨decide_eq_true (Nat.mod_lt _ (by decide)), congrArg Encoding.command (configureWord_of_row hw)⟩
  all_goals exact ⟨rfl, congrArg Encoding.command ((and_fullMask w).symm.trans hw).symm⟩

theorem encode_of_decodeSelection {b : Byte} {i : Instr} (h : decodeSelection b = .ok i) :
    i.wellFormed = true ∧ encode i = .selection b := by
  unfold decodeSelection at h
  split at h
  case h_15 => cases h
  all_goals
    rename_i hbyte
    cases h
    exact ⟨rfl, congrArg Encoding.selection (BitVec.eq_of_toNat_eq hbyte.symm)⟩

/-- Settles O2: a decoded word is of a row of R91, whose instruction encodes to it; a decoded byte is one of the
fourteen bytes of R101's table. -/
theorem encodingUndoesDecoding : Obligations.EncodingUndoesDecoding := by
  intro e i h
  cases e with
  | command w => exact encode_of_decodeCommand h
  | selection b => exact encode_of_decodeSelection h

/-- Settles O5: eleven closed words and bytes, evaluated. -/
theorem sampleEncodingsDecode : Obligations.SampleEncodingsDecode := by
  unfold Obligations.SampleEncodingsDecode
  decide

/-! ### DISPATCH and the commands' own steps -/

/-- Settles O8: each command's arm of DISPATCH is the command. -/
theorem dispatchRunsTheDecodedCommand : Obligations.DispatchRunsTheDecodedCommand := fun _ _ hdec =>
  exec_dispatch_of_decoded hdec

/-- Settles O13: each of the six meanings is the update it states. -/
theorem commandsStartTheirFirstMicroOperation : Obligations.CommandsStartTheirFirstMicroOperation := fun _ =>
  ⟨rfl, rfl, rfl, rfl, rfl, rfl⟩

/-! ### The bits of STATUS and CFG -/

theorem statusWord_getLsbD (s : State) (i : Nat) :
    (statusWord s).getLsbD i =
      (if i = 0 then s.busy else if i = 1 then s.drop
       else if 8 ≤ i ∧ i ≤ 11 then s.err.getLsbD (i - 8) else false) := by
  simp only [statusWord, bitOfBool, BitVec.getLsbD_append, BitVec.getLsbD_ofBool]
  rcases i with _ | _ | i
  · simp
  · simp
  · by_cases h : 8 ≤ i + 2 ∧ i + 2 ≤ 11
    · have h1 : ¬ i < 6 := by omega
      have h2 : i - 6 < 4 := by omega
      simp [h, h1, h2]
    · by_cases h1 : i < 6
      · have h2 : ¬ 6 ≤ i := by omega
        simp [h1, h2]
      · have h2 : ¬ i - 6 < 4 := by omega
        have h3 : ¬ i + 1 < 11 := by omega
        simp [h1, h2, h3]

theorem cfgWord_getLsbD (s : State) (i : Nat) :
    (cfgWord s).getLsbD i =
      (if 8 ≤ i ∧ i ≤ 15 then s.maxBits.getLsbD (i - 8)
       else if i = 16 then decide (s.var = .dynamic) else false) := by
  have hvar : (bitOfVariant s.var)[0] = decide (s.var = .dynamic) := by
    cases s.var <;> decide
  simp only [cfgWord, BitVec.getLsbD_append]
  by_cases hlow : i < 8
  · have h1 : ¬ 8 ≤ i := by omega
    have h2 : i ≠ 16 := by omega
    simp [hlow, h1, h2]
  · by_cases hmaxb : i - 8 < 8
    · have h1 : 8 ≤ i ∧ i ≤ 15 := by omega
      simp [hlow, hmaxb, h1]
    · have h1 : ¬ (8 ≤ i ∧ i ≤ 15) := by omega
      by_cases hbit : i = 16
      · simp [hbit, hvar]
      · have h2 : ¬ i - 8 - 8 < 1 := by omega
        simp [hlow, hmaxb, h1, hbit, h2]

/-- Settles O34: each word is its fields side by side, and a bit is the bit of the field it falls in. -/
theorem statusAndCfgFieldsStandWhereStated : Obligations.StatusAndCfgFieldsStandWhereStated := fun s i =>
  ⟨statusWord_getLsbD s i, cfgWord_getLsbD s i⟩

end Sys2Proof.Machine
end

section
/-! One step of the machine (70_reset_and_hazards.md R298), the register writes and the buffer reads (20_memory.md R66,
R67). -/

namespace Sys2Proof.Machine

variable {s : State}

/-! ### The step by its mover -/

theorem step_of_host (hm : mover s = .host) : step s = hostTurn (tick s) := by
  simp [step, hm]

theorem step_of_unselected (hm : mover s = .engine) (hf : fetch (tick s) = .ok none) : step s = .next (tick s) := by
  simp [step, hm, hf]

theorem step_of_selected {i : Instr} (hm : mover s = .engine) (hf : fetch (tick s) = .ok (some i)) :
    step s = exec i (tick s) := by
  simp [step, hm, hf]

theorem hostTurn_of_empty (hp : s.program = []) : hostTurn s = .next s := by
  simp [hostTurn, hp]

/-- A POLL stays at the head of the program while it reads BUSY = 1 (30_encoding.md R103). -/
theorem hostTurn_poll_of_busy {rest : List HostOp} (hp : s.program = .poll :: rest) (hbusy : s.busy = true) :
    hostTurn s = .next { s with rdata := statusWord s } := by
  have hkeep : programAfter .poll rest s = s.program := by rw [programAfter_poll_busy hbusy, hp]
  have hturn : hostTurn s = hostAccess .poll s := by
    rw [hostTurn, hp]
    simp only [hkeep]
  rw [hturn, hostAccess_poll, hbusy, Bool.and_true]

theorem hostTurn_poll_of_idle {rest : List HostOp} (hp : s.program = .poll :: rest) (hidle : s.busy = false) :
    hostTurn s = .next { s with program := rest, rdata := statusWord s, unpolled := false } := by
  rw [hostTurn_access hp (.inr hidle), hostAccess_poll]
  show Host.Outcome.next { s with program := rest, rdata := statusWord s, unpolled := s.unpolled && s.busy } = _
  rw [hidle, Bool.and_false]

/-- Settles O7: one equation of `step` per mover and selection, and one of `hostTurn` per head of the program. -/
theorem stepRunsTheSelectedInstruction : Obligations.StepRunsTheSelectedInstruction := by
  refine fun s => ⟨fun i => step_of_selected, step_of_unselected, step_of_host, fun hm hp => ?_,
    fun op rest hm hp hop => ?_, fun rest hm hp => ⟨fun hbusy => ?_, fun hidle => ?_⟩, rfl⟩
  all_goals rw [step_of_host hm]
  · exact hostTurn_of_empty (s := tick s) hp
  · exact hostTurn_access (s := tick s) hp (.inl hop)
  · exact hostTurn_poll_of_busy (s := tick s) hp hbusy
  · exact hostTurn_poll_of_idle (s := tick s) hp hidle

/-! ### Register writes (R66) -/

theorem hostAccess_opWR {off : Nat} (v : Word) (halign : off % 4 = 0) (hoff : off < 0x40) :
    hostAccess (opWR off v) s = .next (hostWriteReg off v s) :=
  hostAccess_writeReg_of_shape v (registerShape_iff.2 ⟨rfl, halign, hoff⟩)

theorem hostWriteReg_of_ignored {off : Nat} (v : Word)
    (h : off = Offset.cfg ∨ off = Offset.outLen ∨ 0x1C ≤ off) : hostWriteReg off v s = s := by
  have hne (k : Nat) (hk : k < 0x1C) (h8 : k ≠ 0x08) (h10 : k ≠ 0x10) : off ≠ k := by
    rcases h with rfl | rfl | h
    · exact Ne.symm h8
    · exact Ne.symm h10
    · omega
  unfold hostWriteReg
  iterate 5 rw [if_neg (hne _ (by decide) (by decide) (by decide))]

theorem markHazard_of_idle (h : s.busy = false) : markHazard s = { s with hazard := s.hazard || s.unpolled } := by
  simp [markHazard, h]

theorem markHazard_of_busy (h : s.busy = true) : markHazard s = { s with hazard := true, spoiled := true } := by
  simp [markHazard, h]

/-- Settles O35: each offset has its equation of `hostWriteReg`, and `markHazard` says what they mark. -/
theorem registerWritesFollowTheMap : Obligations.RegisterWritesFollowTheMap := by
  intro s v
  have hstored (off : Nat) (h : off = Offset.inLen ∨ off = Offset.codeLen ∨ off = Offset.width) :
      hostAccess (opWR off v) s = .next (hostWriteReg off v s) := by
    rcases h with rfl | rfl | rfl <;> rfl
  have hin : hostWriteReg Offset.inLen v s = { markHazard s with inLen := v } := rfl
  have hcode : hostWriteReg Offset.codeLen v s = { markHazard s with codeLen := v } := rfl
  have hwidth : hostWriteReg Offset.width v s = { markHazard s with width := v.setWidth 8 } := rfl
  refine ⟨?_, fun off halign hoff hignored => ?_, fun hidle => ?_, fun hbusy => ?_⟩
  · have hdrop : dropAfterStatusWrite v s.drop = if v.getLsbD 1 then false else s.drop := by
      cases h : v.getLsbD 1 <;> simp only [dropAfterStatusWrite, h] <;> simp
    rw [← hdrop]
    rfl
  · rw [hostAccess_opWR v halign hoff, hostWriteReg_of_ignored v hignored]
  · rw [hstored _ (.inl rfl), hstored _ (.inr (.inl rfl)), hstored _ (.inr (.inr rfl)), hin, hcode, hwidth,
      markHazard_of_idle hidle]
    exact ⟨rfl, rfl, rfl⟩
  · rw [hstored _ (.inl rfl), hstored _ (.inr (.inl rfl)), hstored _ (.inr (.inr rfl)), hin, hcode, hwidth,
      markHazard_of_busy hbusy]
    exact ⟨rfl, rfl, rfl⟩

/-! ### Buffer reads (R67) -/

theorem hostAccess_readBuf_inside {b : BufferName} {i : Nat} (h : i < bufferSize b s) :
    hostAccess (.readBuf b i) s = .next (hostReadBuf b i s) := if_pos h

theorem hostAccess_readBuf_beyond {b : BufferName} {i : Nat} (h : bufferSize b s ≤ i) :
    hostAccess (.readBuf b i) s = .refused .bufferIndexBeyondSize := if_neg (Nat.not_lt.2 h)

theorem hostReadBuf_out_of_idle (i : Nat) (h : s.busy = false) :
    hostReadBuf .OUT i s = { s with rdata := (elementOut s i).setWidth 32 } := by
  simp [hostReadBuf, h]

theorem hostReadBuf_code_of_idle (i : Nat) (h : s.busy = false) :
    hostReadBuf .CODE i s = { s with rdata := (elementCode s i).setWidth 32 } := by
  simp [hostReadBuf, h]

/-- Whatever BUSY is, a buffer read changes the value read and the draw counter alone. -/
theorem hostReadBuf_spec (b : BufferName) (i : Nat) (s : State) :
    ∃ (v : Word) (d : Nat), hostReadBuf b i s = { s with rdata := v, draws := d } := by
  unfold hostReadBuf
  split
  · exact ⟨_, s.draws, rfl⟩
  all_goals
    split
    · exact ⟨_, _, rfl⟩
    · exact ⟨_, s.draws, rfl⟩

/-- Settles O36: inside the buffer IN reads the element, OUT and CODE the element while BUSY = 0; beyond the size the
access is refused. -/
theorem bufferReadsReturnTheElement : Obligations.BufferReadsReturnTheElement := by
  intro s i
  refine ⟨fun hi => hostAccess_readBuf_inside hi, fun hi => ?_, fun hi => ?_, fun hi => hostAccess_readBuf_beyond hi,
    fun hi => hostAccess_readBuf_beyond hi, fun hi => hostAccess_readBuf_beyond hi⟩
  · rw [hostAccess_readBuf_inside (b := .OUT) hi]
    by_cases hidle : s.busy = false
    · rw [hostReadBuf_out_of_idle i hidle]
      exact ⟨_, s.draws, rfl, fun _ => ⟨rfl, rfl⟩⟩
    · obtain ⟨v, d, hread⟩ := hostReadBuf_spec .OUT i s
      exact ⟨v, d, congrArg _ hread, fun h => absurd h hidle⟩
  · rw [hostAccess_readBuf_inside (b := .CODE) hi]
    by_cases hidle : s.busy = false
    · rw [hostReadBuf_code_of_idle i hidle]
      exact ⟨_, s.draws, rfl, fun _ => ⟨rfl, rfl⟩⟩
    · obtain ⟨v, d, hread⟩ := hostReadBuf_spec .CODE i s
      exact ⟨v, d, congrArg _ hread, fun h => absurd h hidle⟩

end Sys2Proof.Machine
end

section
/-! The trie of 41_dictionary.md R122–R126 as a view of ED, on a dictionary ENCODE holds. -/

namespace Sys2Proof.Machine

variable {ed : EncodeDict} {next : Nat}

theorem edSequence_of_mem {q : Sequence} {k : Nat} (hnodup : (ed.map Prod.snd).Nodup) (h : (q, k) ∈ ed) :
    edSequence ed k = some q := by
  induction ed with
  | nil => cases h
  | cons p rest ih =>
    obtain ⟨r, j⟩ := p
    rw [List.map_cons, List.nodup_cons] at hnodup
    rcases List.mem_cons.1 h with heq | hrest
    · cases heq
      simp [edSequence]
    · have hmem : k ∈ rest.map Prod.snd := List.mem_map_of_mem (f := Prod.snd) hrest
      have hne : j ≠ k := fun e => hnodup.1 (e ▸ hmem)
      rw [edSequence, if_neg hne]
      exact ih hnodup.2 hrest

/-- `seq(k)` of a bound Sequence's code is the Sequence (41_dictionary.md R124): no two Sequences share a code. -/
theorem EncodeDictInv.edSequence_of_edLookup (h : EncodeDictInv ed next) {q : Sequence} {k : Nat}
    (hk : edLookup ed q = some k) : edSequence ed k = some q :=
  edSequence_of_mem (h.codes ▸ List.nodup_range) (mem_of_edLookup hk)

/-- The edge `c` from the node of a bound Sequence leads to what the Sequence with `c` behind it is bound to. -/
theorem EncodeDictInv.edChild_code (h : EncodeDictInv ed next) {q : Sequence} {k : Nat} (hk : edLookup ed q = some k)
    (c : Byte) : edChild ed (.code k) c = edLookup ed (q ++ [c]) := by
  simp [edChild, h.edSequence_of_edLookup hk]

/-- Settles O42: the edge from ROOT is the lookup of one Symbol, the edge from a code that of its Sequence and one
Symbol more. -/
theorem codeRegisterRefinesCur : Obligations.CodeRegisterRefinesCur := by
  refine fun ed n h cur c => ⟨?_, fun k hk => (h.edChild_code hk c).symm⟩
  rintro rfl
  rfl

/-- Behind an unbound Sequence nothing is bound, since ED is closed under taking prefixes. -/
theorem EncodeDictInv.edLookup_append_of_unbound (h : EncodeDictInv ed next) {q : Sequence} (hq : q ≠ [])
    (habs : edLookup ed q = none) (rest : Sequence) : edLookup ed (q ++ rest) = none := by
  induction rest using List.reverseRecOn with
  | nil => rwa [List.append_nil]
  | append_singleton r c ih =>
    rw [← List.append_assoc, ← Option.not_isSome_iff_eq_none]
    intro hsome
    have := h.prefixClosed (q ++ r) c (by simp [hq]) hsome
    rw [ih] at this
    cases this

/-- The code of the node a walk ends at. -/
def nodeCode : Option Node → Option Nat
  | some (.code k) => some k
  | some .root => none
  | none => none

theorem trieLookup_eq (ed : EncodeDict) (q : Sequence) : trieLookup ed q = nodeCode (edWalk ed .root q) := by
  unfold trieLookup nodeCode
  split <;> simp_all

/-- From the node of a bound Sequence the walk answers what the map binds the whole Sequence to. -/
theorem EncodeDictInv.nodeCode_edWalk (h : EncodeDictInv ed next) {q : Sequence} {k : Nat}
    (hk : edLookup ed q = some k) (rest : Sequence) :
    nodeCode (edWalk ed (.code k) rest) = edLookup ed (q ++ rest) := by
  induction rest generalizing q k with
  | nil => rw [List.append_nil, hk]; rfl
  | cons c rest ih =>
    rw [edWalk, h.edChild_code hk, List.append_cons q c rest]
    cases hc : edLookup ed (q ++ [c]) with
    | none => rw [h.edLookup_append_of_unbound (by simp) hc]; rfl
    | some j => exact ih hc

/-- Settles O41: the first Symbol is always bound, and from its node on the walk follows the map. -/
theorem trieWalkAnswersTheMap : Obligations.TrieWalkAnswersTheMap := by
  intro ed n h q
  rw [trieLookup_eq]
  cases q with
  | nil => rfl
  | cons c rest =>
    have hroot : edChild ed .root c = some c.toNat := h.symbols c
    rw [edWalk, hroot]
    exact h.nodeCode_edWalk (h.symbols c) rest

end Sys2Proof.Machine
end

section
/-! What an instruction can do, said once for all of them: `Effect` lists the next states, and the statements about
every instruction follow by cases on it. -/

namespace Sys2Proof.Machine

variable {s t : State} {i : Instr} {e : ErrorKind}

/-- What a command's own step leaves where it raises no error (46_host_commands.md R231–R239). -/
inductive CommandEffect (s : State) : Instr → State → Prop where
  | nop : CommandEffect s .nop (complete s)
  | configure {v : Variant} {m : Nat} (hge : 9 ≤ m) (hle : m ≤ 16) :
      CommandEffect s (.configure v m) (complete { s with maxBits := BitVec.ofNat 8 m, var := v })
  | encode : CommandEffect s .encode { s with phase := Phase.encInit }
  | serialize : CommandEffect s .serialize { s with phase := Phase.serInit }
  | deserialize : CommandEffect s .deserialize { s with phase := Phase.desInit }
  | decode : CommandEffect s .decode { s with phase := Phase.decInit }
  | compress : CommandEffect s .compress { s with chain := true, phase := Phase.encInit }
  | decompress : CommandEffect s .decompress { s with chain := true, phase := Phase.desInit }

/-- What an instruction leaves: the abort with an error of R261's table, the effect of a command, of its own or
dispatched, or that of a micro-operation past its checks. -/
inductive Effect (s : State) : Instr → State → Prop where
  | aborts {i : Instr} {e : ErrorKind} (half : FailingHalf) (hraises : Raises s i e) : Effect s i (abort half e s)
  | command {i : Instr} {t : State} (heffect : CommandEffect s i t) : Effect s i t
  | dispatched {i : Instr} {t : State} (hdec : decodeCommand s.opc = .ok i) (heffect : CommandEffect s i t) :
      Effect s .dispatch t
  | encInit (hfits : s.inLen.toNat ≤ s.inSize.toNat) : Effect s .encInit (encStart s)
  | encFound (hfound : (edLookup s.ed (s.cur ++ [elementIn s s.inPos.toNat])).isSome) :
      Effect s .encSymbol (encExtend (s.cur ++ [elementIn s s.inPos.toNat]) s)
  | encEmitted {k : Nat} (habs : edLookup s.ed (s.cur ++ [elementIn s s.inPos.toNat]) = none)
      (hcur : edLookup s.ed s.cur = some k) (hroom : s.codePos.toNat < s.codeSize.toNat) :
      Effect s .encSymbol (encRestart (s.cur ++ [elementIn s s.inPos.toNat]) (elementIn s s.inPos.toNat)
        (pushCode (BitVec.ofNat 16 k) s))
  | encEndEmpty (hempty : s.cur = []) : Effect s .encEnd (encFinish s)
  | encEndEmitted {k : Nat} (hne : s.cur ≠ []) (hcur : edLookup s.ed s.cur = some k)
      (hroom : s.codePos.toNat < s.codeSize.toNat) : Effect s .encEnd (encFinish (pushCode (BitVec.ofNat 16 k) s))
  | serInitStatic (hfits : s.codeLen.toNat ≤ s.codeSize.toNat) (hvar : s.var = .static) :
      Effect s .serInit (serStartStatic s)
  | serInitDynamic (hfits : s.codeLen.toNat ≤ s.codeSize.toNat) (hvar : s.var = .dynamic)
      (hwidth : widthLegal s.width s = true) (hroom : 1 ≤ s.outSize.toNat) : Effect s .serInit (serStartDynamic s)
  | serCode (hroom : s.outPos.toNat + s.serB.toNat ≤ s.outSize.toNat) :
      Effect s .serCode (serAdvance (pushOut (bigEndian s.serB.toNat (elementCode s s.codePos.toNat).toNat) s))
  | serEnd : Effect s .serEnd (complete { s with outLen := s.outPos })
  | desInitStatic (hfits : s.inLen.toNat ≤ s.inSize.toNat) (hvar : s.var = .static)
      (heven : s.inLen.toNat % 2 = 0) : Effect s .desInit (desStartStatic s)
  | desInitDynamic (hfits : s.inLen.toNat ≤ s.inSize.toNat) (hvar : s.var = .dynamic) (hne : s.inLen ≠ 0)
      (hheader : widthLegal (elementIn s 0) s = true)
      (hframe : (s.inLen.toNat - 1) % bytesPerCode (elementIn s 0).toNat = 0) :
      Effect s .desInit (desStartDynamic (elementIn s 0) s)
  | desCode (hroom : s.codePos.toNat < s.codeSize.toNat) :
      Effect s .desCode (desStore (elementsIn s s.inPos.toNat s.serB.toNat) s)
  | desEnd : Effect s .desEnd (desFinish s)
  | decInit (hfits : s.codeLen.toNat ≤ s.codeSize.toNat) : Effect s .decInit (decStart s)
  | decFirst (hk : (elementCode s s.codePos.toNat).toNat ≤ 255)
      (hroom : s.outPos.toNat + (firstEntry (elementCode s s.codePos.toNat).toNat s).length ≤ s.outSize.toNat) :
      Effect s .decFirst (decAdvance (firstEntry (elementCode s s.codePos.toNat).toNat s)
        (pushOut (firstEntry (elementCode s s.codePos.toNat).toNat s) s))
  | decNext {entry : Sequence} (hentry : NextEntry s (elementCode s s.codePos.toNat).toNat entry)
      (hroom : s.outPos.toNat + entry.length ≤ s.outSize.toNat) :
      Effect s .decNext (decAdvance entry (decBind (firstSymbol entry) (pushOut entry s)))
  | decEnd : Effect s .decEnd (complete { s with outLen := s.outPos })

theorem configure_effect {v : Variant} {m : Nat} (h : exec (.configure v m) s = .next t) :
    ((m < 9 ∨ 16 < m) ∧ t = abort .dispatch .configurationError s) ∨ CommandEffect s (.configure v m) t := by
  rcases execConfigure_cases h with hbad | ⟨hge, hle, rfl⟩
  · exact .inl hbad
  · exact .inr (.configure hge hle)

theorem dispatch_effect (h : exec .dispatch s = .next t) : Effect s .dispatch t := by
  by_cases hword : IllegalWord s.opc
  · rw [exec_dispatch_of_illegalWord hword] at h
    cases h
    exact .aborts _ (.illegalWord hword)
  · obtain ⟨i, hdec⟩ := exists_decodeCommand_of_legalWord hword
    rw [exec_dispatch_of_decoded hdec] at h
    rcases (commandWordsMatchTheirRows s.opc i).1 hdec with
      ⟨_, rfl⟩ | ⟨_, rfl⟩ | ⟨_, rfl⟩ | ⟨_, rfl⟩ | ⟨_, rfl⟩ | ⟨_, rfl⟩ | ⟨_, rfl⟩ | ⟨_, rfl⟩
    case inr.inl =>
      rcases configure_effect h with ⟨hm, rfl⟩ | heffect
      · exact .aborts _ (.dispatchConfigure hdec hm)
      · exact .dispatched hdec heffect
    all_goals
      cases h
      exact .dispatched hdec (by constructor)

/-- An instruction does nothing but what `Effect` lists. -/
theorem exec_effect (h : exec i s = .next t) : Effect s i t := by
  cases i with
  | nop | encode | serialize | deserialize | decode | compress | decompress =>
    cases h
    exact .command (by constructor)
  | configure v m =>
    rcases configure_effect h with ⟨hm, rfl⟩ | heffect
    · exact .aborts _ (.configure hm)
    · exact .command heffect
  | dispatch => exact dispatch_effect h
  | encInit =>
    rcases execEncInit_cases h with ⟨hlen, rfl⟩ | ⟨hfits, rfl⟩
    · exact .aborts _ (.encInitLength hlen)
    · exact .encInit hfits
  | encSymbol =>
    rcases encSymbolWith_cases h with ⟨hfound, rfl⟩ | ⟨habs, hcur, rfl⟩ | ⟨k, habs, hcur, hfull, rfl⟩ |
      ⟨k, habs, hcur, hroom, rfl⟩
    · exact .encFound hfound
    · exact .aborts _ (.encSymbolUnbound habs hcur)
    · exact .aborts _ (.encSymbolFull habs (by simp [hcur]) hfull)
    · exact .encEmitted habs hcur hroom
  | encEnd =>
    rcases execEncEnd_cases h with ⟨hempty, rfl⟩ | ⟨hne, hcur, rfl⟩ | ⟨k, hne, hcur, hfull, rfl⟩ |
      ⟨k, hne, hcur, hroom, rfl⟩
    · exact .encEndEmpty hempty
    · exact .aborts _ (.encEndUnbound hne hcur)
    · exact .aborts _ (.encEndFull hne (by simp [hcur]) hfull)
    · exact .encEndEmitted hne hcur hroom
  | serInit =>
    rcases execSerInit_cases h with ⟨hlen, rfl⟩ | ⟨hfits, hvar, rfl⟩ | ⟨hfits, hvar, hwidth, rfl⟩ |
      ⟨hfits, hvar, hwidth, hfull, rfl⟩ | ⟨hfits, hvar, hwidth, hroom, rfl⟩
    · exact .aborts _ (.serInitLength hlen)
    · exact .serInitStatic hfits hvar
    · exact .aborts _ (.serWidth hfits hvar (widthLegal_false_iff.1 hwidth))
    · obtain ⟨hge, hle⟩ := widthLegal_iff.1 hwidth
      exact .aborts _ (.serHeaderFull hfits hvar hge hle hfull)
    · exact .serInitDynamic hfits hvar hwidth hroom
  | serCode =>
    rcases execSerCode_cases h with ⟨hfull, rfl⟩ | ⟨hroom, rfl⟩
    · exact .aborts _ (.serCodeFull hfull)
    · exact .serCode hroom
  | serEnd =>
    cases h
    exact .serEnd
  | desInit =>
    rcases execDesInit_cases h with ⟨hlen, rfl⟩ | ⟨hfits, hvar, heven, rfl⟩ | ⟨hfits, hvar, hodd, rfl⟩ |
      ⟨hfits, hvar, hne, hheader, hframe, rfl⟩ | ⟨hfits, hvar, hbad, rfl⟩
    · exact .aborts _ (.desInitLength hlen)
    · exact .desInitStatic hfits hvar heven
    · exact .aborts _ (.desFrameStatic hfits hvar (by omega))
    · exact .desInitDynamic hfits hvar hne hheader hframe
    · rw [widthLegal_false_iff, or_assoc] at hbad
      exact .aborts _ (.desFrameDynamic hfits hvar (hbad.imp_left (congrArg BitVec.toNat)))
  | desCode =>
    rcases execDesCode_cases h with ⟨hfull, rfl⟩ | ⟨hroom, rfl⟩
    · exact .aborts _ (.desCodeFull hfull)
    · exact .desCode hroom
  | desEnd =>
    cases h
    exact .desEnd
  | decInit =>
    rcases execDecInit_cases h with ⟨hlen, rfl⟩ | ⟨hfits, rfl⟩
    · exact .aborts _ (.decInitLength hlen)
    · exact .decInit hfits
  | decFirst =>
    rcases decFirstWith_cases h with ⟨hk, rfl⟩ | ⟨hk, hfull, rfl⟩ | ⟨hk, hroom, rfl⟩
    · exact .aborts _ (.decFirstInvalid hk)
    · exact .aborts _ (.decFirstFull hk hfull)
    · exact .decFirst hk hroom
  | decNext =>
    rcases decNextWith_cases h with ⟨habs, hk, rfl⟩ | ⟨entry, hentry, hfull, rfl⟩ | ⟨entry, hentry, hroom, rfl⟩
    · exact .aborts _ (.decNextInvalid habs hk)
    · exact .aborts _ (.decNextFull hentry hfull)
    · exact .decNext hentry hroom
  | decEnd =>
    cases h
    exact .decEnd

/-! ### The registers of the two halves' last micro-operations -/

/-- Whether it completes or goes on, ENC_END past its emission writes CODE_LEN and WIDTH and ends the phase. -/
theorem encFinish_spec (hspoiled : s.spoiled = false) :
    ∃ (c : Bool) (p : BitVec 4) (b : Bool),
      encFinish s =
        { s with codeLen := s.codePos, width := s.curBits.setWidth 8, chain := c, phase := p, busy := b } := by
  cases hchain : s.chain
  · exact ⟨_, _, _, encFinish_of_unchained hspoiled hchain⟩
  · exact ⟨_, _, _, encFinish_of_chained hchain⟩

theorem desFinish_spec (hspoiled : s.spoiled = false) :
    ∃ (c : Bool) (p : BitVec 4) (b : Bool),
      desFinish s = { s with codeLen := s.codePos, width := s.desH, chain := c, phase := p, busy := b } := by
  cases hchain : s.chain
  · exact ⟨_, _, _, desFinish_of_unchained hspoiled hchain⟩
  · exact ⟨_, _, _, desFinish_of_chained hchain⟩

/-! ### The host's data (10_state.md R26, 20_memory.md R60) -/

/-- The registers, buffers and marks that no instruction changes. -/
def hostView (s : State) :=
  (s.inBuf, s.inLen, s.drop, s.hazard, s.unpolled, s.inSize, s.outSize, s.codeSize, s.rdata, s.program, s.schedule)

theorem hostView_encFinish (s : State) : hostView (encFinish s) = hostView s := by
  unfold encFinish
  split <;> rfl

theorem hostView_desFinish (s : State) : hostView (desFinish s) = hostView s := by
  unfold desFinish
  split <;> rfl

theorem hostView_encRestart (q : Sequence) (c : Byte) (s : State) : hostView (encRestart q c s) = hostView s := by
  obtain ⟨ed, n, cb, mc, heq⟩ := encRestart_spec q c s
  rw [heq]
  rfl

theorem hostView_decBind (first : Byte) (s : State) : hostView (decBind first s) = hostView s := by
  obtain ⟨dd, n, cb, mc, heq⟩ := decBind_spec first s
  rw [heq]
  rfl

theorem CommandEffect.hostView_eq (h : CommandEffect s i t) : hostView t = hostView s := by
  cases h <;> rfl

theorem Effect.hostView_eq (h : Effect s i t) : hostView t = hostView s := by
  cases h with
  | command heffect | dispatched _ heffect => exact heffect.hostView_eq
  | encEmitted => exact hostView_encRestart _ _ (pushCode _ s)
  | encEndEmpty => exact hostView_encFinish s
  | encEndEmitted => exact hostView_encFinish (pushCode _ s)
  | desEnd => exact hostView_desFinish s
  | decNext => exact hostView_decBind _ (pushOut _ s)
  | _ => rfl

/-- Settles O46: each next state of `Effect` has the host's data of the state before. -/
theorem engineLeavesTheHostsDataAlone : Obligations.EngineLeavesTheHostsDataAlone := by
  intro i s t h
  simpa [hostView] using (exec_effect h).hostView_eq

/-! ### CFG (10_state.md R25) -/

/-- CFG stays, or the instruction is a legal CONFIGURE. -/
def CfgKeptOrConfigured (s : State) (i : Instr) (t : State) : Prop :=
  cfgWord t = cfgWord s ∨
    ∃ v m, (i = .configure v m ∨ (i = .dispatch ∧ decodeCommand s.opc = .ok (.configure v m))) ∧ 9 ≤ m ∧ m ≤ 16

theorem cfgWord_complete (hspoiled : s.spoiled = false) : cfgWord (complete s) = cfgWord s := by
  rw [complete_unspoiled hspoiled]
  rfl

theorem cfgWord_encFinish (hspoiled : s.spoiled = false) : cfgWord (encFinish s) = cfgWord s := by
  obtain ⟨c, p, b, heq⟩ := encFinish_spec hspoiled
  rw [heq]
  rfl

theorem cfgWord_desFinish (hspoiled : s.spoiled = false) : cfgWord (desFinish s) = cfgWord s := by
  obtain ⟨c, p, b, heq⟩ := desFinish_spec hspoiled
  rw [heq]
  rfl

theorem cfgWord_encRestart (q : Sequence) (c : Byte) (s : State) : cfgWord (encRestart q c s) = cfgWord s := by
  obtain ⟨ed, n, cb, mc, heq⟩ := encRestart_spec q c s
  rw [heq]
  rfl

theorem cfgWord_decBind (first : Byte) (s : State) : cfgWord (decBind first s) = cfgWord s := by
  obtain ⟨dd, n, cb, mc, heq⟩ := decBind_spec first s
  rw [heq]
  rfl

theorem CommandEffect.cfg (hspoiled : s.spoiled = false) (h : CommandEffect s i t) :
    cfgWord t = cfgWord s ∨ ∃ v m, i = .configure v m ∧ 9 ≤ m ∧ m ≤ 16 := by
  cases h with
  | configure hge hle => exact .inr ⟨_, _, rfl, hge, hle⟩
  | nop => exact .inl (cfgWord_complete hspoiled)
  | _ => exact .inl rfl

theorem Effect.cfg (hspoiled : s.spoiled = false) (h : Effect s i t) : CfgKeptOrConfigured s i t := by
  cases h with
  | aborts half _ => exact .inl (aborted_abort hspoiled).cfgWord_eq
  | command heffect => exact (heffect.cfg hspoiled).imp_right fun ⟨v, m, heq, hm⟩ => ⟨v, m, .inl heq, hm⟩
  | dispatched hdec heffect =>
    refine (heffect.cfg hspoiled).imp_right ?_
    rintro ⟨v, m, rfl, hm⟩
    exact ⟨v, m, .inr ⟨rfl, hdec⟩, hm⟩
  | encEmitted => exact .inl (cfgWord_encRestart _ _ (pushCode _ s))
  | encEndEmpty => exact .inl (cfgWord_encFinish hspoiled)
  | encEndEmitted => exact .inl (cfgWord_encFinish (s := pushCode _ s) hspoiled)
  | desEnd => exact .inl (cfgWord_desFinish hspoiled)
  | decNext => exact .inl (cfgWord_decBind _ (pushOut _ s))
  | serEnd | decEnd => exact .inl (cfgWord_complete (s := { s with outLen := s.outPos }) hspoiled)
  | _ => exact .inl rfl

/-! ### The buffers (20_memory.md R60–R62, R69) -/

theorem memory_wf_encFinish (s : State) (h : Memory.wf s = true) : Memory.wf (encFinish s) = true := by
  unfold encFinish
  split
  · exact h
  · exact memory_wf_complete _ h

theorem memory_wf_desFinish (s : State) (h : Memory.wf s = true) : Memory.wf (desFinish s) = true := by
  unfold desFinish
  split
  · exact h
  · exact memory_wf_complete _ h

theorem memory_wf_encRestart (q : Sequence) (c : Byte) (s : State) (h : Memory.wf s = true) :
    Memory.wf (encRestart q c s) = true := by
  obtain ⟨ed, n, cb, mc, heq⟩ := encRestart_spec q c s
  rw [heq]
  exact h

theorem memory_wf_decBind (first : Byte) (s : State) (h : Memory.wf s = true) :
    Memory.wf (decBind first s) = true := by
  obtain ⟨dd, n, cb, mc, heq⟩ := decBind_spec first s
  rw [heq]
  exact h

theorem memory_wf_serStartDynamic (s : State) (h : Memory.wf s = true) (hroom : 1 ≤ s.outSize.toNat) :
    Memory.wf (serStartDynamic s) = true := by
  rw [memory_wf_iff] at h ⊢
  obtain ⟨hin, hout, hcode⟩ := h
  exact ⟨hin, cellsRise_cellSet _ s.width hout (Nat.le_refl 0) hroom, hcode⟩

theorem CommandEffect.memory_wf (h : CommandEffect s i t) (hwf : Memory.wf s = true) : Memory.wf t = true := by
  cases h with
  | nop => exact memory_wf_complete s hwf
  | configure => exact memory_wf_complete _ hwf
  | _ => exact hwf

/-- Every instruction keeps the canonical form, from any state: each write is checked against the size. -/
theorem Effect.memory_wf (h : Effect s i t) (hwf : Memory.wf s = true) : Memory.wf t = true := by
  cases h with
  | aborts half _ => exact memory_wf_abort half _ s hwf
  | command heffect | dispatched _ heffect => exact heffect.memory_wf hwf
  | encEmitted _ _ hroom => exact memory_wf_encRestart _ _ _ (memory_wf_pushCode s _ hwf hroom)
  | encEndEmpty => exact memory_wf_encFinish s hwf
  | encEndEmitted _ _ hroom => exact memory_wf_encFinish _ (memory_wf_pushCode s _ hwf hroom)
  | serInitDynamic _ _ _ hroom => exact memory_wf_serStartDynamic s hwf hroom
  | serCode hroom => exact memory_wf_pushOut s _ hwf (by rwa [bigEndian_length])
  | serEnd | decEnd => exact memory_wf_complete _ hwf
  | desCode hroom => exact memory_wf_pushCode s _ hwf hroom
  | desEnd => exact memory_wf_desFinish s hwf
  | decFirst _ hroom => exact memory_wf_pushOut s _ hwf hroom
  | decNext _ hroom => exact memory_wf_decBind _ _ (memory_wf_pushOut s _ hwf hroom)
  | _ => exact hwf

end Sys2Proof.Machine
end

section
/-! What a host access can do, and with it what a step can do; and the statements about every step that need no
invariant. -/

namespace Sys2Proof.Machine

variable {s t : State} {i : Instr} {op : HostOp}

/-- The host writes that 70_reset_and_hazards.md R293 forbids from a command's acceptance to the poll of its end. -/
def GuardedWrite (op : HostOp) : Prop :=
  (∃ i v, op = .writeBuf .IN i v) ∨ (∃ i v, op = .writeBuf .CODE i v) ∨
    ∃ off v, op = opWR off v ∧ (off = Offset.inLen ∨ off = Offset.codeLen ∨ off = Offset.width)

/-- What a host access that the block takes leaves (20_memory.md R65–R68). -/
inductive HostEffect (s : State) : HostOp → State → Prop where
  | read {op : HostOp} (v : Word) (d : Nat) (p : Bool) (hpoll : s.busy = true → p = s.unpolled) :
      HostEffect s op { s with rdata := v, draws := d, unpolled := p }
  | accept (w : Word) (hidle : s.busy = false) : HostEffect s (opWR Offset.cmd w) (accept w s)
  | setDrop {op : HostOp} (d : Bool) : HostEffect s op { s with drop := d }
  | write {op : HostOp} (inLen codeLen : Word) (width : Byte) (inBuf : Buffer 8) (codeBuf : Buffer 16)
      (hop : GuardedWrite op)
      (hwf : Memory.wf s = true →
        Memory.wf { markHazard s with
          inLen := inLen, codeLen := codeLen, width := width, inBuf := inBuf, codeBuf := codeBuf } = true) :
      HostEffect s op { markHazard s with
        inLen := inLen, codeLen := codeLen, width := width, inBuf := inBuf, codeBuf := codeBuf }
  | reset : HostEffect s .reset (resetEvent s)

theorem hostReadReg_effect (off : Nat) : HostEffect s op (hostReadReg off s) := by
  by_cases hdraw : s.busy = true ∧ drawnWhileBusy off = true
  · obtain ⟨hbusy, hdrawn⟩ := hdraw
    rw [hostReadReg_of_drawn hbusy hdrawn]
    exact .read _ _ s.unpolled fun _ => rfl
  · rw [hostReadReg_of_exact hdraw]
    exact .read _ s.draws _ fun hbusy => by rw [hbusy, Bool.true_or, Bool.and_true]

theorem hostWriteReg_effect {off : Nat} {v : Word} : HostEffect s (opWR off v) (hostWriteReg off v s) := by
  have hguarded (h : off = Offset.inLen ∨ off = Offset.codeLen ∨ off = Offset.width) :
      GuardedWrite (opWR off v) := .inr (.inr ⟨off, v, rfl, h⟩)
  unfold hostWriteReg
  split_ifs with hcmd hbusy hstatus hin hcode hwidth
  · exact .setDrop true
  · rw [hcmd]
    exact .accept v (Bool.eq_false_of_not_eq_true hbusy)
  · exact .setDrop _
  · exact .write v s.codeLen s.width s.inBuf s.codeBuf (hguarded (.inl hin)) id
  · exact .write s.inLen v s.width s.inBuf s.codeBuf (hguarded (.inr (.inl hcode))) id
  · exact .write s.inLen s.codeLen _ s.inBuf s.codeBuf (hguarded (.inr (.inr hwidth))) id
  · exact .setDrop s.drop

theorem hostWriteBuf_effect {b : BufferName} {j : Nat} {v : Word} (h : j < bufferSize b s) :
    HostEffect s (.writeBuf b j v) (hostWriteBuf b j v s) := by
  cases b with
  | OUT => exact .setDrop s.drop
  | IN =>
    exact .write s.inLen s.codeLen s.width (bufSet s.inBuf j _) s.codeBuf (.inl ⟨j, v, rfl⟩)
      fun hwf => memory_wf_hostWriteBuf .IN j v s hwf h
  | CODE =>
    exact .write s.inLen s.codeLen s.width s.inBuf (bufSet s.codeBuf j _) (.inr (.inl ⟨j, v, rfl⟩))
      fun hwf => memory_wf_hostWriteBuf .CODE j v s hwf h

theorem hostAccess_effect (h : hostAccess op s = .next t) : HostEffect s op t := by
  rcases hostAccess_cases h with ⟨_, off, rfl, _, rfl⟩ | ⟨bits, off, v, rfl, hshape, rfl⟩ | ⟨b, j, rfl, _, rfl⟩ |
    ⟨b, j, v, rfl, hj, rfl⟩ | ⟨rfl, rfl⟩ | ⟨rfl, rfl⟩
  · exact hostReadReg_effect off
  · obtain ⟨rfl, -, -⟩ := registerShape_iff.1 hshape
    exact hostWriteReg_effect
  · obtain ⟨v, d, heq⟩ := hostReadBuf_spec b j s
    rw [heq]
    exact .read v d s.unpolled fun _ => rfl
  · exact hostWriteBuf_effect hj
  · exact hostReadReg_effect Offset.status
  · exact .reset

/-- The state in which the host's access runs: the schedule and the program have moved on. -/
def hostReady (op : HostOp) (rest : List HostOp) (s : State) : State :=
  { tick s with program := programAfter op rest (tick s) }

/-- A step moves only the schedule, or is a host access, or a micro-operation. -/
theorem step_effect (h : step s = .next t) :
    t = tick s ∨
      (∃ op rest, mover s = .host ∧ s.program = op :: rest ∧ HostEffect (hostReady op rest s) op t) ∨
      ∃ i, mover s = .engine ∧ fetch (tick s) = .ok (some i) ∧ Effect (tick s) i t := by
  rcases step_cases h with ⟨hm, hturn⟩ | ⟨_, _, rfl⟩ | ⟨i, hm, hf, hexec⟩
  · rcases hostTurn_cases hturn with ⟨_, rfl⟩ | ⟨op, rest, hp, haccess⟩
    · exact .inl rfl
    · exact .inr (.inl ⟨op, rest, hm, hp, hostAccess_effect haccess⟩)
  · exact .inl rfl
  · exact .inr (.inr ⟨i, hm, hf, exec_effect hexec⟩)

/-- While BUSY = 0 no micro-operation runs (30_encoding.md R101). -/
theorem busy_of_fetch (h : fetch s = .ok (some i)) : s.busy = true := by
  by_contra hidle
  rw [fetch_of_not_busy (Bool.eq_false_of_not_eq_true hidle)] at h
  cases h

/-! ### ERR between commands (60_exceptions.md R265) -/

/-- Settles O31: with BUSY = 0 only the host can step, and of its accesses the acceptance and RESET write ERR. -/
theorem errIsKeptUntilTheNextCommand : Obligations.ErrIsKeptUntilTheNextCommand := by
  intro s t hidle hstep
  rcases step_effect hstep with rfl | ⟨op, rest, _, hp, heffect⟩ | ⟨i, _, hf, _⟩
  · exact .inl rfl
  · cases heffect with
    | accept w _ => exact .inr ⟨rfl, _, rest, hp, .inr ⟨w, rfl, rfl⟩⟩
    | reset => exact .inr ⟨rfl, _, rest, hp, .inl rfl⟩
    | _ => exact .inl rfl
  · exact absurd (busy_of_fetch hf) (by simp [hidle])

/-! ### HAZARD (10_state.md R42, 70_reset_and_hazards.md R293) -/

theorem HostEffect.hazard_mono (h : HostEffect s op t) (hs : s.hazard = true) : t.hazard = true := by
  cases h with
  | write => simp [hs]
  | _ => exact hs

/-- Of the host's accesses only a guarded write while a command runs or its end is not polled sets HAZARD. -/
theorem HostEffect.hazard_set (h : HostEffect s op t) (hs : s.hazard = false) (ht : t.hazard = true) :
    (s.busy = true ∨ s.unpolled = true) ∧ GuardedWrite op := by
  cases h with
  | write _ _ _ _ _ hop => exact ⟨by simpa [hs] using ht, hop⟩
  | _ => exact absurd (hs.symm.trans ht) (by decide)

theorem Effect.hazard_eq (h : Effect s i t) : t.hazard = s.hazard :=
  congrArg (·.2.2.2.1) h.hostView_eq

/-- The poll mark after a register read. -/
theorem hostReadReg_unpolled_iff (off : Nat) :
    (hostReadReg off s).unpolled = false ↔ s.unpolled = false ∨ (s.busy = false ∧ off = Offset.status) := by
  by_cases hdraw : s.busy = true ∧ drawnWhileBusy off = true
  · obtain ⟨hbusy, hdrawn⟩ := hdraw
    rw [hostReadReg_of_drawn hbusy hdrawn]
    simp [hbusy]
  · rw [hostReadReg_of_exact hdraw]
    cases s.unpolled <;> simp

/-- A guarded write while a command runs or its end is not polled sets HAZARD. -/
theorem markHazard_hazard_of_guarded (h : s.busy = true ∨ s.unpolled = true) : (markHazard s).hazard = true := by
  rcases h with h | h <;> simp [h]

/-- Settles O39: no step clears HAZARD, only a guarded write sets it, and every guarded write in the window does; the
marks by the equations of the acceptance and of the register reads. -/
theorem hazardIsStickyAndSetByTheHostAlone : Obligations.HazardIsStickyAndSetByTheHostAlone := by
  refine ⟨rfl, fun s t hstep => ?_, fun s t w hidle h => ?_, fun s t off h => ?_, fun s t v hwindow => ⟨?_, ?_⟩⟩
  · rcases step_effect hstep with rfl | ⟨op, rest, hm, hp, heffect⟩ | ⟨i, _, _, heffect⟩
    · exact ⟨id, fun hs ht => absurd (hs.symm.trans ht) (by decide)⟩
    · refine ⟨heffect.hazard_mono, fun hs ht => ?_⟩
      obtain ⟨hwindow, hop⟩ := heffect.hazard_set hs ht
      exact ⟨hm, hwindow, op, rest, hp, hop⟩
    · have heq := heffect.hazard_eq
      exact ⟨heq.trans, fun hs ht => absurd (hs.symm.trans (heq.symm.trans ht)) (by decide)⟩
  · rw [hostAccess_cmd_of_idle w hidle] at h
    cases h
    exact ⟨rfl, rfl⟩
  · rcases hostAccess_cases h with ⟨_, _, heq, _, rfl⟩ | ⟨_, _, _, heq, _⟩ | ⟨_, _, heq, _⟩ | ⟨_, _, _, heq, _⟩ |
      ⟨heq, _⟩ | ⟨heq, _⟩ <;> cases heq
    exact hostReadReg_unpolled_iff off
  · rintro i (h | h)
    all_goals
      rcases hostAccess_cases h with ⟨_, _, heq, _⟩ | ⟨_, _, _, heq, _⟩ | ⟨_, _, heq, _⟩ | ⟨_, _, _, heq, _, rfl⟩ |
        ⟨heq, _⟩ | ⟨heq, _⟩ <;> cases heq
      exact markHazard_hazard_of_guarded hwindow
  · rintro off (rfl | rfl | rfl) h
    all_goals
      cases h
      exact markHazard_hazard_of_guarded hwindow

/-! ### CFG (10_state.md R25) -/

/-- Settles O47: of the instructions only CONFIGURE writes CFG, of the host's accesses only RESET. -/
theorem onlyConfigureWritesCfg : Obligations.OnlyConfigureWritesCfg := by
  refine ⟨fun i s t hspoiled hexec hchanged => ?_, fun op s t haccess hop => ?_⟩
  · exact ((exec_effect hexec).cfg hspoiled).resolve_left hchanged
  · cases hostAccess_effect haccess with
    | reset => exact absurd rfl hop
    | _ => rfl

/-! ### The canonical form of the buffers and their sizes -/

theorem HostEffect.memory_wf (h : HostEffect s op t) (hwf : Memory.wf s = true) : Memory.wf t = true := by
  cases h with
  | write _ _ _ _ _ _ hwrite => exact hwrite hwf
  | reset => exact memory_wf_resetEvent s
  | _ => exact hwf

/-- The sizes of the three buffers. -/
def sizes (s : State) := (s.inSize, s.outSize, s.codeSize)

theorem HostEffect.sizes_eq (h : HostEffect s op t) : sizes t = sizes s := by
  cases h <;> rfl

theorem Effect.sizes_eq (h : Effect s i t) : sizes t = sizes s := by
  have := h.hostView_eq
  simp_all [hostView, sizes]

/-- Settles O51: the schedule's move touches no buffer, and every effect of either agent keeps form and sizes. -/
theorem everyStepKeepsTheBuffersCanonical : Obligations.EveryStepKeepsTheBuffersCanonical := by
  intro s t hstep
  suffices h : (Memory.wf s = true → Memory.wf t = true) ∧ sizes t = sizes s by simpa [sizes] using h
  rcases step_effect hstep with rfl | ⟨op, rest, _, _, heffect⟩ | ⟨i, _, _, heffect⟩
  · exact ⟨id, rfl⟩
  · exact ⟨heffect.memory_wf, heffect.sizes_eq⟩
  · exact ⟨heffect.memory_wf, heffect.sizes_eq⟩

/-! ### Where CODE and OUT are written (20_memory.md R69) -/

/-- What an instruction that raises no error writes in CODE and in OUT. -/
structure WritesInPlace (i : Instr) (s t : State) : Prop where
  codeBuf : i ≠ .encSymbol → i ≠ .encEnd → i ≠ .desCode → t.codeBuf = s.codeBuf
  code : ∀ j, j ≠ s.codePos.toNat → elementCode t j = elementCode s j
  outBuf : i ≠ .serInit → i ≠ .serCode → i ≠ .decFirst → i ≠ .decNext → t.outBuf = s.outBuf
  out : ∀ j, i ≠ .serInit → (j < s.outPos.toNat ∨ t.outPos.toNat ≤ j) → elementOut t j = elementOut s j
  header : i = .serInit → ∀ j, j ≠ 0 → elementOut t j = elementOut s j

theorem WritesInPlace.of_eq (hcode : t.codeBuf = s.codeBuf) (hout : t.outBuf = s.outBuf) : WritesInPlace i s t where
  codeBuf _ _ _ := hcode
  code j _ := congrArg (bufGet .CODE · j) hcode
  outBuf _ _ _ _ := hout
  out j _ _ := congrArg (bufGet .OUT · j) hout
  header _ j _ := congrArg (bufGet .OUT · j) hout

/-- COMPLETE() of a state that no write has touched. -/
theorem WritesInPlace.of_complete {u : State} (hspoiled : u.spoiled = false) (hcode : u.codeBuf = s.codeBuf)
    (hout : u.outBuf = s.outBuf) : WritesInPlace i s (complete u) := by
  rw [complete_unspoiled hspoiled]
  exact .of_eq hcode hout

/-- One code stored at CODE_POS. -/
theorem WritesInPlace.of_code {k : CodeEntry} (hi : i = .encSymbol ∨ i = .encEnd ∨ i = .desCode)
    (hcode : t.codeBuf = (pushCode k s).codeBuf) (hout : t.outBuf = s.outBuf) : WritesInPlace i s t where
  codeBuf h1 h2 h3 := absurd hi (by simp [h1, h2, h3])
  code j hj := by
    have hpush : elementCode t j = elementCode (pushCode k s) j := congrArg (bufGet .CODE · j) hcode
    rw [hpush, elementCode_pushCode, if_neg hj.symm]
  outBuf _ _ _ _ := hout
  out j _ _ := congrArg (bufGet .OUT · j) hout
  header _ j _ := congrArg (bufGet .OUT · j) hout

/-- A run of bytes stored at OUT_POS, which moves behind them. -/
theorem WritesInPlace.of_out {bs : List Byte} (hi : i = .serCode ∨ i = .decFirst ∨ i = .decNext)
    (hroom : s.outPos.toNat + bs.length ≤ s.outSize.toNat) (hcode : t.codeBuf = s.codeBuf)
    (hout : t.outBuf = (pushOut bs s).outBuf) (hpos : t.outPos = (pushOut bs s).outPos) : WritesInPlace i s t where
  codeBuf _ _ _ := hcode
  code j _ := congrArg (bufGet .CODE · j) hcode
  outBuf h1 h2 h3 h4 := absurd hi (by simp [h2, h3, h4])
  out j _ hj := by
    have hpush : elementOut t j = elementOut (pushOut bs s) j := congrArg (bufGet .OUT · j) hout
    rw [hpos, pushOut_outPos, ofNat_toNat_of_le hroom] at hj
    rw [hpush, elementOut_pushOut_outside bs s j hj]
  header h := absurd hi (by simp [h])

/-- One entry at element 0 of OUT: the header SER_INIT writes. -/
theorem WritesInPlace.of_header {w : Byte} (hcode : t.codeBuf = s.codeBuf) (hout : t.outBuf = bufSet s.outBuf 0 w) :
    WritesInPlace .serInit s t where
  codeBuf _ _ _ := hcode
  code j _ := congrArg (bufGet .CODE · j) hcode
  outBuf h := absurd rfl h
  out j h := absurd rfl h
  header _ j hj := by
    have hset : elementOut t j = bufGet .OUT (bufSet s.outBuf 0 w) j := congrArg (bufGet .OUT · j) hout
    rw [hset, bufGet_bufSet, if_neg hj.symm]
    rfl

theorem CommandEffect.writesInPlace {i' : Instr} (hspoiled : s.spoiled = false) (h : CommandEffect s i t) :
    WritesInPlace i' s t := by
  cases h with
  | nop | configure => exact .of_complete hspoiled rfl rfl
  | _ => exact .of_eq rfl rfl

theorem Effect.writesInPlace (hspoiled : s.spoiled = false) (h : Effect s i t) (herr : t.err = 0) :
    WritesInPlace i s t := by
  cases h with
  | aborts half _ => exact absurd ((aborted_abort hspoiled).err.symm.trans herr) (errorCode_ne_zero _)
  | command heffect | dispatched _ heffect => exact heffect.writesInPlace hspoiled
  | encEmitted =>
    obtain ⟨ed, n, cb, mc, heq⟩ := encRestart_spec (s.cur ++ [elementIn s s.inPos.toNat]) (elementIn s s.inPos.toNat)
      (pushCode _ s)
    rw [heq]
    exact .of_code (.inl rfl) rfl rfl
  | encEndEmpty =>
    obtain ⟨c, p, b, heq⟩ := encFinish_spec hspoiled
    rw [heq]
    exact .of_eq rfl rfl
  | encEndEmitted =>
    obtain ⟨c, p, b, heq⟩ := encFinish_spec (s := pushCode _ s) hspoiled
    rw [heq]
    exact .of_code (.inr (.inl rfl)) rfl rfl
  | serInitDynamic => exact .of_header rfl rfl
  | serCode hroom => exact .of_out (.inl rfl) (by rwa [bigEndian_length]) rfl rfl rfl
  | serEnd | decEnd => exact .of_complete hspoiled rfl rfl
  | desCode => exact .of_code (.inr (.inr rfl)) rfl rfl
  | desEnd =>
    obtain ⟨c, p, b, heq⟩ := desFinish_spec hspoiled
    rw [heq]
    exact .of_eq rfl rfl
  | decFirst _ hroom => exact .of_out (.inr (.inl rfl)) hroom rfl rfl rfl
  | @decNext entry _ hroom =>
    obtain ⟨dd, n, cb, mc, heq⟩ := decBind_spec (firstSymbol entry) (pushOut entry s)
    rw [heq]
    exact .of_out (.inr (.inr rfl)) hroom rfl rfl rfl
  | _ => exact .of_eq rfl rfl

/-- Settles O48: without an error CODE is written by one store at CODE_POS, OUT by a run at OUT_POS or by the header. -/
theorem buffersChangeOnlyWhereTheyAreWritten : Obligations.BuffersChangeOnlyWhereTheyAreWritten := by
  intro i s t hspoiled _ hexec herr
  obtain ⟨hcodeBuf, hcode, houtBuf, hout, hheader⟩ := (exec_effect hexec).writesInPlace hspoiled herr
  exact ⟨hcodeBuf, hcode, houtBuf, hout, hheader⟩

end Sys2Proof.Machine
end

section
/-! The selection of the micro-operation (30_encoding.md R101): the table as `Selects`, and that the engine never
stops. -/

namespace Sys2Proof.Machine

variable {s t : State} {i : Instr}

/-- The table of R101 as the fetch reads it: a loop takes its END from its length on. -/
inductive Selects (s : State) : Instr → Prop where
  | dispatch (hp : s.phase = Phase.dispatch) : Selects s .dispatch
  | encInit (hp : s.phase = Phase.encInit) : Selects s .encInit
  | encSymbol (hp : s.phase = Phase.encLoop) (hpos : s.inPos.toNat < s.inLen.toNat) : Selects s .encSymbol
  | encEnd (hp : s.phase = Phase.encLoop) (hpos : s.inLen.toNat ≤ s.inPos.toNat) : Selects s .encEnd
  | serInit (hp : s.phase = Phase.serInit) : Selects s .serInit
  | serCode (hp : s.phase = Phase.serLoop) (hpos : s.codePos.toNat < s.codeLen.toNat) : Selects s .serCode
  | serEnd (hp : s.phase = Phase.serLoop) (hpos : s.codeLen.toNat ≤ s.codePos.toNat) : Selects s .serEnd
  | desInit (hp : s.phase = Phase.desInit) : Selects s .desInit
  | desCode (hp : s.phase = Phase.desLoop) (hpos : s.codePos.toNat < s.desN.toNat) : Selects s .desCode
  | desEnd (hp : s.phase = Phase.desLoop) (hpos : s.desN.toNat ≤ s.codePos.toNat) : Selects s .desEnd
  | decInit (hp : s.phase = Phase.decInit) : Selects s .decInit
  | decFirst (hp : s.phase = Phase.decLoop) (hpos : s.codePos.toNat < s.codeLen.toNat) (hprev : s.prevValid = false) :
      Selects s .decFirst
  | decNext (hp : s.phase = Phase.decLoop) (hpos : s.codePos.toNat < s.codeLen.toNat) (hprev : s.prevValid = true) :
      Selects s .decNext
  | decEnd (hp : s.phase = Phase.decLoop) (hpos : s.codeLen.toNat ≤ s.codePos.toNat) : Selects s .decEnd

/-! ### The fetch, PHASE by PHASE -/

theorem phase_cases (p : BitVec 4) :
    p = Phase.idle ∨ p = Phase.dispatch ∨ p = Phase.encInit ∨ p = Phase.encLoop ∨ p = Phase.serInit ∨
      p = Phase.serLoop ∨ p = Phase.desInit ∨ p = Phase.desLoop ∨ p = Phase.decInit ∨ p = Phase.decLoop ∨
      10 ≤ p.toNat := by
  revert p
  decide

theorem decodeSelection_of_unreachable (p : BitVec 4) (h : 10 ≤ p.toNat) :
    decodeSelection (p.setWidth 8) = .error .unreachablePhase := by
  revert p
  decide

theorem fetch_of_idle (hp : s.phase = Phase.idle) : fetch s = .ok none := by
  cases hbusy : s.busy
  · exact fetch_of_not_busy hbusy
  · exact fetch_straight hbusy hp (by decide) (by decide) (by decide) (by decide)

theorem fetch_of_unreachable (hbusy : s.busy = true) (hp : 10 ≤ s.phase.toNat) :
    fetch s = .error .unreachablePhase := by
  have hne (p : BitVec 4) (hlt : p.toNat < 10) : s.phase ≠ p := fun e => by
    rw [e] at hp
    omega
  rw [fetch_straight hbusy rfl (hne _ (by decide)) (hne _ (by decide)) (hne _ (by decide)) (hne _ (by decide)),
    decodeSelection_of_unreachable _ hp]

theorem fetch_of_selects (hbusy : s.busy = true) (h : Selects s i) : fetch s = .ok (some i) := by
  cases h with
  | dispatch hp | encInit hp | serInit hp | desInit hp | decInit hp =>
    exact fetch_straight hbusy hp (by decide) (by decide) (by decide) (by decide)
  | encSymbol hp hpos => exact (fetch_encLoop hbusy hp).trans (loopFetch_some.2 (.inl ⟨hpos, rfl⟩))
  | encEnd hp hpos => exact (fetch_encLoop hbusy hp).trans (loopFetch_some.2 (.inr ⟨hpos, rfl⟩))
  | serCode hp hpos => exact (fetch_serLoop hbusy hp).trans (loopFetch_some.2 (.inl ⟨hpos, rfl⟩))
  | serEnd hp hpos => exact (fetch_serLoop hbusy hp).trans (loopFetch_some.2 (.inr ⟨hpos, rfl⟩))
  | desCode hp hpos => exact (fetch_desLoop hbusy hp).trans (loopFetch_some.2 (.inl ⟨hpos, rfl⟩))
  | desEnd hp hpos => exact (fetch_desLoop hbusy hp).trans (loopFetch_some.2 (.inr ⟨hpos, rfl⟩))
  | decFirst hp hpos hprev | decNext hp hpos hprev =>
    exact (fetch_decLoop hbusy hp).trans (loopFetch_some.2 (.inl ⟨hpos, by rw [hprev]; rfl⟩))
  | decEnd hp hpos => exact (fetch_decLoop hbusy hp).trans (loopFetch_some.2 (.inr ⟨hpos, rfl⟩))

/-- PHASE 1 to 9 always has a row. -/
theorem exists_selects (hidle : s.phase ≠ Phase.idle) (hle : s.phase.toNat ≤ 9) : ∃ i, Selects s i := by
  rcases phase_cases s.phase with hp | hp | hp | hp | hp | hp | hp | hp | hp | hp | hp
  · exact absurd hp hidle
  · exact ⟨_, .dispatch hp⟩
  · exact ⟨_, .encInit hp⟩
  · rcases Nat.lt_or_ge s.inPos.toNat s.inLen.toNat with hpos | hpos
    · exact ⟨_, .encSymbol hp hpos⟩
    · exact ⟨_, .encEnd hp hpos⟩
  · exact ⟨_, .serInit hp⟩
  · rcases Nat.lt_or_ge s.codePos.toNat s.codeLen.toNat with hpos | hpos
    · exact ⟨_, .serCode hp hpos⟩
    · exact ⟨_, .serEnd hp hpos⟩
  · exact ⟨_, .desInit hp⟩
  · rcases Nat.lt_or_ge s.codePos.toNat s.desN.toNat with hpos | hpos
    · exact ⟨_, .desCode hp hpos⟩
    · exact ⟨_, .desEnd hp hpos⟩
  · exact ⟨_, .decInit hp⟩
  · rcases Nat.lt_or_ge s.codePos.toNat s.codeLen.toNat with hpos | hpos
    · cases hprev : s.prevValid
      · exact ⟨_, .decFirst hp hpos hprev⟩
      · exact ⟨_, .decNext hp hpos hprev⟩
    · exact ⟨_, .decEnd hp hpos⟩
  · omega

/-- The fetch answers `i` exactly where the table's row of `i` holds: some row holds in PHASE 1 to 9, and the fetch
answers one instruction. -/
theorem fetch_eq_some_iff (hbusy : s.busy = true) : fetch s = .ok (some i) ↔ Selects s i := by
  refine ⟨fun h => ?_, fetch_of_selects hbusy⟩
  have hidle : s.phase ≠ Phase.idle := fun hp => by simp [fetch_of_idle hp] at h
  have hle : s.phase.toNat ≤ 9 := by
    by_contra hp
    simp [fetch_of_unreachable hbusy (by omega)] at h
  obtain ⟨j, hj⟩ := exists_selects hidle hle
  rw [fetch_of_selects hbusy hj] at h
  cases h
  exact hj

/-- The rows of R101 in its own words, for positions that are within their lengths. -/
theorem selects_iff_row (hlegal : PositionsLegal s) : Selects s i ↔
    (s.phase = 1 ∧ i = .dispatch) ∨
    (s.phase = 2 ∧ i = .encInit) ∨
    (s.phase = 3 ∧ s.inPos.toNat < s.inLen.toNat ∧ i = .encSymbol) ∨
    (s.phase = 3 ∧ s.inPos.toNat = s.inLen.toNat ∧ i = .encEnd) ∨
    (s.phase = 4 ∧ i = .serInit) ∨
    (s.phase = 5 ∧ s.codePos.toNat < s.codeLen.toNat ∧ i = .serCode) ∨
    (s.phase = 5 ∧ s.codePos.toNat = s.codeLen.toNat ∧ i = .serEnd) ∨
    (s.phase = 6 ∧ i = .desInit) ∨
    (s.phase = 7 ∧ s.codePos.toNat < s.desN.toNat ∧ i = .desCode) ∨
    (s.phase = 7 ∧ s.codePos.toNat = s.desN.toNat ∧ i = .desEnd) ∨
    (s.phase = 8 ∧ i = .decInit) ∨
    (s.phase = 9 ∧ s.codePos.toNat < s.codeLen.toNat ∧ s.prevValid = false ∧ i = .decFirst) ∨
    (s.phase = 9 ∧ s.codePos.toNat < s.codeLen.toNat ∧ s.prevValid = true ∧ i = .decNext) ∨
    (s.phase = 9 ∧ s.codePos.toNat = s.codeLen.toNat ∧ i = .decEnd) := by
  obtain ⟨henc, hcode, hdes⟩ := hlegal
  constructor
  · intro h
    cases h with
    | encEnd hp hpos => simp [hp, (henc hp).antisymm hpos]
    | serEnd hp hpos => simp [hp, (hcode (.inl hp)).antisymm hpos]
    | desEnd hp hpos => simp [hp, (hdes hp).antisymm hpos]
    | decEnd hp hpos => simp [hp, (hcode (.inr hp)).antisymm hpos]
    | _ => simp [*]
  · rintro (⟨hp, rfl⟩ | ⟨hp, rfl⟩ | ⟨hp, hpos, rfl⟩ | ⟨hp, hpos, rfl⟩ | ⟨hp, rfl⟩ | ⟨hp, hpos, rfl⟩ | ⟨hp, hpos, rfl⟩ |
      ⟨hp, rfl⟩ | ⟨hp, hpos, rfl⟩ | ⟨hp, hpos, rfl⟩ | ⟨hp, rfl⟩ | ⟨hp, hpos, hprev, rfl⟩ | ⟨hp, hpos, hprev, rfl⟩ |
      ⟨hp, hpos, rfl⟩)
    · exact .dispatch hp
    · exact .encInit hp
    · exact .encSymbol hp hpos
    · exact .encEnd hp hpos.ge
    · exact .serInit hp
    · exact .serCode hp hpos
    · exact .serEnd hp hpos.ge
    · exact .desInit hp
    · exact .desCode hp hpos
    · exact .desEnd hp hpos.ge
    · exact .decInit hp
    · exact .decFirst hp hpos hprev
    · exact .decNext hp hpos hprev
    · exact .decEnd hp hpos.ge

/-- Settles O6: the fetch is the table `Selects`, in the words of R101 where the positions are legal. -/
theorem fetchFollowsThePhaseTable : Obligations.FetchFollowsThePhaseTable := by
  refine ⟨fun s i hbusy hlegal => (fetch_eq_some_iff hbusy).trans (selects_iff_row hlegal), fun s h => ?_,
    fun s => fetch_of_unreachable, fun s hbusy hidle hle _ => ?_⟩
  · exact h.elim fetch_of_not_busy fetch_of_idle
  · obtain ⟨i, hi⟩ := exists_selects hidle hle
    exact ⟨i, (fetch_eq_some_iff hbusy).2 hi⟩

/-! ### Every instruction completes (60_exceptions.md R274 (e)) -/

theorem encSymbolWith_completes (c : Byte) (s : State) : ∃ t, encSymbolWith c s = .next t := by
  unfold encSymbolWith raise
  split
  · exact ⟨_, rfl⟩
  · split
    · exact ⟨_, rfl⟩
    · split <;> exact ⟨_, rfl⟩

theorem execEncEnd_completes (s : State) : ∃ t, execEncEnd s = .next t := by
  unfold execEncEnd raise
  split
  · exact ⟨_, rfl⟩
  · split
    · exact ⟨_, rfl⟩
    · split <;> exact ⟨_, rfl⟩

theorem execSerInit_completes (s : State) : ∃ t, execSerInit s = .next t := by
  unfold execSerInit raise
  split
  · exact ⟨_, rfl⟩
  · split
    · exact ⟨_, rfl⟩
    · split
      · split <;> exact ⟨_, rfl⟩
      · exact ⟨_, rfl⟩

theorem desInitDynamic_completes (s : State) : ∃ t, desInitDynamic s = .next t := by
  unfold desInitDynamic raise
  split
  · exact ⟨_, rfl⟩
  · split
    · split <;> exact ⟨_, rfl⟩
    · exact ⟨_, rfl⟩

theorem execDesInit_completes (s : State) : ∃ t, execDesInit s = .next t := by
  unfold execDesInit raise
  split
  · exact ⟨_, rfl⟩
  · split
    · unfold desInitStatic raise
      split <;> exact ⟨_, rfl⟩
    · exact desInitDynamic_completes s

theorem decEntry_completes (entry : Sequence) (s : State) : ∃ t, decEntry entry s = .next t := by
  unfold decEntry raise
  split <;> exact ⟨_, rfl⟩

theorem decFirstWith_completes (k : Nat) (s : State) : ∃ t, decFirstWith k s = .next t := by
  unfold decFirstWith raise
  split
  · exact ⟨_, rfl⟩
  · split <;> exact ⟨_, rfl⟩

theorem decNextWith_completes (k : Nat) (s : State) : ∃ t, decNextWith k s = .next t := by
  unfold decNextWith raise
  split
  · exact decEntry_completes _ s
  · split
    · exact decEntry_completes _ s
    · exact ⟨_, rfl⟩

theorem execConfigure_completes (v : Variant) (m : Nat) (s : State) : ∃ t, execConfigure v m s = .next t := by
  unfold execConfigure raise
  split <;> exact ⟨_, rfl⟩

theorem execDispatch_completes (s : State) : ∃ t, execDispatch s = .next t := by
  unfold execDispatch raise
  split
  case h_3 => exact execConfigure_completes _ _ s
  all_goals exact ⟨_, rfl⟩

theorem exec_completes (i : Instr) (s : State) : ∃ t, exec i s = .next t := by
  cases i with
  | configure v m => exact execConfigure_completes v m s
  | dispatch => exact execDispatch_completes s
  | encSymbol => exact encSymbolWith_completes _ s
  | encEnd => exact execEncEnd_completes s
  | serInit => exact execSerInit_completes s
  | desInit => exact execDesInit_completes s
  | decFirst => exact decFirstWith_completes _ s
  | decNext => exact decNextWith_completes _ s
  | encInit =>
    by_cases h : s.inSize.toNat < s.inLen.toNat
    · exact ⟨_, exec_encInit_of_tooLong h⟩
    · exact ⟨_, exec_encInit_of_fits (Nat.not_lt.1 h)⟩
  | decInit =>
    by_cases h : s.codeSize.toNat < s.codeLen.toNat
    · exact ⟨_, exec_decInit_of_tooLong h⟩
    · exact ⟨_, exec_decInit_of_fits (Nat.not_lt.1 h)⟩
  | desCode =>
    by_cases h : s.codePos.toNat < s.codeSize.toNat
    · exact ⟨_, exec_desCode_of_room h⟩
    · exact ⟨_, exec_desCode_of_codeFull (Nat.not_lt.1 h)⟩
  | serCode =>
    rw [exec_serCode rfl]
    by_cases h : s.outSize.toNat <
        s.outPos.toNat + (bigEndian s.serB.toNat (elementCode s s.codePos.toNat).toNat).length
    · exact ⟨_, serCodeWith_of_outFull h⟩
    · exact ⟨_, serCodeWith_of_room (Nat.not_lt.1 h)⟩
  | nop | encode | serialize | deserialize | decode | compress | decompress | serEnd | desEnd | decEnd =>
    exact ⟨_, rfl⟩

/-! ### The engine's reads (20_memory.md R69) -/

/-- With HAZARD = 0 every element a selected micro-operation reads lies inside its buffer. -/
theorem Selects.reads_inside (h : Selects s i) (hloop : LoopInv s) :
    (i = .encSymbol → s.inPos.toNat < s.inSize.toNat) ∧
    (i = .desCode → s.inPos.toNat + s.serB.toNat ≤ s.inSize.toNat) ∧
    (i = .serCode ∨ i = .decFirst ∨ i = .decNext → s.codePos.toNat < s.codeSize.toNat) := by
  cases h with
  | encSymbol hp hpos => simpa using hpos.trans_le (hloop.encode hp).len_le
  | desCode hp hpos => simpa using (hloop.deserialize hp).run_le hpos
  | serCode hp hpos => simpa using hpos.trans_le (hloop.serialize hp).len_le
  | decFirst hp hpos | decNext hp hpos => simpa using hpos.trans_le (hloop.decode hp).len_le
  | _ => simp

/-- Settles O52: every meaning answers a next state, PHASE 1 to 9 always has a row, a loop past its length takes its
END, and the loop invariants bound the positions by the sizes. -/
theorem theEngineNeverStops : Obligations.TheEngineNeverStops := by
  refine ⟨exec_completes, fun s hbusy hidle hle hm => ?_, fun s hbusy => ⟨fun hp hlt => ?_, fun hp hlt => ?_,
    fun hp hlt => ?_, fun hp hlt => ?_⟩, fun s i hinv hhazard hfetch => ?_⟩
  · obtain ⟨i, hi⟩ := exists_selects (s := tick s) hidle hle
    have hfetch := (fetch_eq_some_iff (s := tick s) hbusy).2 hi
    obtain ⟨t, ht⟩ := exec_completes i (tick s)
    exact ⟨i, t, hfetch, (step_of_selected hm hfetch).trans ht, ht⟩
  · exact (fetch_eq_some_iff hbusy).2 (.encEnd hp hlt.le)
  · exact (fetch_eq_some_iff hbusy).2 (.serEnd hp hlt.le)
  · exact (fetch_eq_some_iff hbusy).2 (.desEnd hp hlt.le)
  · exact (fetch_eq_some_iff hbusy).2 (.decEnd hp hlt.le)
  · exact ((fetch_eq_some_iff (busy_of_fetch hfetch)).1 hfetch).reads_inside (hinv.loops hhazard)

end Sys2Proof.Machine
end

section
/-! The invariant of the block (10_state.md R24, R25, R33, 41_dictionary.md R131, 44_code_width.md R184): it holds at
reset, every step of either agent keeps it, and what follows from it for one step. -/

namespace Sys2Proof.Machine

variable {s t u : State} {i : Instr} {op : HostOp}

/-! ### The invariant of one loop, and of none -/

theorem loopInv_of_phase (h3 : t.phase ≠ Phase.encLoop) (h5 : t.phase ≠ Phase.serLoop) (h7 : t.phase ≠ Phase.desLoop)
    (h9 : t.phase ≠ Phase.decLoop) : LoopInv t :=
  ⟨fun h => absurd h h3, fun h => absurd h h5, fun h => absurd h h7, fun h => absurd h h9⟩

theorem loopInv_of_straight {p : BitVec 4} (hp : t.phase = p)
    (hne : p ≠ Phase.encLoop ∧ p ≠ Phase.serLoop ∧ p ≠ Phase.desLoop ∧ p ≠ Phase.decLoop) : LoopInv t := by
  subst hp
  exact loopInv_of_phase hne.1 hne.2.1 hne.2.2.1 hne.2.2.2

theorem EncodeLoopInv.loopInv (h : EncodeLoopInv t) (hp : t.phase = Phase.encLoop) : LoopInv t where
  encode _ := h
  serialize e := absurd (hp.symm.trans e) (by decide)
  deserialize e := absurd (hp.symm.trans e) (by decide)
  decode e := absurd (hp.symm.trans e) (by decide)

theorem SerializeLoopInv.loopInv (h : SerializeLoopInv t) (hp : t.phase = Phase.serLoop) : LoopInv t where
  encode e := absurd (hp.symm.trans e) (by decide)
  serialize _ := h
  deserialize e := absurd (hp.symm.trans e) (by decide)
  decode e := absurd (hp.symm.trans e) (by decide)

theorem DeserializeLoopInv.loopInv (h : DeserializeLoopInv t) (hp : t.phase = Phase.desLoop) : LoopInv t where
  encode e := absurd (hp.symm.trans e) (by decide)
  serialize e := absurd (hp.symm.trans e) (by decide)
  deserialize _ := h
  decode e := absurd (hp.symm.trans e) (by decide)

theorem DecodeLoopInv.loopInv (h : DecodeLoopInv t) (hp : t.phase = Phase.decLoop) : LoopInv t where
  encode e := absurd (hp.symm.trans e) (by decide)
  serialize e := absurd (hp.symm.trans e) (by decide)
  deserialize e := absurd (hp.symm.trans e) (by decide)
  decode _ := h

/-! ### What the loops do not read -/

/-- `t` is `s` but for DROP, the marks, the draw counter and the host's own state. -/
def SameBlock (s t : State) : Prop :=
  t = { s with
    drop := t.drop, hazard := t.hazard, spoiled := t.spoiled, unpolled := t.unpolled, draws := t.draws,
    rdata := t.rdata, program := t.program, schedule := t.schedule }

theorem LoopInv.congr (h : LoopInv s) (e : SameBlock s t) : LoopInv t := by
  rw [e]
  constructor
  · intro hp
    have he := h.encode hp
    exact ⟨he.width.congr rfl rfl rfl rfl rfl, he.dict, he.pos_le, he.len_le, he.code_le, he.cur_empty, he.cur_bound,
      he.emitted_le⟩
  · intro hp
    have hs := h.serialize hp
    exact ⟨hs.pos_le, hs.len_le, hs.bytes_two, hs.out_eq, hs.out_le⟩
  · intro hp
    have hd := h.deserialize hp
    exact ⟨hd.pos_le, hd.len_le, hd.code_le, hd.bytes_two, hd.in_eq, hd.frame_eq, hd.header_ge, hd.header_le⟩
  · intro hp
    have hd := h.decode hp
    exact ⟨hd.width.congr rfl rfl rfl rfl rfl, hd.dict, hd.pos_le, hd.len_le, hd.out_le, hd.prev_nonempty⟩

theorem BlockInv.congr (h : BlockInv s) (e : SameBlock s t) (hhazard : t.hazard = false → s.hazard = false)
    (hunspoiled : t.hazard = false → t.spoiled = false)
    (hguarded : t.hazard = false → t.busy = true → t.unpolled = true) : BlockInv t where
  cfg := by rw [e]; exact h.cfg
  phase := by rw [e]; exact h.phase
  memory := by rw [e]; exact h.memory
  unspoiled := hunspoiled
  guarded := hguarded
  loops ht := (h.loops (hhazard ht)).congr e
  errClear := by rw [e]; exact h.errClear

/-! ### The block at rest -/

theorem blockInv_of_idle (hcfg : CfgLegal t) (hphase : t.phase = Phase.idle) (hbusy : t.busy = false)
    (hwf : Memory.wf t = true) (hunspoiled : t.spoiled = false) : BlockInv t where
  cfg := hcfg
  phase := ⟨by rw [hphase]; decide, fun _ => hbusy, fun _ => hphase⟩
  memory := hwf
  unspoiled _ := hunspoiled
  guarded _ hb := absurd hb (by simp [hbusy])
  loops _ := loopInv_of_straight hphase (by decide)
  errClear hb := absurd hb (by simp [hbusy])

/-- Settles O49: right after reset the block is at rest with MAX_BITS = 12 and empty buffers. -/
theorem resetMeetsTheInvariant : Obligations.ResetMeetsTheInvariant :=
  blockInv_of_idle (by decide) rfl rfl memory_wf_reset rfl

/-- The drawn MAX_BITS is legal (10_state.md R25). -/
theorem cfgLegal_spoilResults (h : CfgLegal s) : CfgLegal (spoilResults s) := by
  have hfree : (freeMaxBits s.draws).toNat = 9 + (Config.freeBits 8 .maxBits s.draws).toNat % 8 := by
    rw [freeMaxBits, BitVec.toNat_ofNat, Nat.mod_eq_of_lt (by simp only [Config.leastMaxBits]; omega)]
  rw [CfgLegal, spoilResults_maxBits]
  split
  · omega
  · exact h

theorem blockInv_complete (hcfg : CfgLegal s) (hwf : Memory.wf s = true) : BlockInv (complete s) :=
  blockInv_of_idle (cfgLegal_spoilResults hcfg) rfl rfl (memory_wf_complete s hwf) rfl

theorem blockInv_abort (half : FailingHalf) (e : ErrorKind) (hcfg : CfgLegal s) (hwf : Memory.wf s = true) :
    BlockInv (abort half e s) :=
  have habort : CfgLegal (spoilResults (recordError half e s)) := cfgLegal_spoilResults hcfg
  blockInv_of_idle habort rfl rfl (memory_wf_abort half e s hwf) rfl

/-! ### The running engine -/

/-- What the invariant reads besides PHASE, the buffers and the loops. -/
def control (s : State) := (s.maxBits, s.hazard, s.spoiled, s.unpolled, s.busy, s.err)

theorem control_encRestart (q : Sequence) (c : Byte) (s : State) : control (encRestart q c s) = control s := by
  obtain ⟨ed, n, cb, mc, heq⟩ := encRestart_spec q c s
  rw [heq]
  rfl

theorem control_decBind (first : Byte) (s : State) : control (decBind first s) = control s := by
  obtain ⟨dd, n, cb, mc, heq⟩ := decBind_spec first s
  rw [heq]
  rfl

theorem encRestart_phase (q : Sequence) (c : Byte) (s : State) : (encRestart q c s).phase = s.phase := by
  obtain ⟨ed, n, cb, mc, heq⟩ := encRestart_spec q c s
  rw [heq]

theorem decBind_phase (first : Byte) (s : State) : (decBind first s).phase = s.phase := by
  obtain ⟨dd, n, cb, mc, heq⟩ := decBind_spec first s
  rw [heq]

/-- A micro-operation that goes on, in a PHASE of its own. -/
theorem BlockInv.running (h : BlockInv s) (p : BitVec 4) (hbusy : s.busy = true) (hcontrol : control t = control s)
    (hp : t.phase = p) (hlegal : p ≠ Phase.idle ∧ p.toNat ≤ 9) (hwf : Memory.wf t = true)
    (hloops : s.hazard = false → LoopInv t) : BlockInv t := by
  simp only [control, Prod.mk.injEq] at hcontrol
  obtain ⟨hmax, hhazard, hspoiled, hunpolled, hb, herr⟩ := hcontrol
  refine ⟨?_, ⟨?_, ?_⟩, hwf, ?_, ?_, ?_, ?_⟩
  · rw [CfgLegal, hmax]
    exact h.cfg
  · rw [hp]
    exact hlegal.2
  · simp only [hp, hb, hbusy, hlegal.1, Bool.true_eq_false]
  · rw [hhazard, hspoiled]
    exact h.unspoiled
  · rw [hhazard, hb, hunpolled]
    exact h.guarded
  · rw [hhazard]
    exact hloops
  · rw [hb, herr]
    exact h.errClear

/-- A PHASE that is no loop's and not IDLE. -/
abbrev StraightPhase (p : BitVec 4) : Prop :=
  p = Phase.dispatch ∨ p = Phase.encInit ∨ p = Phase.serInit ∨ p = Phase.desInit ∨ p = Phase.decInit

/-- A step to a PHASE without a loop. -/
theorem BlockInv.straight (h : BlockInv s) (p : BitVec 4) (hstraight : StraightPhase p) (hbusy : s.busy = true)
    (hcontrol : control t = control s) (hp : t.phase = p) (hwf : Memory.wf t = true) : BlockInv t := by
  refine h.running p hbusy hcontrol hp ?_ hwf fun _ => loopInv_of_straight hp ?_
  all_goals rcases hstraight with rfl | rfl | rfl | rfl | rfl <;> decide

/-- The end of ENC_END past its emission: the second half of COMPRESS, or the block at rest. -/
theorem BlockInv.encFinish (h : BlockInv s) (hbusy : s.busy = true) (hcontrol : control u = control s)
    (hwf : Memory.wf u = true) : BlockInv (encFinish u) := by
  have hmax : u.maxBits = s.maxBits := congrArg (·.1) hcontrol
  cases hchain : u.chain
  · rw [Machine.encFinish, if_neg (by simp [hchain])]
    exact blockInv_complete (by simpa only [CfgLegal, hmax] using h.cfg) hwf
  · rw [encFinish_of_chained hchain]
    exact h.straight Phase.serInit (by decide) hbusy hcontrol rfl hwf

theorem BlockInv.desFinish (h : BlockInv s) (hbusy : s.busy = true) : BlockInv (desFinish s) := by
  cases hchain : s.chain
  · rw [Machine.desFinish, if_neg (by simp [hchain])]
    exact blockInv_complete h.cfg h.memory
  · rw [desFinish_of_chained hchain]
    exact h.straight Phase.decInit (by decide) hbusy rfl rfl h.memory

theorem CommandEffect.blockInv (h : BlockInv s) (hbusy : s.busy = true) (heffect : CommandEffect s i t) :
    BlockInv t := by
  cases heffect with
  | nop => exact blockInv_complete h.cfg h.memory
  | @configure v m hge hle =>
    refine blockInv_complete ?_ h.memory
    show 9 ≤ (BitVec.ofNat 8 m).toNat ∧ (BitVec.ofNat 8 m).toNat ≤ 16
    rw [BitVec.toNat_ofNat]
    omega
  | encode | compress => exact h.straight Phase.encInit (by decide) hbusy rfl rfl h.memory
  | serialize => exact h.straight Phase.serInit (by decide) hbusy rfl rfl h.memory
  | deserialize | decompress => exact h.straight Phase.desInit (by decide) hbusy rfl rfl h.memory
  | decode => exact h.straight Phase.decInit (by decide) hbusy rfl rfl h.memory

/-- DEC_NEXT's entry is not empty: DD binds no empty Sequence, and PREV has a Symbol (10_state.md R40). -/
theorem DecodeLoopInv.nextEntry_ne_nil (h : DecodeLoopInv s) {k : Nat} {entry : Sequence}
    (hentry : NextEntry s k entry) : entry ≠ [] := by
  rcases hentry with hbound | ⟨_, _, rfl⟩
  · rcases h.dict.get k with ⟨_, q, hq, hne⟩ | ⟨_, hnone⟩
    · cases hbound.symm.trans hq
      exact hne
    · cases hbound.symm.trans hnone
  · simp

/-- A selected micro-operation keeps the invariant: it aborts or completes, or it starts or keeps its loop's. -/
theorem Effect.blockInv (h : BlockInv s) (hbusy : s.busy = true) (hsel : Selects s i) (heffect : Effect s i t) :
    BlockInv t := by
  have hwf : Memory.wf t = true := heffect.memory_wf h.memory
  cases heffect with
  | aborts half _ => exact blockInv_abort half _ h.cfg h.memory
  | command heffect => cases hsel <;> cases heffect
  | dispatched _ heffect => exact heffect.blockInv h hbusy
  | encInit hfits =>
    exact h.running Phase.encLoop hbusy rfl rfl (by decide) hwf
      fun _ => (encodeLoopInv_encStart h.cfg hfits).loopInv rfl
  | encFound hfound =>
    cases hsel with
    | encSymbol hp hpos =>
      exact h.running Phase.encLoop hbusy rfl hp (by decide) hwf
        fun hz => (((h.loops hz).encode hp).extend hpos hfound).loopInv hp
  | encEmitted habs hcur hroom =>
    cases hsel with
    | encSymbol hp hpos =>
      exact h.running Phase.encLoop hbusy (control_encRestart _ _ (pushCode _ s))
        ((encRestart_phase _ _ _).trans hp) (by decide) hwf
        fun hz => (((h.loops hz).encode hp).restart h.cfg hpos habs hcur hroom).loopInv
          ((encRestart_phase _ _ _).trans hp)
  | encEndEmpty => exact h.encFinish hbusy rfl h.memory
  | encEndEmitted _ _ hroom => exact h.encFinish hbusy rfl (memory_wf_pushCode s _ h.memory hroom)
  | serInitStatic hfits hvar =>
    exact h.running Phase.serLoop hbusy rfl rfl (by decide) hwf
      fun _ => (serializeLoopInv_serStartStatic hfits hvar).loopInv rfl
  | serInitDynamic hfits hvar hwidth hroom =>
    exact h.running Phase.serLoop hbusy rfl rfl (by decide) hwf
      fun _ => (serializeLoopInv_serStartDynamic h.cfg hfits hvar hwidth hroom).loopInv rfl
  | serCode hroom =>
    cases hsel with
    | serCode hp hpos =>
      exact h.running Phase.serLoop hbusy rfl hp (by decide) hwf
        fun hz => (((h.loops hz).serialize hp).code hpos _ hroom).loopInv hp
  | serEnd | decEnd => exact blockInv_complete h.cfg h.memory
  | desInitStatic hfits hvar heven =>
    exact h.running Phase.desLoop hbusy rfl rfl (by decide) hwf
      fun _ => (deserializeLoopInv_desStartStatic h.cfg hfits hvar heven).loopInv rfl
  | desInitDynamic hfits hvar hne hheader hframe =>
    exact h.running Phase.desLoop hbusy rfl rfl (by decide) hwf
      fun _ => (deserializeLoopInv_desStartDynamic h.cfg hfits hvar hne hheader hframe).loopInv rfl
  | desCode hroom =>
    cases hsel with
    | desCode hp hpos =>
      exact h.running Phase.desLoop hbusy rfl hp (by decide) hwf
        fun hz => (((h.loops hz).deserialize hp).code hpos _ hroom).loopInv hp
  | desEnd => exact h.desFinish hbusy
  | decInit hfits =>
    exact h.running Phase.decLoop hbusy rfl rfl (by decide) hwf
      fun _ => (decodeLoopInv_decStart h.cfg hfits).loopInv rfl
  | decFirst hk hroom =>
    cases hsel with
    | decFirst hp hpos =>
      refine h.running Phase.decLoop hbusy rfl hp (by decide) hwf fun hz => ?_
      have hloop := (h.loops hz).decode hp
      have hne : firstEntry (elementCode s s.codePos.toNat).toNat s ≠ [] := by
        simp [hloop.dict.firstEntry_symbol hloop.width.nextCode_ge hk]
      exact (hloop.first hpos hne hroom).loopInv hp
  | decNext hentry hroom =>
    cases hsel with
    | decNext hp hpos =>
      refine h.running Phase.decLoop hbusy (control_decBind _ (pushOut _ s))
        ((decBind_phase _ _).trans hp) (by decide) hwf
        fun hz => ?_
      have hloop := (h.loops hz).decode hp
      exact (hloop.next h.cfg hpos _ (hloop.nextEntry_ne_nil hentry) hroom).loopInv ((decBind_phase _ _).trans hp)

/-! ### The host's accesses -/

theorem BlockInv.idle_of_not_busy (h : BlockInv s) (hidle : s.busy = false) : s.phase = Phase.idle := h.phase.2.2 hidle

/-- A guarded write that leaves HAZARD = 0 hit a block at rest, whose end the host has polled. -/
theorem markHazard_hazard_eq_false_iff :
    (markHazard s).hazard = false ↔ s.hazard = false ∧ s.busy = false ∧ s.unpolled = false := by
  simp

theorem HostEffect.blockInv (h : BlockInv s) (heffect : HostEffect s op t) : BlockInv t := by
  have hwf : Memory.wf t = true := heffect.memory_wf h.memory
  cases heffect with
  | read v d p hpoll =>
    exact h.congr rfl id h.unspoiled fun hz hbusy => (hpoll hbusy).trans (h.guarded hz hbusy)
  | accept w hidle =>
    exact ⟨h.cfg, ⟨by simp, by simp⟩, hwf, fun _ => rfl, fun _ _ => rfl,
      fun _ => loopInv_of_straight (p := Phase.dispatch) rfl (by decide), fun _ => rfl⟩
  | setDrop d => exact h.congr rfl id h.unspoiled h.guarded
  | write inLen codeLen width inBuf codeBuf =>
    have hrest (hz : (markHazard s).hazard = false) := markHazard_hazard_eq_false_iff.1 hz
    refine ⟨h.cfg, h.phase, hwf, fun hz => ?_, fun hz hbusy => ?_, fun hz => ?_, h.errClear⟩
    · obtain ⟨hs, hidle, _⟩ := hrest hz
      exact (markHazard_spoiled s).trans (by rw [h.unspoiled hs, hidle]; rfl)
    · obtain ⟨_, hidle, _⟩ := hrest hz
      exact absurd (hidle.symm.trans hbusy) (by decide)
    · obtain ⟨_, hidle, _⟩ := hrest hz
      exact loopInv_of_straight (h.idle_of_not_busy hidle) (by decide)
  | reset => exact blockInv_of_idle (by rw [CfgLegal, resetEvent_maxBits]; decide) rfl rfl hwf rfl

/-! ### Every step -/

theorem BlockInv.tick (h : BlockInv s) : BlockInv (tick s) := h.congr rfl id h.unspoiled h.guarded

theorem BlockInv.hostReady (h : BlockInv s) (op : HostOp) (rest : List HostOp) : BlockInv (hostReady op rest s) :=
  h.congr rfl id h.unspoiled h.guarded

theorem blockInv_step (h : BlockInv s) (hstep : step s = .next t) : BlockInv t := by
  rcases step_effect hstep with rfl | ⟨op, rest, _, _, heffect⟩ | ⟨i, _, hfetch, heffect⟩
  · exact h.tick
  · exact heffect.blockInv (h.hostReady op rest)
  · have hbusy := busy_of_fetch hfetch
    exact heffect.blockInv h.tick hbusy ((fetch_eq_some_iff hbusy).1 hfetch)

/-- Settles O50: the schedule's move, each access of the host and each selected micro-operation keep the invariant. -/
theorem everyStepKeepsTheInvariant : Obligations.EveryStepKeepsTheInvariant := fun _ _ => blockInv_step

/-! ### The width controller (44_code_width.md R184–R186) -/

/-- While a dictionary is built, the width controller's invariant holds. -/
theorem BlockInv.widthInv (h : BlockInv s) (hz : s.hazard = false)
    (hp : s.phase = Phase.encLoop ∨ s.phase = Phase.decLoop) : WidthInv s :=
  hp.elim (fun hp => ((h.loops hz).encode hp).width) fun hp => ((h.loops hz).decode hp).width

/-- Settles O43: the statements are those of the width controller's invariant. -/
theorem capacityAndWidthFollowTheSchedule : Obligations.CapacityAndWidthFollowTheSchedule := by
  intro s hinv hz hp
  have hwidth := hinv.widthInv hz hp
  exact ⟨hwidth.capacity_iff hinv.cfg, hwidth.nextCode_le, hwidth.static_eq, hwidth.dynamic_eq, hwidth.maxCode_eq⟩

/-- CUR_BITS stays or takes one more bit. -/
def WidthStep (s t : State) : Prop := t.curBits = s.curBits ∨ t.curBits = s.curBits + 1

theorem widthStep_cwGrow (s : State) : WidthStep s (cwGrow s) := by
  rw [WidthStep, cwGrow_curBits]
  split
  · exact .inr rfl
  · exact .inl rfl

theorem widthStep_encRestart (q : Sequence) (c : Byte) (s : State) : WidthStep s (encRestart q c s) := by
  by_cases hcap : s.nextCode.toNat ≤ s.maxCode.toNat
  · rw [encRestart_of_capacity q c hcap]
    exact widthStep_cwGrow (edInsert q s)
  · rw [encRestart_of_exhausted q c hcap]
    exact .inl rfl

theorem widthStep_decBind (first : Byte) (s : State) : WidthStep s (decBind first s) := by
  by_cases hcap : s.nextCode.toNat ≤ s.maxCode.toNat
  · rw [decBind_of_capacity first hcap]
    exact widthStep_cwGrow (ddBind (s.prev ++ [first]) s)
  · rw [decBind_of_exhausted first hcap]
    exact .inl rfl

theorem encFinish_curBits (s : State) : (encFinish s).curBits = s.curBits := by
  unfold encFinish
  split <;> rfl

theorem desFinish_curBits (s : State) : (desFinish s).curBits = s.curBits := by
  unfold desFinish
  split <;> rfl

/-- The engine is in a loop that builds a dictionary. -/
abbrev InDictionaryLoop (s : State) : Prop := s.phase = Phase.encLoop ∨ s.phase = Phase.decLoop

theorem not_inDictionaryLoop_of_phase {p : BitVec 4} (hp : s.phase = p)
    (hne : ¬ (p = Phase.encLoop ∨ p = Phase.decLoop)) : ¬ InDictionaryLoop s := by
  rwa [InDictionaryLoop, hp]

/-- Of the host's accesses only RESET writes CUR_BITS, and it leaves no loop. -/
theorem HostEffect.widthStep (h : HostEffect s op t) (ht : InDictionaryLoop t) : WidthStep s t := by
  cases h with
  | reset => exact absurd ht (not_inDictionaryLoop_of_phase (resetEvent_phase s) (by decide))
  | _ => exact .inl rfl

/-- Within a loop only the binding of ENC_SYMBOL and DEC_NEXT writes CUR_BITS. -/
theorem Effect.widthStep (h : Effect s i t) (hsel : Selects s i) (hs : InDictionaryLoop s)
    (ht : InDictionaryLoop t) : WidthStep s t := by
  cases h with
  | aborts half _ => exact absurd ht (not_inDictionaryLoop_of_phase (abort_ends half _ s).2.1 (by decide))
  | command heffect | dispatched _ heffect => cases heffect <;> exact .inl rfl
  | encInit =>
    cases hsel with
    | encInit hp => exact absurd hs (not_inDictionaryLoop_of_phase hp (by decide))
  | encEmitted => exact widthStep_encRestart _ _ (pushCode _ s)
  | encEndEmpty => exact .inl (encFinish_curBits s)
  | encEndEmitted => exact .inl (encFinish_curBits (pushCode _ s))
  | desEnd => exact .inl (desFinish_curBits s)
  | decInit =>
    cases hsel with
    | decInit hp => exact absurd hs (not_inDictionaryLoop_of_phase hp (by decide))
  | decNext => exact widthStep_decBind _ (pushOut _ s)
  | _ => exact .inl rfl

theorem step_widthStep (hstep : step s = .next t) (hs : InDictionaryLoop s) (ht : InDictionaryLoop t) :
    WidthStep s t := by
  rcases step_effect hstep with rfl | ⟨op, rest, _, _, heffect⟩ | ⟨i, _, hfetch, heffect⟩
  · exact .inl rfl
  · exact heffect.widthStep (s := hostReady op rest s) ht
  · exact heffect.widthStep (s := tick s) ((fetch_eq_some_iff (busy_of_fetch hfetch)).1 hfetch) hs ht

/-- Settles O44: the step's WIDTH is the old one or one more, and the invariant after the step bounds it. -/
theorem codeWidthGrowsByOneAtMost : Obligations.CodeWidthGrowsByOneAtMost := by
  intro s t hinv hz hstep hzt hphases
  have hs : InDictionaryLoop s := hphases.imp And.left And.left
  have ht : InDictionaryLoop t := hphases.imp And.right And.right
  have hinvt := blockInv_step hinv hstep
  have hbounds := (hinvt.widthInv hzt ht).curBits_bounds hinvt.cfg
  refine ⟨(step_widthStep hstep hs ht).imp_right fun hgrown => ?_, hbounds⟩
  have hle := ((hinv.widthInv hz hs).curBits_bounds hinv.cfg).2
  have hmax := hinv.cfg.2
  rw [hgrown, BitVec.toNat_add]
  exact Nat.mod_eq_of_lt (by simp; omega)

/-- A code below NEXT_CODE loses nothing as an entry of CODE. -/
theorem WidthInv.ofNat_code_toNat (h : WidthInv s) (hc : CfgLegal s) {k : Nat} (hk : k < s.nextCode.toNat) :
    (BitVec.ofNat 16 k).toNat = k := by
  have hpow : 2 ^ s.maxBits.toNat ≤ 2 ^ 16 := Nat.pow_le_pow_right (by decide) hc.2
  rw [BitVec.toNat_ofNat, Nat.mod_eq_of_lt (by have := h.nextCode_le; omega)]

theorem EncodeLoopInv.emitted_fits (h : EncodeLoopInv s) (hc : CfgLegal s) {q : Sequence} {k : Nat}
    (hk : edLookup s.ed q = some k) : (BitVec.ofNat 16 k).toNat < 2 ^ s.curBits.toNat := by
  have hlt := h.dict.code_lt hk
  rw [h.width.ofNat_code_toNat hc hlt]
  exact h.width.code_fits hc hlt

theorem elementCode_encRestart (q : Sequence) (c : Byte) (s : State) (j : Nat) :
    elementCode (encRestart q c s) j = elementCode s j := by
  obtain ⟨ed, n, cb, mc, heq⟩ := encRestart_spec q c s
  rw [heq]
  rfl

theorem elementCode_encFinish (hspoiled : s.spoiled = false) (j : Nat) :
    elementCode (encFinish s) j = elementCode s j := by
  obtain ⟨c, p, b, heq⟩ := encFinish_spec hspoiled
  rw [heq]
  rfl

theorem elementCode_pushCode_self (k : CodeEntry) (s : State) : elementCode (pushCode k s) s.codePos.toNat = k := by
  rw [elementCode_pushCode, if_pos rfl]

theorem word_ne_add_one (p : Word) : p ≠ p + 1 := by
  intro h
  bv_omega

/-- Settles O45: a step that moves CODE_POS has emitted the code of CUR, which ED binds below NEXT_CODE. -/
theorem emittedCodesFitTheWidth : Obligations.EmittedCodesFitTheWidth := by
  intro s t i hinv hz hi hfetch hexec herr hpos
  have hsel := (fetch_eq_some_iff (busy_of_fetch hfetch)).1 hfetch
  have hp : s.phase = Phase.encLoop := by
    rcases hi with rfl | rfl <;> cases hsel <;> assumption
  have hloop := (hinv.loops hz).encode hp
  have hspoiled := hinv.unspoiled hz
  refine ⟨?_, Nat.pow_le_pow_right (by decide) (hloop.width.curBits_bounds hinv.cfg).2⟩
  cases exec_effect hexec with
  | aborts half _ => exact absurd ((aborted_abort hspoiled).err.symm.trans herr) (errorCode_ne_zero _)
  | encFound => exact absurd hpos (word_ne_add_one s.codePos)
  | encEndEmpty =>
    obtain ⟨c, p, b, heq⟩ := encFinish_spec hspoiled
    rw [heq] at hpos
    exact absurd hpos (word_ne_add_one s.codePos)
  | encEmitted _ hcur _ =>
    rw [elementCode_encRestart, elementCode_pushCode_self]
    exact hloop.emitted_fits hinv.cfg hcur
  | encEndEmitted _ hcur _ =>
    rw [elementCode_encFinish (s := pushCode _ s) hspoiled, elementCode_pushCode_self]
    exact hloop.emitted_fits hinv.cfg hcur
  | command heffect => rcases hi with rfl | rfl <;> cases heffect
  | _ => simp at hi

/-! ### InvariantViolation (42_encoder.md R148) -/

/-- In the loop CUR is bound, or it is empty and every Symbol is bound: no row of InvariantViolation holds. -/
theorem EncodeLoopInv.not_raises_invariantViolation (h : EncodeLoopInv s) : ¬ Raises s i .invariantViolation := by
  intro hraises
  rcases raises_invariantViolation_iff.1 hraises with ⟨_, habs, hcur⟩ | ⟨_, hne, hcur⟩
  · by_cases hempty : s.cur = []
    · rw [hempty, List.nil_append, h.dict.symbols] at habs
      cases habs
    · exact absurd (h.cur_bound hempty) (by simp [hcur])
  · exact absurd (h.cur_bound hne) (by simp [hcur])

/-- Settles O53: only a selected micro-operation could report it, from ERR = 0, and no row of the table does. -/
theorem invariantViolationIsNeverReported : Obligations.InvariantViolationIsNeverReported := by
  intro s t hinv hz hne hstep
  rcases step_cases hstep with ⟨_, hhost⟩ | ⟨_, _, rfl⟩ | ⟨i, _, hfetch, hexec⟩
  · rcases hostTurn_err hhost with hkept | hcleared
    · rwa [hkept]
    · simp [hcleared]
  · exact hne
  · have hbusy := busy_of_fetch hfetch
    intro herr
    have hraises : Raises (tick s) i .invariantViolation :=
      (exec_err_eq_errorCode_iff (hinv.tick.errClear hbusy) (hinv.tick.unspoiled hz) hexec).1 herr
    have hp : (tick s).phase = Phase.encLoop := by
      have hsel := (fetch_eq_some_iff hbusy).1 hfetch
      rcases raises_invariantViolation_iff.1 hraises with ⟨rfl, _⟩ | ⟨rfl, _⟩ <;> cases hsel <;> assumption
    exact ((hinv.tick.loops hz).encode hp).not_raises_invariantViolation hraises

end Sys2Proof.Machine
end

section
/-! A command carried out alone (46_host_commands.md R243): runs of the engine that no host step interrupts, and the
bound on their length. -/

namespace Sys2Proof.Machine

variable {s t u : State} {i : Instr} {n : Nat} {p q : BitVec 4} {w : Word}

/-! ### Runs -/

theorem run_succ (h : step s = .next t) (n : Nat) : run (n + 1) s = run n t := by
  simp [run, h]

/-- Nothing is scheduled and the host has no step to come. -/
abbrev Alone (s : State) : Prop := s.schedule = [] ∧ s.program = []

theorem tick_of_alone (h : Alone s) : tick s = s := by
  rw [tick, h.1, List.tail_nil, ← h.1]

theorem mover_of_alone (h : Alone s) : mover s = if s.busy then .engine else .host := by
  simp [mover, h.1]

theorem Alone.of_hostView (h : Alone s) (hview : hostView t = hostView s) : Alone t := by
  simp only [hostView, Prod.mk.injEq] at hview
  obtain ⟨-, -, -, -, -, -, -, -, -, hprogram, hschedule⟩ := hview
  exact ⟨hschedule.trans h.1, hprogram.trans h.2⟩

/-- A block at rest with nothing to come. -/
abbrev Resting (s : State) : Prop := s.busy = false ∧ Alone s

theorem step_of_resting (h : Resting s) : step s = .next s := by
  obtain ⟨hidle, halone⟩ := h
  have hm : mover s = .host := by rw [mover_of_alone halone, hidle]; rfl
  rw [step_of_host hm, tick_of_alone halone, hostTurn_of_empty halone.2]

theorem run_of_resting (h : Resting s) (n : Nat) : run n s = .next s := by
  induction n with
  | zero => rfl
  | succ n ih => rw [run_succ (step_of_resting h), ih]

/-- A run that has come to rest. -/
def Ends (n : Nat) (s t : State) : Prop := run n s = .next t ∧ t.busy = false

theorem EndsWell.ends (h : EndsWell n s t) : Ends n s t := ⟨h.1, h.2.1⟩

theorem Ends.of_step (h : Ends n t u) (hstep : step s = .next t) : Ends (n + 1) s u :=
  ⟨(run_succ hstep n).trans h.1, h.2⟩

/-- The first step of a run that starts busy and ends. -/
theorem Ends.peel (h : Ends n s u) (hbusy : s.busy = true) (hstep : step s = .next t) : ∃ m, Ends m t u := by
  obtain ⟨hrun, hidle⟩ := h
  cases n with
  | zero =>
    cases hrun
    exact absurd (hbusy.symm.trans hidle) (by decide)
  | succ m => exact ⟨m, (run_succ hstep m).symm.trans hrun, hidle⟩

theorem Ends.eq_of_resting (h : Ends n s t) (hrest : Resting s) : t = s := by
  have hrun := h.1
  rw [run_of_resting hrest] at hrun
  cases hrun
  rfl

/-- What holds when a run ends without error: an invariant of its running states, each step of which goes on or comes
to rest with the result. -/
theorem EndsWell.result {I Q : State → Prop} (hbusy : ∀ s, I s → s.busy = true)
    (hstep : ∀ s, I s → ∃ u, step s = .next u ∧ (I u ∨ (Resting u ∧ (u.err = 0 → Q u)))) (h : EndsWell n s t)
    (hs : I s) : Q t := by
  induction n generalizing s with
  | zero =>
    obtain ⟨hrun, hidle, -⟩ := h
    cases hrun
    exact absurd ((hbusy _ hs).symm.trans hidle) (by decide)
  | succ n ih =>
    obtain ⟨hrun, hidle, herr⟩ := h
    obtain ⟨u, hu, hcases⟩ := hstep s hs
    rw [run_succ hu] at hrun
    rcases hcases with hnext | ⟨hrest, hresult⟩
    · exact ih ⟨hrun, hidle, herr⟩ hnext
    · rw [run_of_resting hrest] at hrun
      cases hrun
      exact hresult herr

/-- A run ends without error if each step of its running states takes a measure down, or comes to rest with the
result. -/
theorem exists_endsWell {I Q : State → Prop} (left : State → Nat)
    (hstep : ∀ s, I s → ∃ u, step s = .next u ∧ ((I u ∧ left u < left s) ∨ (u.busy = false ∧ u.err = 0 ∧ Q u)))
    (hs : I s) : ∃ m t, EndsWell m s t ∧ Q t := by
  induction hk : left s using Nat.strong_induction_on generalizing s with
  | _ k ih =>
    obtain ⟨u, hu, ⟨hnext, hlt⟩ | ⟨hidle, herr, hresult⟩⟩ := hstep s hs
    · obtain ⟨m, t, ⟨hrun, hend⟩, hq⟩ := ih (left u) (hk ▸ hlt) hnext rfl
      exact ⟨m + 1, t, ⟨(run_succ hu m).trans hrun, hend⟩, hq⟩
    · exact ⟨1, u, ⟨run_succ hu 0, hidle, herr⟩, hresult⟩

/-! ### The engine running alone -/

/-- A command runs alone, in the given PHASE, in the block's invariant with HAZARD = 0. -/
structure RunsAlone (p : BitVec 4) (s : State) : Prop where
  inv : BlockInv s
  hazard : s.hazard = false
  busy : s.busy = true
  phase : s.phase = p
  alone : Alone s

theorem RunsAlone.unspoiled (h : RunsAlone p s) : s.spoiled = false := h.inv.unspoiled h.hazard

theorem RunsAlone.err (h : RunsAlone p s) : s.err = 0 := h.inv.errClear h.busy

theorem RunsAlone.loops (h : RunsAlone p s) : LoopInv s := h.inv.loops h.hazard

theorem runsAlone_accept (hinv : BlockInv s) (hz : s.hazard = false) (hwait : Waiting s) (w : Word) :
    RunsAlone Phase.dispatch (accept w s) := by
  obtain ⟨hidle, -, hschedule, hprogram⟩ := hwait
  exact ⟨(HostEffect.accept w hidle).blockInv hinv, hz, rfl, rfl, hschedule, hprogram⟩

theorem RunsAlone.step_eq (h : RunsAlone p s) (hsel : Selects s i) : step s = exec i s := by
  have hm : mover s = .engine := by rw [mover_of_alone h.alone, h.busy]; rfl
  have htick := tick_of_alone h.alone
  have hfetch : fetch (tick s) = .ok (some i) := by rw [htick]; exact fetch_of_selects h.busy hsel
  rw [step_of_selected hm hfetch, htick]

theorem RunsAlone.blockInv_next (h : RunsAlone p s) (hsel : Selects s i) (hexec : exec i s = .next t) : BlockInv t :=
  blockInv_step h.inv ((h.step_eq hsel).trans hexec)

/-- The next state of a micro-operation that goes on runs alone as well. -/
theorem RunsAlone.next (h : RunsAlone p s) (hsel : Selects s i) (hexec : exec i s = .next t) (hbusy : t.busy = true)
    (hphase : t.phase = q) : RunsAlone q t where
  inv := h.blockInv_next hsel hexec
  hazard := (exec_effect hexec).hazard_eq.trans h.hazard
  busy := hbusy
  phase := hphase
  alone := h.alone.of_hostView (exec_effect hexec).hostView_eq

theorem RunsAlone.rests (h : RunsAlone p s) (hexec : exec i s = .next t) (hidle : t.busy = false) : Resting t :=
  ⟨hidle, h.alone.of_hostView (exec_effect hexec).hostView_eq⟩

/-! ### The bound (R243) -/

/-- The steps of DECOMPRESS's or COMPRESS's second half, if one is to come. -/
def secondHalf (s : State) : Nat := if s.chain then 2 + s.inLen.toNat else 0

/-- The most steps that are left, PHASE by PHASE. -/
def stepsLeft (s : State) : Nat :=
  if s.phase = Phase.dispatch then commandBound s.opc s + secondHalf s
  else if s.phase = Phase.encInit ∨ s.phase = Phase.desInit then 2 + s.inLen.toNat + secondHalf s
  else if s.phase = Phase.encLoop then s.inLen.toNat - s.inPos.toNat + 1 + secondHalf s
  else if s.phase = Phase.desLoop then s.desN.toNat - s.codePos.toNat + 1 + secondHalf s
  else if s.phase = Phase.serInit ∨ s.phase = Phase.decInit then 2 + s.codeLen.toNat
  else if s.phase = Phase.serLoop ∨ s.phase = Phase.decLoop then s.codeLen.toNat - s.codePos.toNat + 1
  else 0

theorem stepsLeft_dispatch (hp : s.phase = Phase.dispatch) :
    stepsLeft s = commandBound s.opc s + secondHalf s := if_pos hp

theorem stepsLeft_init (hp : s.phase = Phase.encInit ∨ s.phase = Phase.desInit) :
    stepsLeft s = 2 + s.inLen.toNat + secondHalf s := by
  rcases hp with hp | hp <;> simp [stepsLeft, hp]

theorem stepsLeft_encLoop (hp : s.phase = Phase.encLoop) :
    stepsLeft s = s.inLen.toNat - s.inPos.toNat + 1 + secondHalf s := by
  simp [stepsLeft, hp]

theorem stepsLeft_desLoop (hp : s.phase = Phase.desLoop) :
    stepsLeft s = s.desN.toNat - s.codePos.toNat + 1 + secondHalf s := by
  simp [stepsLeft, hp]

theorem stepsLeft_secondInit (hp : s.phase = Phase.serInit ∨ s.phase = Phase.decInit) :
    stepsLeft s = 2 + s.codeLen.toNat := by
  rcases hp with hp | hp <;> simp [stepsLeft, hp]

theorem stepsLeft_secondLoop (hp : s.phase = Phase.serLoop ∨ s.phase = Phase.decLoop) :
    stepsLeft s = s.codeLen.toNat - s.codePos.toNat + 1 := by
  rcases hp with hp | hp <;> simp [stepsLeft, hp]

theorem stepsLeft_idle (hp : s.phase = Phase.idle) : stepsLeft s = 0 := by
  simp [stepsLeft, hp]

theorem commandBound_pos (w : Word) (s : State) : 0 < commandBound w s := by
  unfold commandBound
  split_ifs <;> omega

theorem Selects.stepsLeft_pos (hsel : Selects s i) : 0 < stepsLeft s := by
  cases hsel with
  | dispatch hp =>
    have := commandBound_pos s.opc s
    rw [stepsLeft_dispatch hp]
    omega
  | encInit hp => rw [stepsLeft_init (.inl hp)]; omega
  | desInit hp => rw [stepsLeft_init (.inr hp)]; omega
  | serInit hp => rw [stepsLeft_secondInit (.inl hp)]; omega
  | decInit hp => rw [stepsLeft_secondInit (.inr hp)]; omega
  | encSymbol hp | encEnd hp => rw [stepsLeft_encLoop hp]; omega
  | desCode hp | desEnd hp => rw [stepsLeft_desLoop hp]; omega
  | serCode hp | serEnd hp => rw [stepsLeft_secondLoop (.inl hp)]; omega
  | decFirst hp | decNext hp | decEnd hp => rw [stepsLeft_secondLoop (.inr hp)]; omega

/-- After ENC_END only the second half is left, over no more codes than there were bytes. -/
theorem stepsLeft_encFinish_le (hcode : s.codePos.toNat ≤ s.inLen.toNat) :
    stepsLeft (encFinish s) ≤ secondHalf s := by
  cases hchain : s.chain
  · rw [encFinish, if_neg (by simp [hchain]), stepsLeft_idle rfl]
    exact Nat.zero_le _
  · rw [encFinish_of_chained hchain, stepsLeft_secondInit (.inl rfl), secondHalf, if_pos hchain]
    exact Nat.add_le_add_left hcode 2

theorem stepsLeft_desFinish_le (hcode : s.codePos.toNat ≤ s.inLen.toNat) :
    stepsLeft (desFinish s) ≤ secondHalf s := by
  cases hchain : s.chain
  · rw [desFinish, if_neg (by simp [hchain]), stepsLeft_idle rfl]
    exact Nat.zero_le _
  · rw [desFinish_of_chained hchain, stepsLeft_secondInit (.inr rfl), secondHalf, if_pos hchain]
    exact Nat.add_le_add_left hcode 2

/-- ENCODE emits at most one code a byte (42_encoder.md R147), the last one at ENC_END. -/
theorem EncodeLoopInv.emitted_le_inLen (h : EncodeLoopInv s) : s.codePos.toNat ≤ s.inLen.toNat := by
  have := h.emitted_le
  have := h.pos_le
  omega

theorem EncodeLoopInv.emission_le_inLen (h : EncodeLoopInv s) (hne : s.cur ≠ []) :
    s.codePos.toNat + 1 ≤ s.inLen.toNat := by
  have hpos : s.inPos.toNat ≠ 0 := mt h.cur_empty.2 hne
  have := h.emitted_le
  have := h.pos_le
  omega

theorem DeserializeLoopInv.codePos_le_inLen (h : DeserializeLoopInv s) : s.codePos.toNat ≤ s.inLen.toNat := by
  have := h.pos_le
  have := h.frame_eq
  omega

/-- A turn of the Encoder's loop takes one off what is left. -/
theorem stepsLeft_lt_of_encLoop (hs : s.phase = Phase.encLoop) (ht : t.phase = Phase.encLoop)
    (hpos : s.inPos.toNat < s.inLen.toNat) (hnext : t.inPos = s.inPos + 1) (hlen : t.inLen = s.inLen)
    (hchain : t.chain = s.chain) : stepsLeft t < stepsLeft s := by
  rw [stepsLeft_encLoop ht, stepsLeft_encLoop hs, secondHalf, secondHalf, hchain, hlen, hnext, add_one_toNat hpos]
  omega

/-- DESERIALIZE's loop has fewer codes to read than the frame has bytes. -/
theorem stepsLeft_lt_of_desInit (hs : s.phase = Phase.desInit) (ht : t.phase = Phase.desLoop)
    (hinv : DeserializeLoopInv t) (hlen : t.inLen = s.inLen) (hchain : t.chain = s.chain) :
    stepsLeft t < stepsLeft s := by
  have hframe := hinv.frame_eq
  rw [stepsLeft_desLoop ht, stepsLeft_init (.inr hs), secondHalf, secondHalf, hchain, hlen]
  rw [hlen] at hframe
  omega

/-- So does a turn of SERIALIZE's or the Decoder's loop. -/
theorem stepsLeft_lt_of_secondLoop (hs : s.phase = Phase.serLoop ∨ s.phase = Phase.decLoop)
    (ht : t.phase = Phase.serLoop ∨ t.phase = Phase.decLoop) (hpos : s.codePos.toNat < s.codeLen.toNat)
    (hnext : t.codePos = s.codePos + 1) (hlen : t.codeLen = s.codeLen) : stepsLeft t < stepsLeft s := by
  rw [stepsLeft_secondLoop ht, stepsLeft_secondLoop hs, hlen, hnext, add_one_toNat hpos]
  omega

/-- DISPATCH takes one off a command's bound. -/
theorem CommandEffect.stepsLeft_lt (hp : s.phase = Phase.dispatch) (hdec : decodeCommand s.opc = .ok i)
    (heffect : CommandEffect s i t) : stepsLeft t < stepsLeft s := by
  rw [stepsLeft_dispatch hp]
  rcases (commandWordsMatchTheirRows s.opc i).1 hdec with
    ⟨hw, rfl⟩ | ⟨_, rfl⟩ | ⟨hw, rfl⟩ | ⟨hw, rfl⟩ | ⟨hw, rfl⟩ | ⟨hw, rfl⟩ | ⟨hw, rfl⟩ | ⟨hw, rfl⟩ <;> cases heffect
  case inl.nop | inr.inl.configure =>
    have := commandBound_pos s.opc s
    rw [stepsLeft_idle rfl]
    omega
  all_goals
    rw [and_fullMask] at hw
    rw [hw]
  case encode | deserialize =>
    rw [stepsLeft_init (by simp)]
    show 2 + s.inLen.toNat + secondHalf s < 1 + (2 + s.inLen.toNat) + secondHalf s
    omega
  case serialize | decode =>
    rw [stepsLeft_secondInit (by simp)]
    show 2 + s.codeLen.toNat < 1 + (2 + s.codeLen.toNat) + secondHalf s
    omega
  case compress | decompress =>
    rw [stepsLeft_init (by simp)]
    show 2 + s.inLen.toNat + (2 + s.inLen.toNat) < 1 + (2 + s.inLen.toNat) + (2 + s.inLen.toNat) + secondHalf s
    omega

/-- Every micro-operation takes the measure down. -/
theorem Effect.stepsLeft_lt (h : RunsAlone p s) (hsel : Selects s i) (hinv : BlockInv t) (heffect : Effect s i t) :
    stepsLeft t < stepsLeft s := by
  have hpositive := hsel.stepsLeft_pos
  have hloops : LoopInv t := hinv.loops (heffect.hazard_eq.trans h.hazard)
  cases heffect with
  | aborts | serEnd | decEnd => rwa [stepsLeft_idle rfl]
  | command heffect => cases hsel <;> cases heffect
  | dispatched hdec heffect =>
    cases hsel with
    | dispatch hp => exact heffect.stepsLeft_lt hp hdec
  | encInit =>
    cases hsel with
    | encInit hp =>
      rw [stepsLeft_encLoop (s := encStart s) rfl, stepsLeft_init (.inl hp)]
      show s.inLen.toNat - 0 + 1 + secondHalf s < _
      omega
  | encFound =>
    cases hsel with
    | encSymbol hp hpos =>
      exact stepsLeft_lt_of_encLoop hp hp hpos rfl rfl rfl
  | encEmitted =>
    cases hsel with
    | encSymbol hp hpos =>
      obtain ⟨ed, n, cb, mc, heq⟩ := encRestart_spec (s.cur ++ [elementIn s s.inPos.toNat])
        (elementIn s s.inPos.toNat) (pushCode _ s)
      rw [heq]
      exact stepsLeft_lt_of_encLoop hp hp hpos rfl rfl rfl
  | encEndEmpty =>
    cases hsel with
    | encEnd hp =>
      have hle := stepsLeft_encFinish_le (h.loops.encode hp).emitted_le_inLen
      rw [stepsLeft_encLoop hp]
      omega
  | @encEndEmitted k hne _ hroom =>
    cases hsel with
    | encEnd hp =>
      have hcode : (s.codePos + 1).toNat ≤ s.inLen.toNat := by
        rw [add_one_toNat hroom]
        exact (h.loops.encode hp).emission_le_inLen hne
      have hle := stepsLeft_encFinish_le (s := pushCode (BitVec.ofNat 16 k) s) hcode
      rw [stepsLeft_encLoop hp]
      exact hle.trans_lt (by show secondHalf s < _; omega)
  | serInitStatic | serInitDynamic =>
    cases hsel with
    | serInit hp =>
      rw [stepsLeft_secondLoop (.inl rfl), stepsLeft_secondInit (.inl hp)]
      show s.codeLen.toNat - 0 + 1 < _
      omega
  | serCode =>
    cases hsel with
    | serCode hp hpos =>
      exact stepsLeft_lt_of_secondLoop (.inl hp) (.inl hp) hpos rfl rfl
  | desInitStatic | desInitDynamic =>
    cases hsel with
    | desInit hp =>
      exact stepsLeft_lt_of_desInit hp rfl (hloops.deserialize rfl) rfl rfl
  | desCode =>
    cases hsel with
    | desCode hp hpos =>
      have hnext : (desStore (elementsIn s s.inPos.toNat s.serB.toNat) s).codePos.toNat = s.codePos.toNat + 1 :=
        add_one_toNat hpos
      rw [stepsLeft_desLoop (s := desStore _ s) hp, stepsLeft_desLoop hp, hnext]
      show s.desN.toNat - (s.codePos.toNat + 1) + 1 + secondHalf s < _
      omega
  | desEnd =>
    cases hsel with
    | desEnd hp =>
      have hle := stepsLeft_desFinish_le (h.loops.deserialize hp).codePos_le_inLen
      rw [stepsLeft_desLoop hp]
      omega
  | decInit =>
    cases hsel with
    | decInit hp =>
      rw [stepsLeft_secondLoop (s := decStart s) (.inr rfl), stepsLeft_secondInit (.inr hp)]
      show s.codeLen.toNat - 0 + 1 < _
      omega
  | decFirst =>
    cases hsel with
    | decFirst hp hpos =>
      exact stepsLeft_lt_of_secondLoop (.inr hp) (.inr hp) hpos rfl rfl
  | @decNext entry =>
    cases hsel with
    | decNext hp hpos =>
      obtain ⟨dd, n, cb, mc, heq⟩ := decBind_spec (firstSymbol entry) (pushOut entry s)
      rw [heq]
      exact stepsLeft_lt_of_secondLoop (.inr hp) (.inr hp) hpos rfl rfl

/-- While BUSY = 1 the engine, running alone, has a step, which takes the measure down. -/
theorem RunsAlone.exists_step (h : RunsAlone p s) :
    ∃ t, step s = .next t ∧ BlockInv t ∧ t.hazard = false ∧ Alone t ∧ stepsLeft t < stepsLeft s := by
  have hne : s.phase ≠ Phase.idle := fun hp => absurd ((h.inv.phase.2.1 hp).symm.trans h.busy) (by decide)
  obtain ⟨i, hsel⟩ := exists_selects hne h.inv.phase.1
  obtain ⟨t, hexec⟩ := exec_completes i s
  have heffect := exec_effect hexec
  have hinv := h.blockInv_next hsel hexec
  exact ⟨t, (h.step_eq hsel).trans hexec, hinv, heffect.hazard_eq.trans h.hazard,
    h.alone.of_hostView heffect.hostView_eq, heffect.stepsLeft_lt h hsel hinv⟩

/-- The engine, running alone, comes to rest within the steps that are left. -/
theorem exists_ends_of_stepsLeft (hinv : BlockInv s) (hz : s.hazard = false) (halone : Alone s)
    (hle : stepsLeft s ≤ n) : ∃ m t, m ≤ n ∧ Ends m s t := by
  induction n generalizing s with
  | zero =>
    refine ⟨0, s, Nat.le_refl 0, rfl, Bool.eq_false_of_not_eq_true fun hbusy => ?_⟩
    obtain ⟨t, -, -, -, -, hlt⟩ := RunsAlone.exists_step ⟨hinv, hz, hbusy, rfl, halone⟩
    omega
  | succ n ih =>
    cases hbusy : s.busy
    · exact ⟨0, s, Nat.zero_le _, rfl, hbusy⟩
    · obtain ⟨t, hstep, hinvt, hzt, halonet, hlt⟩ := RunsAlone.exists_step ⟨hinv, hz, hbusy, rfl, halone⟩
      obtain ⟨m, u, hm, hends⟩ := ih hinvt hzt halonet (by omega)
      exact ⟨m + 1, u, by omega, hends.of_step hstep⟩

/-- Settles O54: right after the acceptance the steps left are the word's bound. -/
theorem everyCommandEndsWithinItsBound : Obligations.EveryCommandEndsWithinItsBound := by
  intro s w hinv hz hwait
  have h := runsAlone_accept hinv hz hwait w
  have hbound : stepsLeft (accept w s) = commandBound w s := stepsLeft_dispatch (s := accept w s) rfl
  exact exists_ends_of_stepsLeft h.inv h.hazard h.alone hbound.le

end Sys2Proof.Machine
end

section
/-! ENCODE carried out alone (42_encoder.md R145–R147): the turns of its loop, and the statements that compare two
runs or bound one. -/

namespace Sys2Proof.Machine

variable {s s' t t' u : State} {i : Instr} {n n' : Nat} {p : BitVec 4} {w : Word}

/-! ### From the acceptance to the loop -/

/-- The block past the DISPATCH of `w`, whose first micro-operation is that of PHASE `p`. -/
def started (w : Word) (p : BitVec 4) (s : State) : State := { accept w s with phase := p }

/-- DISPATCH of a word whose command only starts its first micro-operation. -/
theorem exec_dispatch_accept (hdec : decodeCommand w = .ok i) (hstart : exec i (accept w s) = .next (started w p s)) :
    exec .dispatch (accept w s) = .next (started w p s) :=
  (exec_dispatch_of_decoded (s := accept w s) hdec).trans hstart

theorem step_accept (hinv : BlockInv s) (hz : s.hazard = false) (hwait : Waiting s) (hdec : decodeCommand w = .ok i)
    (hstart : exec i (accept w s) = .next (started w p s)) : step (accept w s) = .next (started w p s) :=
  ((runsAlone_accept hinv hz hwait w).step_eq (.dispatch rfl)).trans (exec_dispatch_accept hdec hstart)

theorem runsAlone_started (hinv : BlockInv s) (hz : s.hazard = false) (hwait : Waiting s)
    (hdec : decodeCommand w = .ok i) (hstart : exec i (accept w s) = .next (started w p s)) :
    RunsAlone p (started w p s) :=
  (runsAlone_accept hinv hz hwait w).next (.dispatch rfl) (exec_dispatch_accept hdec hstart) rfl rfl

/-! ### A turn of the Encoder's loop -/

/-- ENCODE, not COMPRESS, in its loop. -/
structure Encoding (s : State) : Prop extends RunsAlone Phase.encLoop s where
  chain : s.chain = false

theorem Encoding.loop (h : Encoding s) : EncodeLoopInv s := h.loops.encode h.phase

/-- The next Symbol, `IN[IN_POS]`. -/
def nextSymbol (s : State) : Byte := elementIn s s.inPos.toNat

/-- What a turn of ENCODE's loop can do, and when: CUR grows, its code is emitted, the input is at its end, or CODE is
full. -/
inductive Turn (s : State) : State → Prop where
  | found (hpos : s.inPos.toNat < s.inLen.toNat) (hfound : (edLookup s.ed (s.cur ++ [nextSymbol s])).isSome) :
      Turn s (encExtend (s.cur ++ [nextSymbol s]) s)
  | emitted {k : Nat} (hpos : s.inPos.toNat < s.inLen.toNat) (habs : edLookup s.ed (s.cur ++ [nextSymbol s]) = none)
      (hcur : edLookup s.ed s.cur = some k) (hroom : s.codePos.toNat < s.codeSize.toNat) :
      Turn s (encRestart (s.cur ++ [nextSymbol s]) (nextSymbol s) (pushCode (BitVec.ofNat 16 k) s))
  | full {k : Nat} (hpos : s.inPos.toNat < s.inLen.toNat) (habs : edLookup s.ed (s.cur ++ [nextSymbol s]) = none)
      (hcur : edLookup s.ed s.cur = some k) (hfull : s.codeSize.toNat ≤ s.codePos.toNat) :
      Turn s (abort .toCode .bufferOverflow s)
  | endEmpty (hpos : s.inPos.toNat = s.inLen.toNat) (hempty : s.cur = []) : Turn s (encFinish s)
  | endEmitted {k : Nat} (hpos : s.inPos.toNat = s.inLen.toNat) (hne : s.cur ≠ [])
      (hcur : edLookup s.ed s.cur = some k) (hroom : s.codePos.toNat < s.codeSize.toNat) :
      Turn s (encFinish (pushCode (BitVec.ofNat 16 k) s))
  | endFull {k : Nat} (hpos : s.inPos.toNat = s.inLen.toNat) (hne : s.cur ≠ []) (hcur : edLookup s.ed s.cur = some k)
      (hfull : s.codeSize.toNat ≤ s.codePos.toNat) : Turn s (abort .toCode .bufferOverflow s)

theorem exec_encSymbol_found (hfound : (edLookup s.ed (s.cur ++ [nextSymbol s])).isSome) :
    exec .encSymbol s = .next (encExtend (s.cur ++ [nextSymbol s]) s) :=
  (exec_encSymbol rfl).trans (encSymbolWith_of_found hfound)

theorem exec_encSymbol_emitted {k : Nat} (habs : edLookup s.ed (s.cur ++ [nextSymbol s]) = none)
    (hcur : edLookup s.ed s.cur = some k) (hroom : s.codePos.toNat < s.codeSize.toNat) :
    exec .encSymbol s =
      .next (encRestart (s.cur ++ [nextSymbol s]) (nextSymbol s) (pushCode (BitVec.ofNat 16 k) s)) :=
  (exec_encSymbol rfl).trans (encSymbolWith_of_emitted habs hcur hroom)

/-- The micro-operation of a turn. -/
theorem Turn.exec_eq (h : Encoding s) (hturn : Turn s u) : ∃ i, Selects s i ∧ exec i s = .next u := by
  cases hturn with
  | found hpos hfound => exact ⟨_, .encSymbol h.phase hpos, exec_encSymbol_found hfound⟩
  | emitted hpos habs hcur hroom => exact ⟨_, .encSymbol h.phase hpos, exec_encSymbol_emitted habs hcur hroom⟩
  | full hpos habs hcur hfull =>
    exact ⟨_, .encSymbol h.phase hpos, (exec_encSymbol rfl).trans (encSymbolWith_of_codeFull habs hcur hfull)⟩
  | endEmpty hpos hempty => exact ⟨_, .encEnd h.phase hpos.ge, exec_encEnd_of_empty hempty⟩
  | endEmitted hpos hne hcur hroom => exact ⟨_, .encEnd h.phase hpos.ge, exec_encEnd_of_emitted hne hcur hroom⟩
  | endFull hpos hne hcur hfull => exact ⟨_, .encEnd h.phase hpos.ge, exec_encEnd_of_codeFull hne hcur hfull⟩

theorem Turn.step_eq (h : Encoding s) (hturn : Turn s u) : step s = .next u := by
  obtain ⟨i, hsel, hexec⟩ := hturn.exec_eq h
  exact (h.toRunsAlone.step_eq hsel).trans hexec

/-- In the invariant a turn always exists: CUR is bound, so no other row of R142 or R144 holds. -/
theorem Encoding.exists_turn (h : Encoding s) : ∃ u, Turn s u := by
  have hloop := h.loop
  rcases Nat.lt_or_ge s.inPos.toNat s.inLen.toNat with hpos | hpos
  · by_cases hfound : (edLookup s.ed (s.cur ++ [nextSymbol s])).isSome
    · exact ⟨_, .found hpos hfound⟩
    · have habs : edLookup s.ed (s.cur ++ [nextSymbol s]) = none := by simpa using hfound
      have hne : s.cur ≠ [] := fun hempty => by
        rw [hempty, List.nil_append, hloop.dict.symbols] at habs
        cases habs
      obtain ⟨k, hk⟩ := Option.isSome_iff_exists.1 (hloop.cur_bound hne)
      rcases Nat.lt_or_ge s.codePos.toNat s.codeSize.toNat with hroom | hfull
      · exact ⟨_, .emitted hpos habs hk hroom⟩
      · exact ⟨_, .full hpos habs hk hfull⟩
  · have hpos : s.inPos.toNat = s.inLen.toNat := hloop.pos_le.antisymm hpos
    by_cases hempty : s.cur = []
    · exact ⟨_, .endEmpty hpos hempty⟩
    · obtain ⟨k, hk⟩ := Option.isSome_iff_exists.1 (hloop.cur_bound hempty)
      rcases Nat.lt_or_ge s.codePos.toNat s.codeSize.toNat with hroom | hfull
      · exact ⟨_, .endEmitted hpos hempty hk hroom⟩
      · exact ⟨_, .endFull hpos hempty hk hfull⟩

@[simp] theorem encRestart_cur (q : Sequence) (c : Byte) (s : State) : (encRestart q c s).cur = [c] := rfl
@[simp] theorem encRestart_inPos (q : Sequence) (c : Byte) (s : State) : (encRestart q c s).inPos = s.inPos + 1 := rfl

@[simp] theorem encRestart_chain (q : Sequence) (c : Byte) (s : State) : (encRestart q c s).chain = s.chain := by
  simp only [encRestart]; split <;> rfl
@[simp] theorem encRestart_busy (q : Sequence) (c : Byte) (s : State) : (encRestart q c s).busy = s.busy := by
  simp only [encRestart]; split <;> rfl
@[simp] theorem encRestart_inBuf (q : Sequence) (c : Byte) (s : State) : (encRestart q c s).inBuf = s.inBuf := by
  simp only [encRestart]; split <;> rfl
@[simp] theorem encRestart_inLen (q : Sequence) (c : Byte) (s : State) : (encRestart q c s).inLen = s.inLen := by
  simp only [encRestart]; split <;> rfl
@[simp] theorem encRestart_codePos (q : Sequence) (c : Byte) (s : State) :
    (encRestart q c s).codePos = s.codePos := by
  simp only [encRestart]; split <;> rfl
@[simp] theorem encRestart_codeSize (q : Sequence) (c : Byte) (s : State) :
    (encRestart q c s).codeSize = s.codeSize := by
  simp only [encRestart]; split <;> rfl
@[simp] theorem encRestart_maxBits (q : Sequence) (c : Byte) (s : State) :
    (encRestart q c s).maxBits = s.maxBits := by
  simp only [encRestart]; split <;> rfl
@[simp] theorem encRestart_var (q : Sequence) (c : Byte) (s : State) : (encRestart q c s).var = s.var := by
  simp only [encRestart]; split <;> rfl

/-- The binding of ENC_SYMBOL, if capacity remains (42_encoder.md R142). -/
theorem encRestart_ed (q : Sequence) (c : Byte) (s : State) :
    (encRestart q c s).ed = if hasCapacity s then (edInsert q s).ed else s.ed := by
  simp only [encRestart]; split <;> rfl

theorem encRestart_nextCode (q : Sequence) (c : Byte) (s : State) :
    (encRestart q c s).nextCode = if hasCapacity s then s.nextCode + 1 else s.nextCode := by
  simp only [encRestart]; split <;> rfl

theorem Encoding.extend (h : Encoding s) (hpos : s.inPos.toNat < s.inLen.toNat)
    (hfound : (edLookup s.ed (s.cur ++ [nextSymbol s])).isSome) : Encoding (encExtend (s.cur ++ [nextSymbol s]) s) :=
  ⟨h.next (.encSymbol h.phase hpos) (exec_encSymbol_found hfound) h.busy h.phase, h.chain⟩

theorem Encoding.restart {k : Nat} (h : Encoding s) (hpos : s.inPos.toNat < s.inLen.toNat)
    (habs : edLookup s.ed (s.cur ++ [nextSymbol s]) = none) (hcur : edLookup s.ed s.cur = some k)
    (hroom : s.codePos.toNat < s.codeSize.toNat) :
    Encoding (encRestart (s.cur ++ [nextSymbol s]) (nextSymbol s) (pushCode (BitVec.ofNat 16 k) s)) :=
  ⟨h.next (.encSymbol h.phase hpos) (exec_encSymbol_emitted habs hcur hroom) ((encRestart_busy _ _ _).trans h.busy)
    ((encRestart_phase _ _ _).trans h.phase),
    (encRestart_chain _ _ _).trans h.chain⟩

/-- What the end of an ENCODE leaves (42_encoder.md R144). -/
theorem Encoding.finish_eq (h : Encoding s) : encFinish s =
    { s with codeLen := s.codePos, width := s.curBits.setWidth 8, phase := Phase.idle, busy := false } :=
  encFinish_of_unchained h.unspoiled h.chain

theorem Encoding.finish_pushCode_eq (h : Encoding s) (k : CodeEntry) : encFinish (pushCode k s) =
    { pushCode k s with
      codeLen := s.codePos + 1, width := s.curBits.setWidth 8, phase := Phase.idle, busy := false } :=
  encFinish_of_unchained (s := pushCode k s) h.unspoiled h.chain

/-- A turn that ends the loop leaves the block at rest. -/
theorem Turn.resting (h : Encoding s) (hturn : Turn s u) (hidle : u.busy = false) : Resting u := by
  obtain ⟨i, -, hexec⟩ := hturn.exec_eq h
  exact h.rests hexec hidle

/-! ### From the acceptance of ENCODE to its loop -/

/-- Past DISPATCH and the first micro-operation, a run from the acceptance is a run from there. -/
theorem Ends.of_command {j : Instr} (h : Ends n (accept w s) t) (hinv : BlockInv s) (hz : s.hazard = false)
    (hwait : Waiting s) (hdec : decodeCommand w = .ok i) (hstart : exec i (accept w s) = .next (started w p s))
    (hsel : Selects (started w p s) j) (hexec : exec j (started w p s) = .next u) : ∃ m, Ends m u t := by
  obtain ⟨m, hm⟩ := h.peel rfl (step_accept hinv hz hwait hdec hstart)
  exact hm.peel rfl (((runsAlone_started hinv hz hwait hdec hstart).step_eq hsel).trans hexec)

theorem EndsWell.of_step (h : EndsWell n t u) (hstep : step s = .next t) : EndsWell (n + 1) s u :=
  ⟨(run_succ hstep n).trans h.1, h.2⟩

/-- And back: such a run makes one from the acceptance. -/
theorem EndsWell.of_command {j : Instr} (h : EndsWell n u t) (hinv : BlockInv s) (hz : s.hazard = false)
    (hwait : Waiting s) (hdec : decodeCommand w = .ok i) (hstart : exec i (accept w s) = .next (started w p s))
    (hsel : Selects (started w p s) j) (hexec : exec j (started w p s) = .next u) :
    EndsWell (n + 2) (accept w s) t :=
  (h.of_step (((runsAlone_started hinv hz hwait hdec hstart).step_eq hsel).trans hexec)).of_step
    (step_accept hinv hz hwait hdec hstart)

/-- ENCODE in front of its first byte. -/
def encodeLoop (s : State) : State := encStart (started 2 Phase.encInit s)

theorem encoding_encodeLoop (hinv : BlockInv s) (hz : s.hazard = false) (hwait : Waiting s)
    (hfits : s.inLen.toNat ≤ s.inSize.toNat) : Encoding (encodeLoop s) :=
  ⟨(runsAlone_started (w := 2) (p := Phase.encInit) (i := .encode) hinv hz hwait rfl rfl).next (.encInit rfl)
    (exec_encInit_of_fits hfits) rfl rfl, rfl⟩

theorem Ends.encode (h : Ends n (accept 2 s) t) (hinv : BlockInv s) (hz : s.hazard = false) (hwait : Waiting s)
    (hfits : s.inLen.toNat ≤ s.inSize.toNat) : ∃ m, Ends m (encodeLoop s) t :=
  h.of_command (i := .encode) hinv hz hwait rfl rfl (.encInit rfl) (exec_encInit_of_fits hfits)

/-- A command that ends without error has passed its first micro-operation's checks. -/
theorem EndsWell.not_aborts {j : Instr} {half : FailingHalf} {e : ErrorKind} (h : EndsWell n (accept w s) t)
    (hinv : BlockInv s) (hz : s.hazard = false) (hwait : Waiting s) (hdec : decodeCommand w = .ok i)
    (hstart : exec i (accept w s) = .next (started w p s)) (hsel : Selects (started w p s) j) :
    exec j (started w p s) ≠ .next (abort half e (started w p s)) := by
  intro hexec
  have hstarted := runsAlone_started hinv hz hwait hdec hstart
  obtain ⟨m, hm⟩ := h.ends.of_command hinv hz hwait hdec hstart hsel hexec
  have heq := hm.eq_of_resting (hstarted.rests hexec rfl)
  have herr := (aborted_abort (half := half) (e := e) hstarted.unspoiled).err
  rw [← heq, h.2.2] at herr
  exact errorCode_ne_zero e herr.symm

theorem EndsWell.encode_fits (h : EndsWell n (accept 2 s) t) (hinv : BlockInv s) (hz : s.hazard = false)
    (hwait : Waiting s) : s.inLen.toNat ≤ s.inSize.toNat := by
  by_contra hlong
  exact h.not_aborts (p := Phase.encInit) (i := .encode) hinv hz hwait rfl rfl (.encInit rfl)
    (exec_encInit_of_tooLong (s := started 2 Phase.encInit s) (Nat.not_le.1 hlong))

/-! ### What holds at the end of an ENCODE -/

/-- The last turn of an ENCODE without error: CUR is empty, or its code is the last one emitted. -/
inductive LastTurn (s : State) : State → Prop where
  | empty (hpos : s.inPos.toNat = s.inLen.toNat) (hempty : s.cur = []) : LastTurn s (encFinish s)
  | emitted {k : Nat} (hpos : s.inPos.toNat = s.inLen.toNat) (hne : s.cur ≠ []) (hcur : edLookup s.ed s.cur = some k)
      (hroom : s.codePos.toNat < s.codeSize.toNat) : LastTurn s (encFinish (pushCode (BitVec.ofNat 16 k) s))

/-- A property that the turns of the loop keep holds in front of the last one. -/
theorem Encoding.result {P : State → Prop}
    (hfound : ∀ s, Encoding s → P s → s.inPos.toNat < s.inLen.toNat →
      (edLookup s.ed (s.cur ++ [nextSymbol s])).isSome → P (encExtend (s.cur ++ [nextSymbol s]) s))
    (hemitted : ∀ s k, Encoding s → P s → s.inPos.toNat < s.inLen.toNat →
      edLookup s.ed (s.cur ++ [nextSymbol s]) = none → edLookup s.ed s.cur = some k →
      s.codePos.toNat < s.codeSize.toNat →
      P (encRestart (s.cur ++ [nextSymbol s]) (nextSymbol s) (pushCode (BitVec.ofNat 16 k) s)))
    (hends : EndsWell n s t) (h : Encoding s) (hP : P s) : ∃ e, Encoding e ∧ P e ∧ LastTurn e t := by
  refine hends.result (I := fun s => Encoding s ∧ P s) (Q := fun t => ∃ e, Encoding e ∧ P e ∧ LastTurn e t)
    (fun s hs => hs.1.busy) (fun s hs => ?_) ⟨h, hP⟩
  obtain ⟨h, hP⟩ := hs
  obtain ⟨u, hturn⟩ := h.exists_turn
  refine ⟨u, hturn.step_eq h, ?_⟩
  have hrest := hturn.resting h
  cases hturn with
  | found hpos hsome => exact .inl ⟨h.extend hpos hsome, hfound s h hP hpos hsome⟩
  | emitted hpos habs hcur hroom =>
    exact .inl ⟨h.restart hpos habs hcur hroom, hemitted s _ h hP hpos habs hcur hroom⟩
  | full | endFull =>
    refine .inr ⟨hrest rfl, fun herr => ?_⟩
    exact absurd ((aborted_abort h.unspoiled).err.symm.trans herr) (errorCode_ne_zero _)
  | endEmpty hpos hempty =>
    exact .inr ⟨hrest (by rw [h.finish_eq]), fun _ => ⟨s, h, hP, .empty hpos hempty⟩⟩
  | endEmitted hpos hne hcur hroom =>
    exact .inr ⟨hrest (by rw [h.finish_pushCode_eq]), fun _ => ⟨s, h, hP, .emitted hpos hne hcur hroom⟩⟩

/-- Settles O55: at the last turn CODE_POS is at most IN_POS - 1 and at most one code is to come, none for no byte. -/
theorem encodeEmitsAtMostOneCodePerSymbol : Obligations.EncodeEmitsAtMostOneCodePerSymbol := by
  intro s t n hinv hz hwait hends
  have hfits := hends.encode_fits hinv hz hwait
  obtain ⟨m, hm⟩ := hends.ends.encode hinv hz hwait hfits
  obtain ⟨e, he, hlen, hlast⟩ := Encoding.result (P := fun e => e.inLen = s.inLen) (fun _ _ hP _ _ => hP)
    (fun _ _ _ hP _ _ _ _ => (encRestart_inLen _ _ _).trans hP) ⟨hm.1, hm.2, hends.2.2⟩
    (encoding_encodeLoop hinv hz hwait hfits) rfl
  have hloop := he.loop
  rw [← hlen]
  cases hlast with
  | empty hpos hempty =>
    have hzero := hloop.cur_empty.1 hempty
    have hcode := hloop.emitted_le
    rw [he.finish_eq]
    show e.codePos.toNat ≤ _ ∧ (_ → 1 ≤ e.codePos.toNat)
    omega
  | emitted hpos hne _ hroom =>
    have hle := hloop.emission_le_inLen hne
    rw [he.finish_pushCode_eq]
    show (e.codePos + 1).toNat ≤ _ ∧ (_ → 1 ≤ (e.codePos + 1).toNat)
    rw [add_one_toNat hroom]
    omega

/-! ### Two ENCODEs of the same input (R145, R146) -/

/-- Two ENCODEs in step: the same input, the same dictionary and the same codes so far, under the same MAX_BITS, and
under the same VAR if `sameVar` says so. -/
structure EncodeSim (sameVar : Prop) (s s' : State) : Prop where
  var : sameVar → s.var = s'.var
  maxBits : s.maxBits = s'.maxBits
  codeSize : s.codeSize = s'.codeSize
  inLen : s.inLen = s'.inLen
  bytes : ∀ i, i < s.inLen.toNat → elementIn s i = elementIn s' i
  ed : s.ed = s'.ed
  nextCode : s.nextCode = s'.nextCode
  cur : s.cur = s'.cur
  inPos : s.inPos = s'.inPos
  codePos : s.codePos = s'.codePos
  codes : ∀ i, i < s.codePos.toNat → elementCode s i = elementCode s' i

/-- The two ENCODEs' ends agree; on WIDTH, if `sameVar` says that VAR does. -/
structure SameEnd (sameVar : Prop) (t t' : State) : Prop where
  err : t.err = t'.err
  codeLen : t.codeLen = t'.codeLen
  width : t.err = 0 → sameVar → t.width = t'.width
  codes : t.err = 0 → ∀ i, i < t.codeLen.toNat → elementCode t i = elementCode t' i

section
variable {v : Prop}

theorem EncodeSim.nextSymbol_eq (h : EncodeSim v s s') (hpos : s.inPos.toNat < s.inLen.toNat) :
    nextSymbol s = nextSymbol s' := by
  rw [nextSymbol, nextSymbol, ← h.inPos]
  exact h.bytes _ hpos

/-- Capacity does not depend on VAR (44_code_width.md R184). -/
theorem EncodeSim.hasCapacity_eq (h : EncodeSim v s s') (hs : Encoding s) (hs' : Encoding s') :
    hasCapacity s = hasCapacity s' := by
  rw [Bool.eq_iff_iff, hs.loop.width.capacity_iff hs.inv.cfg, hs'.loop.width.capacity_iff hs'.inv.cfg, h.nextCode,
    h.maxBits]

theorem EncodeSim.curBits_eq (h : EncodeSim v s s') (hs : Encoding s) (hs' : Encoding s') (hv : v) :
    s.curBits = s'.curBits := by
  have hw := hs.loop.width
  have hw' := hs'.loop.width
  have hvar := h.var hv
  apply BitVec.eq_of_toNat_eq
  cases hcase : s.var with
  | static => rw [hw.static_eq hcase, hw'.static_eq (hvar ▸ hcase), h.maxBits]
  | dynamic => rw [hw.dynamic_eq hcase, hw'.dynamic_eq (hvar ▸ hcase), h.maxBits, h.nextCode]

theorem EncodeSim.pushCode (h : EncodeSim v s s') (k : CodeEntry) (hroom : s.codePos.toNat < s.codeSize.toNat) :
    EncodeSim v (pushCode k s) (pushCode k s') where
  var := h.var
  maxBits := h.maxBits
  codeSize := h.codeSize
  inLen := h.inLen
  bytes := h.bytes
  ed := h.ed
  nextCode := h.nextCode
  cur := h.cur
  inPos := h.inPos
  codePos := congrArg (· + 1) h.codePos
  codes i hi := by
    have hi : i < s.codePos.toNat + 1 := (add_one_toNat hroom) ▸ hi
    rw [elementCode_pushCode, elementCode_pushCode, ← h.codePos]
    split
    · rfl
    · exact h.codes i (by omega)

theorem EncodeSim.extend (h : EncodeSim v s s') (cand : Sequence) :
    EncodeSim v (encExtend cand s) (encExtend cand s') where
  var := h.var
  maxBits := h.maxBits
  codeSize := h.codeSize
  inLen := h.inLen
  bytes := h.bytes
  ed := h.ed
  nextCode := h.nextCode
  cur := rfl
  inPos := congrArg (· + 1) h.inPos
  codePos := h.codePos
  codes := h.codes

theorem EncodeSim.restart (h : EncodeSim v s s') (hcap : hasCapacity s = hasCapacity s') (cand : Sequence) (c : Byte) :
    EncodeSim v (encRestart cand c s) (encRestart cand c s') where
  var hv := by simpa using h.var hv
  maxBits := by simpa using h.maxBits
  codeSize := by simpa using h.codeSize
  inLen := by simpa using h.inLen
  bytes := by simpa [elementIn] using h.bytes
  ed := by simp [encRestart_ed, hcap, h.ed, h.nextCode]
  nextCode := by simp [encRestart_nextCode, hcap, h.nextCode]
  cur := rfl
  inPos := congrArg (· + 1) h.inPos
  codePos := by simpa using h.codePos
  codes := by simpa [elementCode_encRestart] using h.codes

/-- Both CODE buffers are full at once. -/
theorem sameEnd_abort {e : ErrorKind} (hs : Encoding s) (hs' : Encoding s') :
    SameEnd v (abort .toCode e s) (abort .toCode e s') := by
  have ha := aborted_abort (half := .toCode) (e := e) hs.unspoiled
  have ha' := aborted_abort (half := .toCode) (e := e) hs'.unspoiled
  have hne : (abort .toCode e s).err ≠ 0 := by rw [ha.err]; exact errorCode_ne_zero e
  exact ⟨ha.err.trans ha'.err.symm, ha.codeLen.trans ha'.codeLen.symm, fun h => absurd h hne,
    fun h => absurd h hne⟩

theorem EncodeSim.finish (h : EncodeSim v s s') (hs : Encoding s) (hs' : Encoding s') :
    SameEnd v (encFinish s) (encFinish s') := by
  rw [hs.finish_eq, hs'.finish_eq]
  exact ⟨hs.err.trans hs'.err.symm, h.codePos, fun _ hv => congrArg (BitVec.setWidth 8) (h.curBits_eq hs hs' hv),
    fun _ => h.codes⟩

theorem EncodeSim.finish_pushCode (h : EncodeSim v s s') (hs : Encoding s) (hs' : Encoding s') (k : CodeEntry)
    (hroom : s.codePos.toNat < s.codeSize.toNat) :
    SameEnd v (encFinish (Machine.pushCode k s)) (encFinish (Machine.pushCode k s')) := by
  have hpush := h.pushCode k hroom
  rw [hs.finish_pushCode_eq, hs'.finish_pushCode_eq]
  exact ⟨hs.err.trans hs'.err.symm, hpush.codePos, fun _ hv => congrArg (BitVec.setWidth 8) (h.curBits_eq hs hs' hv),
    fun _ => hpush.codes⟩

/-- The turn of one ENCODE is a turn of the other, and they stay in step or end alike. -/
theorem EncodeSim.turn (h : EncodeSim v s s') (hs : Encoding s) (hs' : Encoding s') (hturn : Turn s u) :
    ∃ u', Turn s' u' ∧
      ((Encoding u ∧ Encoding u' ∧ EncodeSim v u u') ∨
        (u.busy = false ∧ u'.busy = false ∧ SameEnd v u u')) := by
  cases hturn with
  | found hpos hfound =>
    have hpos' : s'.inPos.toNat < s'.inLen.toNat := by rwa [← h.inPos, ← h.inLen]
    have hfound' : (edLookup s'.ed (s'.cur ++ [nextSymbol s'])).isSome := by
      rwa [← h.ed, ← h.cur, ← h.nextSymbol_eq hpos]
    refine ⟨_, .found hpos' hfound', .inl ⟨hs.extend hpos hfound, hs'.extend hpos' hfound', ?_⟩⟩
    rw [h.nextSymbol_eq hpos, h.cur]
    exact h.extend _
  | emitted hpos habs hcur hroom =>
    have hpos' : s'.inPos.toNat < s'.inLen.toNat := by rwa [← h.inPos, ← h.inLen]
    have habs' : edLookup s'.ed (s'.cur ++ [nextSymbol s']) = none := by
      rwa [← h.ed, ← h.cur, ← h.nextSymbol_eq hpos]
    have hcur' : edLookup s'.ed s'.cur = some _ := h.ed ▸ h.cur ▸ hcur
    have hroom' : s'.codePos.toNat < s'.codeSize.toNat := by rwa [← h.codePos, ← h.codeSize]
    refine ⟨_, .emitted hpos' habs' hcur' hroom',
      .inl ⟨hs.restart hpos habs hcur hroom, hs'.restart hpos' habs' hcur' hroom', ?_⟩⟩
    rw [h.nextSymbol_eq hpos, h.cur]
    exact (h.pushCode _ hroom).restart (h.hasCapacity_eq hs hs') _ _
  | full hpos habs hcur hfull =>
    refine ⟨_, .full (by rwa [← h.inPos, ← h.inLen]) (by rwa [← h.ed, ← h.cur, ← h.nextSymbol_eq hpos])
      (h.ed ▸ h.cur ▸ hcur) (by rwa [← h.codePos, ← h.codeSize]), .inr ⟨rfl, rfl, sameEnd_abort hs hs'⟩⟩
  | endEmpty hpos hempty =>
    refine ⟨_, .endEmpty (by rwa [← h.inPos, ← h.inLen]) (h.cur ▸ hempty), .inr ⟨?_, ?_, h.finish hs hs'⟩⟩
    · rw [hs.finish_eq]
    · rw [hs'.finish_eq]
  | endEmitted hpos hne hcur hroom =>
    refine ⟨_, .endEmitted (by rwa [← h.inPos, ← h.inLen]) (h.cur ▸ hne) (h.ed ▸ h.cur ▸ hcur)
      (by rwa [← h.codePos, ← h.codeSize]), .inr ⟨?_, ?_, h.finish_pushCode hs hs' _ hroom⟩⟩
    · rw [hs.finish_pushCode_eq]
    · rw [hs'.finish_pushCode_eq]
  | endFull hpos hne hcur hfull =>
    exact ⟨_, .endFull (by rwa [← h.inPos, ← h.inLen]) (h.cur ▸ hne) (h.ed ▸ h.cur ▸ hcur)
      (by rwa [← h.codePos, ← h.codeSize]), .inr ⟨rfl, rfl, sameEnd_abort hs hs'⟩⟩

theorem EncodeSim.sameEnd (h : EncodeSim v s s') (hs : Encoding s) (hs' : Encoding s') (hends : Ends n s t)
    (hends' : Ends n' s' t') : SameEnd v t t' := by
  induction n generalizing s s' n' with
  | zero =>
    obtain ⟨hrun, hidle⟩ := hends
    cases hrun
    exact absurd (hs.busy.symm.trans hidle) (by decide)
  | succ n ih =>
    obtain ⟨u, hturn⟩ := hs.exists_turn
    obtain ⟨u', hturn', hcases⟩ := h.turn hs hs' hturn
    have hrest : Ends n u t := ⟨(run_succ (hturn.step_eq hs) n).symm.trans hends.1, hends.2⟩
    obtain ⟨m', hrest'⟩ := hends'.peel hs'.busy (hturn'.step_eq hs')
    rcases hcases with ⟨hu, hu', hsim⟩ | ⟨hidle, hidle', hend⟩
    · exact ih hsim hu hu' hrest hrest'
    · rwa [hrest.eq_of_resting (hturn.resting hs hidle), hrest'.eq_of_resting (hturn'.resting hs' hidle')]

theorem encodeSim_encodeLoop (hvar : v → s.var = s'.var) (hmax : s.maxBits = s'.maxBits)
    (hsize : s.codeSize = s'.codeSize) (hlen : s.inLen = s'.inLen)
    (hbytes : ∀ i, i < s.inLen.toNat → elementIn s i = elementIn s' i) :
    EncodeSim v (encodeLoop s) (encodeLoop s') :=
  ⟨hvar, hmax, hsize, hlen, hbytes, rfl, rfl, rfl, rfl, rfl, fun _ hi => absurd hi (Nat.not_lt_zero _)⟩

end

/-- Settles O56: the two runs stay in step from the loop's first turn to their ends. -/
theorem encodeIsAFunctionOfItsInput : Obligations.EncodeIsAFunctionOfItsInput := by
  intro s s' t t' n n' hinv hinv' hz hz' hwait hwait' hlen hfits hfits' hbytes hvar hmax hsize hrun hidle hrun' hidle'
  have hfits' : s'.inLen.toNat ≤ s'.inSize.toNat := hlen ▸ hfits'
  obtain ⟨m, hm⟩ := Ends.encode ⟨hrun, hidle⟩ hinv hz hwait hfits
  obtain ⟨m', hm'⟩ := Ends.encode ⟨hrun', hidle'⟩ hinv' hz' hwait' hfits'
  have hsim : EncodeSim True (encodeLoop s) (encodeLoop s') :=
    encodeSim_encodeLoop (fun _ => hvar) hmax hsize hlen hbytes
  have hend := hsim.sameEnd (encoding_encodeLoop hinv hz hwait hfits) (encoding_encodeLoop hinv' hz' hwait' hfits')
    hm hm'
  exact ⟨hend.err, hend.codeLen, fun herr => ⟨hend.width herr trivial, hend.codes herr⟩⟩

/-- An idle block stays in the invariant under either VAR. -/
theorem BlockInv.with_var (hinv : BlockInv s) (hz : s.hazard = false) (hwait : Waiting s) (x : Variant) :
    BlockInv { s with var := x } :=
  blockInv_of_idle hinv.cfg (hinv.phase.2.2 hwait.1) hwait.1 hinv.memory (hinv.unspoiled hz)

/-- Settles O57: the two runs stay in step, since neither capacity nor the dictionary depends on VAR. -/
theorem staticAndDynamicEmitEqualCodes : Obligations.StaticAndDynamicEmitEqualCodes := by
  intro s t t' n n' hinv hz hwait hends hends'
  have hstatic := hinv.with_var hz hwait .static
  have hdynamic := hinv.with_var hz hwait .dynamic
  have hfits : s.inLen.toNat ≤ s.inSize.toNat := hends.encode_fits hstatic hz hwait
  obtain ⟨m, hm⟩ := hends.ends.encode hstatic hz hwait hfits
  obtain ⟨m', hm'⟩ := hends'.ends.encode hdynamic hz hwait hfits
  have hsim : EncodeSim False (encodeLoop { s with var := .static }) (encodeLoop { s with var := .dynamic }) :=
    encodeSim_encodeLoop False.elim rfl rfl rfl fun _ _ => rfl
  have hend := hsim.sameEnd (encoding_encodeLoop hstatic hz hwait hfits) (encoding_encodeLoop hdynamic hz hwait hfits)
    hm hm'
  exact ⟨hend.codeLen, hend.codes hends.2.2⟩

end Sys2Proof.Machine
end

section
/-! SERIALIZE and DESERIALIZE carried out alone (45_stream_codec.md R207, R209): the frame that the one writes and the
other reads. -/

namespace Sys2Proof.Machine

variable {s t u e d : State} {n : Nat} {width : Byte}

theorem headerBytes_of_static (h : s.var = .static) : headerBytes s = 0 := by rw [headerBytes, h]

theorem headerBytes_of_dynamic (h : s.var = .dynamic) : headerBytes s = 1 := by rw [headerBytes, h]

/-! ### Bytes of OUT -/

/-- The `n` bytes of OUT from index `k` on. -/
def elementsOut (s : State) (k n : Nat) : List Byte := (List.range n).map fun b => elementOut s (k + b)

theorem elementsOut_pushOut_self (bs : List Byte) (s : State) :
    elementsOut (pushOut bs s) s.outPos.toNat bs.length = bs :=
  List.ext_getElem (by simp [elementsOut]) fun b _ hb => by
    simp [elementsOut, elementOut_pushOut_inside bs s b hb]

theorem elementsOut_pushOut_below {k m : Nat} (bs : List Byte) (h : k + m ≤ s.outPos.toNat) :
    elementsOut (pushOut bs s) k m = elementsOut s k m :=
  List.map_congr_left fun b hb =>
    elementOut_pushOut_outside bs s (k + b) (.inl (by have := List.mem_range.1 hb; omega))

/-! ### SERIALIZE (R207) -/

/-- The frame of the first `n` codes of `s` in OUT: the header of DYNAMIC, then two bytes a code (30_encoding.md R96,
R97). -/
structure FrameOut (s t : State) (n : Nat) : Prop where
  header : s.var = .dynamic → widthLegal s.width s = true ∧ elementOut t 0 = s.width
  codes : ∀ k < n, elementsOut t (headerBytes s + 2 * k) 2 = bigEndian 2 (elementCode s k).toNat

/-- SERIALIZE of the codes of `s` in its loop. -/
structure Serializing (s e : State) : Prop extends RunsAlone Phase.serLoop e where
  var : e.var = s.var
  codeLen : e.codeLen = s.codeLen
  codeBuf : e.codeBuf = s.codeBuf
  frame : FrameOut s e e.codePos.toNat

theorem Serializing.loop (h : Serializing s e) : SerializeLoopInv e := h.loops.serialize h.phase

theorem Serializing.out_eq (h : Serializing s e) : e.outPos.toNat = headerBytes s + 2 * e.codePos.toNat := by
  rw [h.loop.out_eq, headerBytes, headerBytes, h.var]

theorem Serializing.exec_serCode_eq (h : Serializing s e) :
    exec .serCode e = serCodeWith (elementCode s e.codePos.toNat).toNat e :=
  exec_serCode (congrArg (fun b => (bufGet .CODE b e.codePos.toNat).toNat) h.codeBuf)

/-- Two bytes more, and the frame is one code longer. -/
theorem Serializing.next (h : Serializing s e) (hpos : e.codePos.toNat < e.codeLen.toNat)
    (hroom : e.outPos.toNat + 2 ≤ e.outSize.toNat) :
    ∃ u, exec .serCode e = .next u ∧ Serializing s u := by
  have hbytes : (e.serB.toNat) = 2 := congrArg BitVec.toNat h.loop.bytes_two
  have hexec := h.exec_serCode_eq
  rw [serCodeWith_of_room (by rwa [bigEndian_length, hbytes]), hbytes] at hexec
  refine ⟨_, hexec, ⟨h.toRunsAlone.next (.serCode h.phase hpos) hexec h.busy h.phase, h.var, h.codeLen, h.codeBuf,
    fun hvar => ?_, fun k hk => ?_⟩⟩
  · obtain ⟨hlegal, hheader⟩ := h.frame.header hvar
    refine ⟨hlegal, Eq.trans ?_ hheader⟩
    exact elementOut_pushOut_outside _ e 0 (.inl (by rw [h.out_eq, headerBytes_of_dynamic hvar]; omega))
  · have hk : k < e.codePos.toNat + 1 := add_one_toNat hpos ▸ hk
    rcases Nat.lt_succ_iff_lt_or_eq.1 hk with hlt | rfl
    · exact (elementsOut_pushOut_below _ (by rw [h.out_eq]; omega)).trans (h.frame.codes k hlt)
    · rw [← h.out_eq]
      exact elementsOut_pushOut_self (bigEndian 2 _) e

/-- What the end of SERIALIZE or DECODE leaves. -/
def outDone (e : State) : State := { e with outLen := e.outPos, phase := Phase.idle, busy := false }

theorem Serializing.exec_serEnd_eq (h : Serializing s e) : exec .serEnd e = .next (outDone e) :=
  congrArg Host.Outcome.next (complete_unspoiled (s := { e with outLen := e.outPos }) h.unspoiled)

/-- SER_INIT past its checks. -/
def serStart (s : State) : State :=
  match s.var with
  | .static => serStartStatic s
  | .dynamic => serStartDynamic s

@[simp] theorem serStart_busy (s : State) : (serStart s).busy = s.busy := by unfold serStart; split <;> rfl
@[simp] theorem serStart_phase (s : State) : (serStart s).phase = Phase.serLoop := by unfold serStart; split <;> rfl
@[simp] theorem serStart_var (s : State) : (serStart s).var = s.var := by unfold serStart; split <;> rfl
@[simp] theorem serStart_codeLen (s : State) : (serStart s).codeLen = s.codeLen := by unfold serStart; split <;> rfl
@[simp] theorem serStart_codeBuf (s : State) : (serStart s).codeBuf = s.codeBuf := by unfold serStart; split <;> rfl
@[simp] theorem serStart_codePos (s : State) : (serStart s).codePos = 0 := by unfold serStart; split <;> rfl

theorem elementOut_serStart (hvar : s.var = .dynamic) : elementOut (serStart s) 0 = s.width := by
  rw [serStart, hvar]
  exact bufGet_bufSet_at .OUT s.outBuf 0 s.width 0

/-- SER_INIT goes on exactly where its checks pass, or it aborts. -/
theorem exec_serInit_cases (s : State) :
    (∃ e, exec .serInit s = .next (abort .toOut e s)) ∨
      (exec .serInit s = .next (serStart s) ∧ (s.var = .dynamic → widthLegal s.width s = true)) := by
  rcases Nat.lt_or_ge s.codeSize.toNat s.codeLen.toNat with hlong | hfits
  · exact .inl ⟨_, exec_serInit_of_tooLong hlong⟩
  cases hvar : s.var with
  | static =>
    exact .inr ⟨by rw [exec_serInit_of_static hfits hvar, serStart, hvar], nofun⟩
  | dynamic =>
    cases hwidth : widthLegal s.width s
    · exact .inl ⟨_, exec_serInit_of_badWidth hfits hvar (widthLegal_false_iff.1 hwidth)⟩
    rcases Nat.lt_or_ge s.outSize.toNat 1 with hfull | hroom
    · exact .inl ⟨_, exec_serInit_of_noRoom hfits hvar hwidth hfull⟩
    · exact .inr ⟨by rw [exec_serInit_of_room hfits hvar hwidth hroom, serStart, hvar], fun _ => rfl⟩

/-- SERIALIZE in front of its first code. -/
def serializeLoop (s : State) : State := serStart (started 3 Phase.serInit s)

theorem serializing_serializeLoop (hinv : BlockInv s) (hz : s.hazard = false) (hwait : Waiting s)
    (hexec : exec .serInit (started 3 Phase.serInit s) = .next (serializeLoop s))
    (hlegal : s.var = .dynamic → widthLegal s.width s = true) : Serializing s (serializeLoop s) := by
  have hstarted := runsAlone_started (w := 3) (p := Phase.serInit) (i := .serialize) hinv hz hwait rfl rfl
  exact ⟨hstarted.next (.serInit rfl) hexec (serStart_busy _) (serStart_phase _), serStart_var _, serStart_codeLen _,
    serStart_codeBuf _, fun hvar => ⟨hlegal hvar, elementOut_serStart (s := started 3 Phase.serInit s) hvar⟩,
    fun k hk => absurd hk (by simp [serializeLoop])⟩

/-- A SERIALIZE without error leaves the frame of all codes. -/
theorem EndsWell.serialize (h : EndsWell n (accept 3 s) t) (hinv : BlockInv s) (hz : s.hazard = false)
    (hwait : Waiting s) : ∃ e, Serializing s e ∧ e.codePos = s.codeLen ∧ t = outDone e := by
  rcases exec_serInit_cases (started 3 Phase.serInit s) with ⟨e, haborts⟩ | ⟨hexec, hlegal⟩
  · exact absurd haborts (h.not_aborts (i := .serialize) hinv hz hwait rfl rfl (.serInit rfl))
  obtain ⟨m, hm⟩ := h.ends.of_command (i := .serialize) hinv hz hwait rfl rfl (.serInit rfl) hexec
  refine EndsWell.result (I := Serializing s)
    (Q := fun t => ∃ e, Serializing s e ∧ e.codePos = s.codeLen ∧ t = outDone e) (fun e he => he.busy)
    (fun e he => ?_) ⟨hm.1, hm.2, h.2.2⟩ (serializing_serializeLoop hinv hz hwait hexec hlegal)
  rcases Nat.lt_or_ge e.codePos.toNat e.codeLen.toNat with hpos | hpos
  · have hstep := he.toRunsAlone.step_eq (.serCode he.phase hpos)
    rcases Nat.lt_or_ge e.outSize.toNat (e.outPos.toNat + 2) with hfull | hroom
    · have hexec := he.exec_serCode_eq.trans (serCodeWith_of_outFull (by
        rwa [bigEndian_length, congrArg BitVec.toNat he.loop.bytes_two]))
      refine ⟨_, hstep.trans hexec, .inr ⟨he.rests hexec rfl, fun herr => ?_⟩⟩
      exact absurd ((aborted_abort he.unspoiled).err.symm.trans herr) (errorCode_ne_zero _)
    · obtain ⟨u, hexec, hu⟩ := he.next hpos hroom
      exact ⟨u, hstep.trans hexec, .inl hu⟩
  · have hexec := he.exec_serEnd_eq
    have hcode : e.codePos = s.codeLen := (BitVec.eq_of_toNat_eq (he.loop.pos_le.antisymm hpos)).trans he.codeLen
    exact ⟨_, (he.toRunsAlone.step_eq (.serEnd he.phase hpos)).trans hexec,
      .inr ⟨he.rests hexec rfl, fun _ => ⟨e, he, hcode, rfl⟩⟩⟩

/-- Settles O60: OUT_POS in the loop is the header and two bytes for each code, and SER_END makes it OUT_LEN. -/
theorem frameSizesAreAsStated : Obligations.FrameSizesAreAsStated := by
  intro s t n hinv hz hwait hends
  obtain ⟨e, he, hpos, rfl⟩ := hends.serialize hinv hz hwait
  rw [← hpos]
  exact he.out_eq

/-! ### DESERIALIZE (R209) -/

/-- A frame of the first `n` codes of `code` in IN, under the header `width` if VAR is DYNAMIC. -/
structure FrameIn (code : Nat → CodeEntry) (n : Nat) (width : Byte) (s : State) : Prop where
  len : s.inLen.toNat = headerBytes s + 2 * n
  legal : widthLegal width s = true
  static : s.var = .static → width = s.maxBits
  header : s.var = .dynamic → elementIn s 0 = width
  codes : ∀ k < n, elementsIn s (headerBytes s + 2 * k) 2 = bigEndian 2 (code k).toNat

/-- DES_INIT past its checks. -/
def desStart (width : Byte) (s : State) : State :=
  match s.var with
  | .static => desStartStatic s
  | .dynamic => desStartDynamic width s

section
variable {code : Nat → CodeEntry}

theorem FrameIn.bytesPerCode_eq (h : FrameIn code n width s) (hcfg : CfgLegal s) : bytesPerCode width.toNat = 2 := by
  obtain ⟨hge, hle⟩ := widthLegal_iff.1 h.legal
  exact bytesPerCode_eq_two hge (hle.trans hcfg.2)

theorem FrameIn.exec_desInit_eq (h : FrameIn code n width s) (hcfg : CfgLegal s)
    (hfits : s.inLen.toNat ≤ s.inSize.toNat) : exec .desInit s = .next (desStart width s) := by
  have hlen := h.len
  cases hvar : s.var with
  | static =>
    rw [headerBytes_of_static hvar] at hlen
    rw [exec_desInit_of_static hfits hvar, desInitStatic_of_even (by omega), desStart, hvar]
  | dynamic =>
    rw [headerBytes_of_dynamic hvar] at hlen
    have hne : s.inLen ≠ 0 := fun h0 => by simp [h0] at hlen; omega
    have hheader := h.header hvar
    rw [exec_desInit_of_dynamic hfits hvar, desInitDynamic_of_frame hne (hheader ▸ h.legal)
      (by rw [hheader, h.bytesPerCode_eq hcfg]; omega), hheader, desStart, hvar]

@[simp] theorem desStart_busy (width : Byte) (s : State) : (desStart width s).busy = s.busy := by
  unfold desStart; split <;> rfl
@[simp] theorem desStart_phase (width : Byte) (s : State) : (desStart width s).phase = Phase.desLoop := by
  unfold desStart; split <;> rfl
@[simp] theorem desStart_chain (width : Byte) (s : State) : (desStart width s).chain = s.chain := by
  unfold desStart; split <;> rfl
@[simp] theorem desStart_codePos (width : Byte) (s : State) : (desStart width s).codePos = 0 := by
  unfold desStart; split <;> rfl
@[simp] theorem desStart_codeSize (width : Byte) (s : State) : (desStart width s).codeSize = s.codeSize := by
  unfold desStart; split <;> rfl
@[simp] theorem desStart_inBuf (width : Byte) (s : State) : (desStart width s).inBuf = s.inBuf := by
  unfold desStart; split <;> rfl
@[simp] theorem desStart_inLen (width : Byte) (s : State) : (desStart width s).inLen = s.inLen := by
  unfold desStart; split <;> rfl
@[simp] theorem desStart_var (width : Byte) (s : State) : (desStart width s).var = s.var := by
  unfold desStart; split <;> rfl
@[simp] theorem desStart_maxBits (width : Byte) (s : State) : (desStart width s).maxBits = s.maxBits := by
  unfold desStart; split <;> rfl

theorem FrameIn.desStart_desH (h : FrameIn code n width s) : (desStart width s).desH = width := by
  unfold desStart
  split
  · next hvar => exact (h.static hvar).symm
  · rfl

theorem FrameIn.desStart_desN (h : FrameIn code n width s) (hcfg : CfgLegal s) :
    (desStart width s).desN.toNat = n := by
  have hlen := h.len
  have hbound := s.inLen.isLt
  unfold desStart
  split
  · next hvar =>
    rw [headerBytes_of_static hvar] at hlen
    show (BitVec.ofNat 32 (s.inLen.toNat / 2)).toNat = n
    rw [BitVec.toNat_ofNat, Nat.mod_eq_of_lt] <;> omega
  · next hvar =>
    rw [headerBytes_of_dynamic hvar] at hlen
    show (BitVec.ofNat 32 ((s.inLen.toNat - 1) / bytesPerCode width.toNat)).toNat = n
    rw [h.bytesPerCode_eq hcfg, BitVec.toNat_ofNat, Nat.mod_eq_of_lt] <;> omega

/-- A frame stays one while IN, IN_LEN and CFG do. -/
theorem FrameIn.congr (h : FrameIn code n width s) (hvar : t.var = s.var) (hmax : t.maxBits = s.maxBits)
    (hlen : t.inLen = s.inLen) (hbuf : t.inBuf = s.inBuf) : FrameIn code n width t := by
  have hheader : headerBytes t = headerBytes s := by rw [headerBytes, headerBytes, hvar]
  refine ⟨by rw [hlen, hheader, h.len], ?_, ?_, ?_, ?_⟩
  · simpa [widthLegal, hmax] using h.legal
  · simpa [hvar, hmax] using h.static
  · simpa [hvar, elementIn, hbuf] using h.header
  · simpa [hheader, elementsIn, elementIn, hbuf] using h.codes

/-- DESERIALIZE, not DECOMPRESS, of a frame in its loop. -/
structure Deserializing (code : Nat → CodeEntry) (n : Nat) (width : Byte) (d : State) : Prop
    extends RunsAlone Phase.desLoop d where
  chain : d.chain = false
  frame : FrameIn code n width d
  desN : d.desN.toNat = n
  desH : d.desH = width
  room : n ≤ d.codeSize.toNat
  codes : ∀ k < d.codePos.toNat, elementCode d k = code k

theorem Deserializing.loop (h : Deserializing code n width d) : DeserializeLoopInv d := h.loops.deserialize h.phase

theorem ofNat_ofBigEndian_bigEndian (k : CodeEntry) : BitVec.ofNat 16 (ofBigEndian (bigEndian 2 k.toNat)) = k := by
  apply BitVec.eq_of_toNat_eq
  rw [ofBigEndian_bigEndian, BitVec.toNat_ofNat]
  have := k.isLt
  omega

/-- The bytes of the next code, and their join. -/
theorem Deserializing.exec_desCode_eq (h : Deserializing code n width d) (hpos : d.codePos.toNat < n) :
    ∃ bs, exec .desCode d = .next (desStore bs d) ∧ BitVec.ofNat 16 (ofBigEndian bs) = code d.codePos.toNat := by
  have hbytes : d.serB.toNat = 2 := congrArg BitVec.toNat h.loop.bytes_two
  refine ⟨_, exec_desCode_of_room (hpos.trans_le h.room), ?_⟩
  rw [h.loop.in_eq, hbytes, h.frame.codes _ hpos, ofNat_ofBigEndian_bigEndian]

theorem Deserializing.next {bs : List Byte} (h : Deserializing code n width d) (hpos : d.codePos.toNat < n)
    (hexec : exec .desCode d = .next (desStore bs d))
    (hcode : BitVec.ofNat 16 (ofBigEndian bs) = code d.codePos.toNat) :
    Deserializing code n width (desStore bs d) := by
  have hsel : Selects d .desCode := .desCode h.phase (h.desN ▸ hpos)
  refine ⟨h.toRunsAlone.next hsel hexec h.busy h.phase, h.chain, h.frame.congr rfl rfl rfl rfl, h.desN, h.desH,
    h.room, fun k hk => ?_⟩
  have hk : k < d.codePos.toNat + 1 := (add_one_toNat (hpos.trans_le h.room)) ▸ hk
  refine (elementCode_pushCode (BitVec.ofNat 16 (ofBigEndian bs)) d k).trans ?_
  split
  · next heq => rw [hcode, heq]
  · exact h.codes k (by omega)

/-- What a DESERIALIZE without error leaves. -/
def Deserialized (code : Nat → CodeEntry) (n : Nat) (width : Byte) (t : State) : Prop :=
  t.codeLen.toNat = n ∧ t.width = width ∧ ∀ k < n, elementCode t k = code k

/-- Each step of the loop takes one off the codes to come, or ends the command. -/
theorem Deserializing.step (h : Deserializing code n width d) :
    ∃ u, step d = .next u ∧ ((Deserializing code n width u ∧ n - u.codePos.toNat < n - d.codePos.toNat) ∨
      (u.busy = false ∧ u.err = 0 ∧ Deserialized code n width u)) := by
  rcases Nat.lt_or_ge d.codePos.toNat n with hpos | hpos
  · obtain ⟨bs, hexec, hcode⟩ := h.exec_desCode_eq hpos
    have hnext : (desStore bs d).codePos.toNat = d.codePos.toNat + 1 := add_one_toNat (hpos.trans_le h.room)
    exact ⟨_, (h.toRunsAlone.step_eq (.desCode h.phase (h.desN ▸ hpos))).trans hexec,
      .inl ⟨h.next hpos hexec hcode, by omega⟩⟩
  · have hexec : exec .desEnd d = _ := congrArg Host.Outcome.next (desFinish_of_unchained h.unspoiled h.chain)
    have hcode : d.codePos.toNat = n := (h.desN ▸ h.loop.pos_le).antisymm hpos
    exact ⟨_, (h.toRunsAlone.step_eq (.desEnd h.phase (h.desN ▸ hpos))).trans hexec,
      .inr ⟨rfl, h.err, hcode, h.desH, fun k hk => h.codes k (hcode ▸ hk)⟩⟩

/-- DESERIALIZE in front of its first code. -/
def deserializeLoop (width : Byte) (s : State) : State := desStart width (started 4 Phase.desInit s)

/-- A frame in IN, with room in CODE, gives its codes and its header back. -/
theorem FrameIn.deserialize (h : FrameIn code n width s) (hinv : BlockInv s) (hz : s.hazard = false)
    (hwait : Waiting s) (hfits : s.inLen.toNat ≤ s.inSize.toNat) (hroom : n ≤ s.codeSize.toNat) :
    ∃ m t, EndsWell m (accept 4 s) t ∧ Deserialized code n width t := by
  have hstarted := runsAlone_started (w := 4) (p := Phase.desInit) (i := .deserialize) hinv hz hwait rfl rfl
  have hframe : FrameIn code n width (started 4 Phase.desInit s) := h.congr rfl rfl rfl rfl
  have hexec := hframe.exec_desInit_eq hinv.cfg hfits
  have hstart : Deserializing code n width (deserializeLoop width s) :=
    ⟨hstarted.next (.desInit rfl) hexec (desStart_busy _ _) (desStart_phase _ _), desStart_chain _ _,
      hframe.congr (desStart_var _ _) (desStart_maxBits _ _) (desStart_inLen _ _) (desStart_inBuf _ _),
      hframe.desStart_desN hinv.cfg, hframe.desStart_desH, by simpa [deserializeLoop, started] using hroom,
      fun k hk => absurd hk (by simp [deserializeLoop])⟩
  obtain ⟨m, t, hends, hresult⟩ := exists_endsWell (fun d => n - d.codePos.toNat) (fun _ hd => hd.step) hstart
  exact ⟨_, t, hends.of_command (i := .deserialize) hinv hz hwait rfl rfl (.desInit rfl) hexec, hresult⟩

end

/-! ### The round trip (R209) -/

/-- A frame that SERIALIZE left, byte by byte in the IN of a block under the same CFG. -/
theorem Serializing.frameIn (h : Serializing s e) (hpos : e.codePos = s.codeLen) (hcfg : CfgLegal s)
    (hvar : u.var = s.var) (hmax : u.maxBits = s.maxBits) (hlen : u.inLen = e.outPos)
    (hbytes : ∀ k, k < e.outPos.toNat → elementIn u k = elementOut e k) :
    FrameIn (elementCode s) s.codeLen.toNat (if s.var = .dynamic then s.width else s.maxBits) u := by
  have hheader : headerBytes u = headerBytes s := by rw [headerBytes, headerBytes, hvar]
  have hout := hpos ▸ h.out_eq
  refine ⟨by rw [hlen, hheader, hout], ?_, fun hv => ?_, fun hv => ?_, fun k hk => ?_⟩
  · rw [widthLegal, hmax, ← widthLegal]
    split
    · next hv => exact (h.frame.header hv).1
    · exact widthLegal_iff.2 ⟨hcfg.1, le_rfl⟩
  · rw [hmax, if_neg (by simp [← hvar, hv])]
  · have hv : s.var = .dynamic := hvar ▸ hv
    rw [if_pos hv, hbytes 0 (by rw [hout, headerBytes_of_dynamic hv]; omega), (h.frame.header hv).2]
  · rw [hheader, ← h.frame.codes k (hpos ▸ hk)]
    exact List.map_congr_left fun b hb => hbytes _ (by have := List.mem_range.1 hb; omega)

/-- Settles O59: SERIALIZE leaves a frame of its codes, which DESERIALIZE reads back. -/
theorem deserializeUndoesSerialize : Obligations.DeserializeUndoesSerialize := by
  intro s t u n hinv hz hwait hends hinvu hzu hwaitu hvar hmax hlen hfits hroom hbytes
  obtain ⟨e, he, hpos, rfl⟩ := hends.serialize hinv hz hwait
  have hframe := he.frameIn hpos hinv.cfg hvar hmax hlen hbytes
  obtain ⟨m, v, hendsv, hcodeLen, hwidth, hcodes⟩ := hframe.deserialize hinvu hzu hwaitu hfits hroom
  exact ⟨m, v, hendsv, BitVec.eq_of_toNat_eq hcodeLen, hcodes, hwidth⟩

end Sys2Proof.Machine
end

section
/-! The round trip of ENCODE and DECODE (43_decoder.md R168). Its one idea: the Sequences whose codes ENCODE emits, the
parse of the input, determine both dictionaries. After `j` codes ED holds what the parse so far with CUR behind it
gives, and DD what the parse so far gives; so the code of a Sequence is bound in DD, or it is the one of KwKwK. -/

namespace Sys2Proof.Machine

variable {s t u e d : State} {i : Instr} {n k cap : Nat} {p q r : Sequence} {qs : List Sequence}
variable {code code' : Nat → CodeEntry}

/-! ### The dictionary of a parse -/

/-- The Sequences of length 1, in the order of their codes (41_dictionary.md R121). -/
def symbolTable : List Sequence := (List.range 256).map fun c => [BitVec.ofNat 8 c]

/-- What each Sequence of a parse binds when its successor starts (42_encoder.md R142, 43_decoder.md R163). -/
def links : List Sequence → List Sequence
  | p :: q :: rest => (p ++ [firstSymbol q]) :: links (q :: rest)
  | _ => []

/-- The Sequences bound to 0, 1, … after the parse `qs`, as far as the capacity `cap` goes. -/
def table (cap : Nat) (qs : List Sequence) : List Sequence := (symbolTable ++ links qs).take cap

theorem links_snoc (qs : List Sequence) (p q : Sequence) :
    links (qs ++ [p, q]) = links (qs ++ [p]) ++ [p ++ [firstSymbol q]] := by
  induction qs with
  | nil => rfl
  | cons r rest ih =>
    cases rest with
    | nil => rfl
    | cons r' rest => exact congrArg (_ :: ·) ih

theorem take_snoc (cap : Nat) (l : List Sequence) (x : Sequence) :
    (l ++ [x]).take cap = l.take cap ++ if (l.take cap).length < cap then [x] else [] := by
  rcases Nat.lt_or_ge l.length cap with hlt | hge
  · rw [List.take_of_length_le hlt.le, if_pos hlt, List.take_of_length_le (by simpa using hlt)]
  · rw [List.take_append_of_le_length hge, List.length_take_of_le hge, if_neg (Nat.lt_irrefl cap), List.append_nil]

/-- A parse that goes on by one Sequence binds one more, if capacity remains. -/
theorem table_snoc (cap : Nat) (qs : List Sequence) (p q : Sequence) : table cap (qs ++ [p, q]) =
    table cap (qs ++ [p]) ++ if (table cap (qs ++ [p])).length < cap then [p ++ [firstSymbol q]] else [] := by
  rw [table, links_snoc, ← List.append_assoc, take_snoc]
  rfl

/-- Of the last Sequence only the first Symbol counts. -/
theorem table_last (cap : Nat) (qs : List Sequence) (h : firstSymbol q = firstSymbol r) :
    table cap (qs ++ [q]) = table cap (qs ++ [r]) := by
  rcases List.eq_nil_or_concat' qs with rfl | ⟨rest, p, rfl⟩
  · rfl
  · rw [List.append_assoc, List.append_assoc]
    exact (table_snoc cap rest p q).trans (h ▸ (table_snoc cap rest p r).symm)

theorem symbolTable_length : symbolTable.length = 256 := by
  rw [symbolTable, List.length_map, List.length_range]

theorem firstSymbol_append (h : q ≠ []) (r : Sequence) : firstSymbol (q ++ r) = firstSymbol q := by
  cases q with
  | nil => exact absurd rfl h
  | cons c rest => rfl

/-- The first Sequence binds nothing. -/
theorem table_single (hcap : 256 ≤ cap) (q : Sequence) : table cap [q] = symbolTable := by
  rw [table, links, List.append_nil, List.take_of_length_le (symbolTable_length.trans_le hcap)]
  nofun

theorem capacity_ge (h : CfgLegal s) : 256 ≤ 2 ^ s.maxBits.toNat :=
  Nat.pow_le_pow_right (n := 2) (i := 8) (by decide) ((Nat.le_succ 8).trans h.1)

theorem initialEd_map_fst : initialEd.map Prod.fst = symbolTable := by
  simp [initialEd, symbolTable, Function.comp_def]

theorem initialDd_map_snd : initialDd.map Prod.snd = symbolTable := by
  simp [initialDd, symbolTable, Function.comp_def]

theorem getElem?_symbolTable (h : symbolTable[k]? = some q) : k < 256 ∧ q = [BitVec.ofNat 8 k] := by
  obtain ⟨hk, rfl⟩ := List.getElem?_eq_some_iff.1 h
  have hk : k < 256 := by simpa [symbolTable] using hk
  exact ⟨hk, by simp [symbolTable]⟩

/-- A map whose keys are 0, 1, … in order binds each at its place. -/
theorem getElem?_of_mem {l : List (Nat × Sequence)} (hkeys : l.map Prod.fst = List.range n) (h : (k, q) ∈ l) :
    (l.map Prod.snd)[k]? = some q := by
  obtain ⟨j, hj, hget⟩ := List.mem_iff_getElem.1 h
  have hkey : (l.map Prod.fst)[j]'(by simpa using hj) = k := by simp [hget]
  have hjk : j = k := by simpa [hkeys] using hkey
  subst hjk
  simp [List.getElem?_eq_getElem hj, hget]

theorem EncodeDictInv.getElem?_of_lookup {ed : EncodeDict} (h : EncodeDictInv ed n) (hk : edLookup ed q = some k) :
    (ed.map Prod.fst)[k]? = some q := by
  have hkeys : (ed.map Prod.swap).map Prod.fst = List.range n := (List.map_map ..).trans h.codes
  have hmem : (k, q) ∈ ed.map Prod.swap := List.mem_map.2 ⟨(q, k), mem_of_edLookup hk, rfl⟩
  have hget := getElem?_of_mem hkeys hmem
  rwa [List.map_map] at hget

theorem DecodeDictInv.find_of_getElem? {dd : DecodeDict} (h : DecodeDictInv dd n)
    (hget : (dd.map Prod.snd)[k]? = some q) (hk : k < n) : ddFind dd k = some q := by
  obtain ⟨r, hfind, -⟩ := h.bound hk
  rw [hfind, ← getElem?_of_mem h.codes (mem_of_ddFind hfind), hget]

theorem DecodeDictInv.length_eq {dd : DecodeDict} (h : DecodeDictInv dd n) : dd.length = n := by
  simpa using congrArg List.length h.codes

/-- `code j` is the code of the `j`-th Sequence of the parse, in the dictionary of the parse up to that one. -/
def Coded (cap : Nat) (code : Nat → CodeEntry) (qs : List Sequence) : Prop :=
  ∀ j q, qs[j]? = some q → (table cap (qs.take (j + 1)))[(code j).toNat]? = some q

theorem Coded.snoc (h : Coded cap code qs) (hcongr : ∀ j < qs.length, code' j = code j)
    (hlast : (table cap (qs ++ [q]))[(code' qs.length).toNat]? = some q) : Coded cap code' (qs ++ [q]) := by
  intro j r hr
  rcases Nat.lt_or_ge j qs.length with hlt | hge
  · rw [List.getElem?_append_left hlt] at hr
    rw [List.take_append_of_le_length hlt, hcongr j hlt]
    exact h j r hr
  · obtain rfl : j = qs.length := by
      have := (List.getElem?_eq_some_iff.1 hr).1
      simp at this
      omega
    rw [List.getElem?_concat_length] at hr
    cases hr
    rwa [List.take_of_length_le (by simp)]

/-! ### The parse of an ENCODE -/

theorem elementsIn_succ (s : State) (n : Nat) : elementsIn s 0 (n + 1) = elementsIn s 0 n ++ [elementIn s n] := by
  simp [elementsIn, List.range_succ]

/-- ENCODE of the input of `s` has emitted the codes of the Sequences `qs`, with CUR behind them. -/
structure Parsed (s : State) (qs : List Sequence) (e : State) : Prop where
  host : hostView e = hostView s
  maxBits : e.maxBits = s.maxBits
  table : e.ed.map Prod.fst = table (2 ^ s.maxBits.toNat) (qs ++ [e.cur])
  input : qs.flatten ++ e.cur = elementsIn s 0 e.inPos.toNat
  count : qs.length = e.codePos.toNat
  nonempty : ∀ q ∈ qs, q ≠ []
  coded : Coded (2 ^ s.maxBits.toNat) (elementCode e) qs

theorem inBuf_of_hostView (h : hostView t = hostView s) : t.inBuf = s.inBuf := congrArg Prod.fst h

theorem Parsed.nextSymbol_eq (h : Parsed s qs e) : nextSymbol e = elementIn s e.inPos.toNat := by
  rw [nextSymbol, elementIn, elementIn, inBuf_of_hostView h.host]

theorem Parsed.found (h : Parsed s qs e) (he : Encoding e) (hpos : e.inPos.toNat < e.inLen.toNat) :
    Parsed s qs (encExtend (e.cur ++ [nextSymbol e]) e) where
  host := h.host
  maxBits := h.maxBits
  table := by
    refine h.table.trans ?_
    by_cases hempty : e.cur = []
    · have hcode : e.codePos.toNat = 0 := by
        have := he.loop.emitted_le
        have := he.loop.cur_empty.1 hempty
        omega
      rw [List.length_eq_zero_iff.1 (h.count.trans hcode)]
      rfl
    · exact table_last _ qs (firstSymbol_append hempty _).symm
  input := by
    show qs.flatten ++ (e.cur ++ [nextSymbol e]) = elementsIn s 0 (e.inPos + 1).toNat
    rw [add_one_toNat hpos, elementsIn_succ, ← h.input, h.nextSymbol_eq, List.append_assoc]
  count := h.count
  nonempty := h.nonempty
  coded := h.coded

/-- The code of CUR, emitted, extends the parse by CUR. -/
theorem Parsed.coded_pushCode (h : Parsed s qs e) (he : Encoding e) (hcur : edLookup e.ed e.cur = some k) :
    Coded (2 ^ s.maxBits.toNat) (elementCode (pushCode (BitVec.ofNat 16 k) e)) (qs ++ [e.cur]) := by
  have hloop := he.loop
  refine h.coded.snoc (fun j hj => ?_) ?_
  · rw [elementCode_pushCode, if_neg (by rw [← h.count]; omega)]
  · rw [h.count, elementCode_pushCode_self, hloop.width.ofNat_code_toNat he.inv.cfg (hloop.dict.code_lt hcur),
      ← h.table]
    exact hloop.dict.getElem?_of_lookup hcur

theorem Parsed.nonempty_append (h : Parsed s qs e) (hcur : edLookup e.ed e.cur = some k) :
    ∀ q ∈ qs ++ [e.cur], q ≠ [] := by
  intro q hq
  rcases List.mem_append.1 hq with hq | hq
  · exact h.nonempty q hq
  · rw [List.mem_singleton.1 hq]
    rintro hempty
    rw [hempty, edLookup_nil] at hcur
    cases hcur

theorem EncodeDictInv.length_eq {ed : EncodeDict} (h : EncodeDictInv ed n) : ed.length = n := by
  simpa using congrArg List.length h.codes

theorem Parsed.emitted (h : Parsed s qs e) (he : Encoding e) (hpos : e.inPos.toNat < e.inLen.toNat)
    (habs : edLookup e.ed (e.cur ++ [nextSymbol e]) = none) (hcur : edLookup e.ed e.cur = some k)
    (hroom : e.codePos.toNat < e.codeSize.toNat) :
    Parsed s (qs ++ [e.cur])
      (encRestart (e.cur ++ [nextSymbol e]) (nextSymbol e) (pushCode (BitVec.ofNat 16 k) e)) where
  host := (hostView_encRestart _ _ _).trans h.host
  maxBits := (encRestart_maxBits _ _ _).trans h.maxBits
  table := by
    have hcap : hasCapacity e = decide (e.ed.length < 2 ^ s.maxBits.toNat) := by
      rw [Bool.eq_iff_iff, he.loop.width.capacity_iff he.inv.cfg, he.loop.dict.length_eq, h.maxBits, decide_eq_true_iff]
    have hed : (edInsert (e.cur ++ [nextSymbol e]) e).ed = e.ed ++ [(e.cur ++ [nextSymbol e], e.nextCode.toNat)] :=
      if_neg (by simp [habs])
    rw [encRestart_ed, encRestart_cur, List.append_assoc]
    show (if hasCapacity e then (edInsert (e.cur ++ [nextSymbol e]) e).ed else e.ed).map Prod.fst = _
    refine Eq.trans ?_ (table_snoc _ qs e.cur [nextSymbol e]).symm
    rw [← h.table, hcap, hed, List.length_map]
    split <;> simp_all
  input := by
    rw [encRestart_cur, encRestart_inPos]
    show (qs ++ [e.cur]).flatten ++ [nextSymbol e] = elementsIn s 0 (e.inPos + 1).toNat
    rw [add_one_toNat hpos, elementsIn_succ, ← h.input, h.nextSymbol_eq, List.flatten_append, List.flatten_singleton]
  count := by
    rw [encRestart_codePos]
    show _ = (e.codePos + 1).toNat
    rw [add_one_toNat hroom, List.length_append, h.count, List.length_singleton]
  nonempty := h.nonempty_append hcur
  coded := by simpa [funext (elementCode_encRestart _ _ _)] using h.coded_pushCode he hcur

theorem parsed_encodeLoop (hcfg : CfgLegal s) : Parsed (encodeLoop s) [] (encodeLoop s) where
  host := rfl
  maxBits := rfl
  table := initialEd_map_fst.trans (table_single (capacity_ge hcfg) []).symm
  input := rfl
  count := rfl
  nonempty := nofun
  coded := nofun

/-- What an ENCODE of the input of `s` leaves: the codes of a parse of it. -/
structure Encoded (s : State) (qs : List Sequence) (t : State) : Prop where
  inv : BlockInv t
  waiting : Waiting t
  host : hostView t = hostView (encodeLoop s)
  maxBits : t.maxBits = s.maxBits
  input : qs.flatten = elementsIn s 0 s.inLen.toNat
  count : qs.length = t.codeLen.toNat
  fits : t.codeLen.toNat ≤ t.codeSize.toNat
  coded : Coded (2 ^ s.maxBits.toNat) (elementCode t) qs

theorem LastTurn.turn (h : LastTurn e t) : Turn e t := by
  cases h with
  | empty hpos hempty => exact .endEmpty hpos hempty
  | emitted hpos hne hcur hroom => exact .endEmitted hpos hne hcur hroom

theorem Parsed.encoded (h : Parsed (encodeLoop s) qs e) (he : Encoding e) (hlast : LastTurn e t) :
    ∃ qs, Encoded s qs t := by
  obtain ⟨i, hsel, hexec⟩ := hlast.turn.exec_eq he
  have hinv := he.blockInv_next hsel hexec
  have hhost := (exec_effect hexec).hostView_eq.trans h.host
  have hlen : e.inLen = s.inLen := congrArg (fun v => v.2.1) h.host
  cases hlast with
  | empty hpos hempty =>
    rw [he.finish_eq] at hinv hhost ⊢
    refine ⟨qs, hinv, ⟨rfl, rfl, he.alone⟩, hhost, h.maxBits, ?_, h.count, he.loop.code_le, h.coded⟩
    have hinput := h.input
    rwa [hempty, List.append_nil, hpos, hlen] at hinput
  | emitted hpos hne hcur hroom =>
    rw [he.finish_pushCode_eq] at hinv hhost ⊢
    refine ⟨qs ++ [e.cur], hinv, ⟨rfl, rfl, he.alone⟩, hhost, h.maxBits, ?_, ?_, ?_, h.coded_pushCode he hcur⟩
    · rw [List.flatten_append, List.flatten_singleton, h.input, hpos, hlen]
      rfl
    · show _ = (e.codePos + 1).toNat
      rw [add_one_toNat hroom, List.length_append, h.count, List.length_singleton]
    · show (e.codePos + 1).toNat ≤ e.codeSize.toNat
      rwa [add_one_toNat hroom]

theorem EndsWell.encode (h : EndsWell n (accept 2 s) t) (hinv : BlockInv s) (hz : s.hazard = false)
    (hwait : Waiting s) : ∃ qs, Encoded s qs t := by
  have hfits := h.encode_fits hinv hz hwait
  obtain ⟨m, hm⟩ := h.ends.encode hinv hz hwait hfits
  obtain ⟨e, he, ⟨qs, hparsed⟩, hlast⟩ := Encoding.result (P := fun e => ∃ qs, Parsed (encodeLoop s) qs e)
    (fun e he ⟨qs, hqs⟩ hpos _ => ⟨qs, hqs.found he hpos⟩)
    (fun e k he ⟨qs, hqs⟩ hpos habs hcur hroom => ⟨_, hqs.emitted he hpos habs hcur hroom⟩)
    ⟨hm.1, hm.2, h.2.2⟩ (encoding_encodeLoop hinv hz hwait hfits) ⟨[], parsed_encodeLoop hinv.cfg⟩
  exact hparsed.encoded he hlast

/-! ### The Decoder follows the parse -/

theorem elementsOut_add (s : State) (k m n : Nat) :
    elementsOut s k (m + n) = elementsOut s k m ++ elementsOut s (k + m) n := by
  simp [elementsOut, List.range_add, Function.comp_def, Nat.add_assoc]

theorem elementsOut_pushOut_all (bs : List Byte) (h : d.outPos.toNat + bs.length ≤ d.outSize.toNat) :
    elementsOut (pushOut bs d) 0 (pushOut bs d).outPos.toNat = elementsOut d 0 d.outPos.toNat ++ bs := by
  have hpos : (pushOut bs d).outPos.toNat = d.outPos.toNat + bs.length := ofNat_toNat_of_le h
  rw [hpos, elementsOut_add, Nat.zero_add, elementsOut_pushOut_self,
    elementsOut_pushOut_below (s := d) bs (Nat.zero_add _).le]

theorem length_flatten_take_le (qs : List Sequence) (j : Nat) :
    (qs.take j).flatten.length ≤ qs.flatten.length := by
  conv_rhs => rw [← List.take_append_drop j qs, List.flatten_append, List.length_append]
  exact Nat.le_add_right _ _

theorem take_add_one_of_getElem? {j : Nat} (hq : qs[j]? = some q) : qs.take (j + 1) = qs.take j ++ [q] := by
  rw [List.take_add_one, hq]
  rfl

/-- What DEC_NEXT binds stands last in DD. -/
theorem map_snd_decBind_dd (h : DecodeDictInv d.dd d.nextCode.toNat) (c : Byte) : (decBind c d).dd.map Prod.snd =
    d.dd.map Prod.snd ++ if hasCapacity d then [d.prev ++ [c]] else [] := by
  have habs : d.nextCode.toNat ∉ d.dd.map Prod.fst := by simp [h.codes]
  unfold decBind
  split
  · show (ddSet d.dd d.nextCode.toNat (d.prev ++ [c])).map Prod.snd = _
    rw [ddSet_of_absent _ habs, List.map_append]
    rfl
  · exact (List.append_nil _).symm

/-- DECODE, in its loop, of the codes of the parse `qs` that `t` holds: PREV, DD and OUT are those of the parse so
far. -/
structure Replaying (t : State) (qs : List Sequence) (d : State) : Prop extends RunsAlone Phase.decLoop d where
  codeBuf : d.codeBuf = t.codeBuf
  maxBits : d.maxBits = t.maxBits
  codeLen : d.codeLen.toNat = qs.length
  room : qs.flatten.length ≤ d.outSize.toNat
  fresh : d.prevValid = false → d.codePos.toNat = 0
  prev : d.prevValid = true → ∃ ps, qs.take d.codePos.toNat = ps ++ [d.prev]
  dict : d.dd.map Prod.snd = table (2 ^ t.maxBits.toNat) (qs.take d.codePos.toNat)
  out : elementsOut d 0 d.outPos.toNat = (qs.take d.codePos.toNat).flatten

theorem Replaying.loop (h : Replaying t qs d) : DecodeLoopInv d := h.loops.decode h.phase

theorem Replaying.elementCode_eq (h : Replaying t qs d) (j : Nat) : elementCode d j = elementCode t j :=
  congrArg (bufGet .CODE · j) h.codeBuf

theorem Replaying.room_next (h : Replaying t qs d) (hq : qs[d.codePos.toNat]? = some q) :
    d.outPos.toNat + q.length ≤ d.outSize.toNat := by
  have hout : d.outPos.toNat = (qs.take d.codePos.toNat).flatten.length := by
    simpa [elementsOut] using congrArg List.length h.out
  have hle := length_flatten_take_le qs (d.codePos.toNat + 1)
  rw [take_add_one_of_getElem? hq, List.flatten_append, List.length_append, List.flatten_singleton, ← hout] at hle
  exact hle.trans h.room

/-- The Decoder once it has output the next Sequence of the parse and bound what the parse binds. -/
theorem Replaying.advance {dd : DecodeDict} {m mc : BitVec 17} {cb : BitVec 5} (h : Replaying t qs d)
    (hq : qs[d.codePos.toNat]? = some q) (hsel : Selects d i)
    (hexec : exec i d =
      .next (decAdvance q { pushOut q d with dd := dd, nextCode := m, curBits := cb, maxCode := mc }))
    (hdd : dd.map Prod.snd = table (2 ^ t.maxBits.toNat) (qs.take (d.codePos.toNat + 1))) :
    Replaying t qs (decAdvance q { pushOut q d with dd := dd, nextCode := m, curBits := cb, maxCode := mc }) := by
  have hpos : d.codePos.toNat < d.codeLen.toNat := h.codeLen ▸ (List.getElem?_eq_some_iff.1 hq).1
  have hnext : (d.codePos + 1).toNat = d.codePos.toNat + 1 := add_one_toNat hpos
  have htake := take_add_one_of_getElem? hq
  refine ⟨h.toRunsAlone.next hsel hexec h.busy h.phase, h.codeBuf, h.maxBits, h.codeLen, h.room, nofun,
    fun _ => ⟨qs.take d.codePos.toNat, ?_⟩, ?_, ?_⟩
  · show qs.take (d.codePos + 1).toNat = _
    rw [hnext, htake]
    rfl
  · show dd.map Prod.snd = table _ (qs.take (d.codePos + 1).toNat)
    rw [hnext, hdd]
  · show elementsOut (pushOut q d) 0 (pushOut q d).outPos.toNat = (qs.take (d.codePos + 1).toNat).flatten
    rw [elementsOut_pushOut_all q (h.room_next hq), h.out, hnext, htake, List.flatten_append, List.flatten_singleton]

/-- The first code of a parse is a single byte's. -/
theorem Replaying.next_of_fresh (h : Replaying t qs d) (hcoded : Coded (2 ^ t.maxBits.toNat) (elementCode t) qs)
    (hq : qs[d.codePos.toNat]? = some q) (hfresh : d.prevValid = false) :
    ∃ u, step d = .next u ∧ Replaying t qs u ∧ u.codePos = d.codePos + 1 := by
  have hpos : d.codePos.toNat < d.codeLen.toNat := h.codeLen ▸ (List.getElem?_eq_some_iff.1 hq).1
  have hzero := h.fresh hfresh
  have hsel : Selects d .decFirst := .decFirst h.phase hpos hfresh
  have htake : qs.take (d.codePos.toNat + 1) = [q] := by rw [take_add_one_of_getElem? hq, hzero]; rfl
  have hcap : 256 ≤ 2 ^ t.maxBits.toNat := h.maxBits ▸ capacity_ge h.inv.cfg
  have hget := hcoded _ q hq
  rw [htake, table_single hcap, ← h.elementCode_eq] at hget
  obtain ⟨hk, hq'⟩ := getElem?_symbolTable hget
  have hentry : firstEntry (elementCode d d.codePos.toNat).toNat d = q :=
    (h.loop.dict.firstEntry_symbol h.loop.width.nextCode_ge (Nat.le_of_lt_succ hk)).trans hq'.symm
  have hexec : exec .decFirst d = .next (decAdvance q (pushOut q d)) := by
    rw [exec_decFirst rfl, decFirstWith_of_room (Nat.le_of_lt_succ hk) (by rw [hentry]; exact h.room_next hq), hentry]
  refine ⟨_, (h.toRunsAlone.step_eq hsel).trans hexec, h.advance hq hsel hexec ?_, rfl⟩
  rw [htake]
  exact h.dict.trans (by rw [hzero]; rfl)

/-- The parse binds, with its next Sequence, what DEC_NEXT does. -/
theorem Replaying.table_next (h : Replaying t qs d) (hq : qs[d.codePos.toNat]? = some q)
    (hvalid : d.prevValid = true) : table (2 ^ t.maxBits.toNat) (qs.take (d.codePos.toNat + 1)) =
      d.dd.map Prod.snd ++ if hasCapacity d then [d.prev ++ [firstSymbol q]] else [] := by
  obtain ⟨ps, hps⟩ := h.prev hvalid
  have hcap : hasCapacity d = true ↔ (d.dd.map Prod.snd).length < 2 ^ t.maxBits.toNat := by
    rw [h.loop.width.capacity_iff h.inv.cfg, List.length_map, h.loop.dict.length_eq, h.maxBits]
  rw [take_add_one_of_getElem? hq, hps, List.append_assoc]
  refine (table_snoc _ ps d.prev q).trans ?_
  rw [← hps, ← h.dict]
  simp only [hcap]

/-- The next code of a parse is bound in DD, or it is NEXT_CODE, of the Sequence that begins with PREV and ends with
its own first Symbol (R164). -/
theorem Replaying.nextEntry (h : Replaying t qs d) (hcoded : Coded (2 ^ t.maxBits.toNat) (elementCode t) qs)
    (hq : qs[d.codePos.toNat]? = some q) (hvalid : d.prevValid = true) :
    NextEntry d (elementCode d d.codePos.toNat).toNat q := by
  have hget := hcoded _ q hq
  rw [h.table_next hq hvalid, ← h.elementCode_eq] at hget
  have hdict := h.loop.dict
  have hlength : (d.dd.map Prod.snd).length = d.nextCode.toNat := (List.length_map _).trans hdict.length_eq
  rcases Nat.lt_or_ge (elementCode d d.codePos.toNat).toNat d.nextCode.toNat with hlt | hge
  · rw [List.getElem?_append_left (hlength ▸ hlt)] at hget
    exact .inl ((if_pos hlt).trans (hdict.find_of_getElem? hget hlt))
  · rw [List.getElem?_append_right (hlength ▸ hge), hlength] at hget
    obtain ⟨hk, hq'⟩ :
        (elementCode d d.codePos.toNat).toNat = d.nextCode.toNat ∧ d.prev ++ [firstSymbol q] = q := by
      split at hget
      · obtain ⟨hk, hq'⟩ := List.getElem?_eq_some_iff.1 hget
        simp only [List.length_singleton] at hk
        exact ⟨by omega, by simpa using hq'⟩
      · simp at hget
    have hfirst : firstSymbol q = firstSymbol d.prev := by
      rw [← hq', firstSymbol_append (h.loop.prev_nonempty hvalid)]
    exact .inr ⟨ddGet_eq_none_of_le hge, hk, hfirst ▸ hq'.symm⟩

theorem Replaying.next_of_valid (h : Replaying t qs d) (hcoded : Coded (2 ^ t.maxBits.toNat) (elementCode t) qs)
    (hq : qs[d.codePos.toNat]? = some q) (hvalid : d.prevValid = true) :
    ∃ u, step d = .next u ∧ Replaying t qs u ∧ u.codePos = d.codePos + 1 := by
  have hpos : d.codePos.toNat < d.codeLen.toNat := h.codeLen ▸ (List.getElem?_eq_some_iff.1 hq).1
  have hsel : Selects d .decNext := .decNext h.phase hpos hvalid
  have hexec : exec .decNext d = .next (decAdvance q (decBind (firstSymbol q) (pushOut q d))) :=
    (exec_decNext rfl).trans
      ((decNextWith_of_entry (h.nextEntry hcoded hq hvalid)).trans (decEntry_of_room (h.room_next hq)))
  have hdd := map_snd_decBind_dd (d := pushOut q d) h.loop.dict (firstSymbol q)
  obtain ⟨dd, m, cb, mc, heq⟩ := decBind_spec (firstSymbol q) (pushOut q d)
  rw [heq] at hexec hdd
  have hnext := h.advance hq hsel hexec (hdd.trans (h.table_next hq hvalid).symm)
  exact ⟨_, (h.toRunsAlone.step_eq hsel).trans hexec, hnext, rfl⟩

/-! ### From the acceptance of DECODE to its end -/

/-- The output of a DECODE that has given the parse back. -/
def Decoded (qs : List Sequence) (u : State) : Prop := elementsOut u 0 u.outLen.toNat = qs.flatten

theorem Replaying.exec_decEnd_eq (h : Replaying t qs d) : exec .decEnd d = .next (outDone d) :=
  congrArg Host.Outcome.next (complete_unspoiled (s := { d with outLen := d.outPos }) h.unspoiled)

/-- Each step of the loop takes one off the codes to come, or ends the command. -/
theorem Replaying.step (h : Replaying t qs d) (hcoded : Coded (2 ^ t.maxBits.toNat) (elementCode t) qs) :
    ∃ u, step d = .next u ∧ ((Replaying t qs u ∧ qs.length - u.codePos.toNat < qs.length - d.codePos.toNat) ∨
      (u.busy = false ∧ u.err = 0 ∧ Decoded qs u)) := by
  rcases Nat.lt_or_ge d.codePos.toNat qs.length with hpos | hpos
  · have hq := List.getElem?_eq_getElem hpos
    obtain ⟨u, hstep, hu, hnext⟩ :
        ∃ u, Machine.step d = .next u ∧ Replaying t qs u ∧ u.codePos = d.codePos + 1 := by
      cases hvalid : d.prevValid
      · exact h.next_of_fresh hcoded hq hvalid
      · exact h.next_of_valid hcoded hq hvalid
    have hnext : u.codePos.toNat = d.codePos.toNat + 1 :=
      (congrArg BitVec.toNat hnext).trans (add_one_toNat (h.codeLen ▸ hpos))
    exact ⟨u, hstep, .inl ⟨hu, by omega⟩⟩
  · have hout : Decoded qs (outDone d) := h.out.trans (congrArg List.flatten (List.take_of_length_le hpos))
    exact ⟨_, (h.toRunsAlone.step_eq (.decEnd h.phase (h.codeLen ▸ hpos))).trans h.exec_decEnd_eq,
      .inr ⟨rfl, h.err, hout⟩⟩

/-- DECODE in front of its first code. -/
def decodeLoop (s : State) : State := decStart (started 5 Phase.decInit s)

theorem Encoded.decode (h : Encoded s qs t) (hz : t.hazard = false) (hroom : qs.flatten.length ≤ t.outSize.toNat) :
    ∃ m u, EndsWell m (accept 5 t) u ∧ Decoded qs u := by
  have hstarted := runsAlone_started (w := 5) (p := Phase.decInit) (i := .decode) h.inv hz h.waiting rfl rfl
  have hexec : exec .decInit (started 5 Phase.decInit t) = .next (decodeLoop t) := exec_decInit_of_fits h.fits
  have hstart : Replaying t qs (decodeLoop t) :=
    ⟨hstarted.next (.decInit rfl) hexec rfl rfl, rfl, rfl, h.count.symm, hroom, fun _ => rfl, nofun,
      initialDd_map_snd.trans (table_single (capacity_ge h.inv.cfg) []).symm, rfl⟩
  have hcoded : Coded (2 ^ t.maxBits.toNat) (elementCode t) qs := h.maxBits ▸ h.coded
  obtain ⟨m, u, hends, hresult⟩ :=
    exists_endsWell (fun d => qs.length - d.codePos.toNat) (fun _ hd => hd.step hcoded) hstart
  exact ⟨_, u, hends.of_command (i := .decode) h.inv hz h.waiting rfl rfl (.decInit rfl) hexec, hresult⟩

/-- Settles O58: ENCODE leaves the codes of a parse of its input, and the Decoder follows that parse. -/
theorem decodeUndoesEncode : Obligations.DecodeUndoesEncode := by
  intro s t n hinv hz hwait hends hroom
  obtain ⟨qs, h⟩ := hends.encode hinv hz hwait
  have hhost := h.host
  simp only [hostView, Prod.mk.injEq] at hhost
  obtain ⟨-, -, -, hhazard, -, -, hsize, -⟩ := hhost
  have hlength : qs.flatten.length = s.inLen.toNat := by rw [h.input, elementsIn_length]
  obtain ⟨m, u, hu, hout⟩ := h.decode (hhazard.trans hz) (hlength.trans_le (hroom.trans_eq (congrArg _ hsize.symm)))
  have hlen : u.outLen.toNat = s.inLen.toNat := by simpa [elementsOut, hlength] using congrArg List.length hout
  refine ⟨m, u, hu, BitVec.eq_of_toNat_eq hlen, fun j hj => ?_⟩
  rw [Decoded, hlen, h.input] at hout
  simpa [elementsOut, elementsIn, hj] using congrArg (·[j]?) hout

end Sys2Proof.Machine
end
